-- ==== Sys2Proof/Word.lean ====
section
/-! DEFINITION. The widths of the spec's quantities (00_scope.md R7): every quantity is an unsigned natural of a
fixed width. -/

namespace Sys2Proof

/-- A byte of SRC or SNK, and a symbol: a byte value (00_scope.md section 7). -/
abbrev Byte := BitVec 8

/-- A host register, a command word, a frequency count: 32 bits (00_scope.md R6, REG_W and CNT_W). -/
abbrev Word := BitVec 32

/-- A node id, and DISTINCT: 9 bits (10_state.md R23, R24). -/
abbrev NodeId := BitVec 9

/-- A node weight: 40 bits (00_scope.md R6, W_W). -/
abbrev Weight := BitVec 40

/-- A node tie-break sum: 16 bits (00_scope.md R6, T_W). -/
abbrev TieSum := BitVec 16

/-- The code of a symbol, first bit in bit 255 (10_state.md R30). -/
abbrev CodeWord := BitVec 256

/-- The host port's register index, 0 to 31: the byte offset divided by 4 (20_memory.md R68). -/
abbrev RegIndex := BitVec 5

end Sys2Proof
end

