-- ==== Sys2Proof/Config.lean ====
section
/-! DEFINITION. The parameters of the hardware (00_scope.md R6). The fixed ones are constants; the OPEN ones
(SRC_CAP, SNK_CAP, HUFF_BASE) are the fields of `Config`, which a state carries as data (log entry 3), so that a
statement about every state holds for every value of them. -/

namespace Sys2Proof

/-- The OPEN parameters of 00_scope.md R6. -/
structure Config where
  /-- SRC_CAP: capacity of the source buffer in bytes, 1 to 2^32 - 1. -/
  srcCap : Word
  /-- SNK_CAP: capacity of the sink buffer in bytes, 1 to 2^32 - 1. -/
  snkCap : Word
  /-- HUFF_BASE: platform address of the 128-byte register space; no rule of a command reads it (20_memory.md R74). -/
  huffBase : Nat
deriving DecidableEq, Repr

namespace Config

/-- The range R6 gives the two capacities; the upper bound is the width of the field. -/
def wf (c : Config) : Bool := decide (1 ≤ c.srcCap.toNat) && decide (1 ≤ c.snkCap.toNat)

/-- The values the test vectors take where a vector says nothing else (95_test_vectors.md: "SRC_CAP = SNK_CAP = 2^20").
DESIGN CHOICE (log entry 3): the spec leaves them open; no statement rests on them. -/
def vectors : Config where
  srcCap := 0x00100000#32
  snkCap := 0x00100000#32
  huffBase := 0

end Config

/-- K, the constant of the priority key (00_scope.md R6, 42_tree_builder.md R141). -/
def keyK : Nat := 2 ^ 40

/-- NNODE, the size of the node table (00_scope.md R6). -/
abbrev nNode : Nat := 511

/-- MAXLEN, the longest possible code in bits (00_scope.md R6). -/
def maxLen : Nat := 255

end Sys2Proof
end

