-- ==== Sys2Proof/Syntax.lean ====
section
/-! DEFINITION. The commands of the block (30_encoding.md R82), the registers of the host map (10_state.md R40), the
actions of the host (00_scope.md R5, 20_memory.md R69) and the lines of a host program (30_encoding.md R85). -/

namespace Sys2Proof

/-- The thirteen commands of 30_encoding.md R82, one constructor per row of the opcode table. A command carries no
operand (R84). -/
inductive Instr where
  | nop | srst | srcclr | snkclr
  | ftcount
  | tbbuild
  | cgderive
  | hfemit | hfparse
  | bppack | buunpack
  | encode | decode
deriving DecidableEq, Repr

/-- The 32 registers of the host map (10_state.md R40), the three reserved offsets among them (R58). -/
inductive Reg where
  | cmd | status | cause | einfo
  | total | distinct | root | nint
  | sel | freqD | nodeWlo | nodeWhi
  | nodeTb | nodeCh | codeLenD
  | codeB (j : Fin 8)
  | srcPush | srcLen | srcPos | snkLen
  | snkAddr | snkData
  | reserved3C | reserved78 | reserved7C
deriving DecidableEq, Repr

/-- What the outside does to the block, one action at a time (00_scope.md R5, 20_memory.md R68, R70): a read or a
write of one register, by its index, or a hardware reset (70_reset_and_hazards.md R250). -/
inductive HostAction where
  | read (r : RegIndex)
  | write (r : RegIndex) (d : Word)
  | hardReset
deriving DecidableEq, Repr

/-- An access of a platform bus before the bridge: an address, a width in bits, a direction and the data of a write.
20_memory.md R68 says which of them the port can express. -/
structure Access where
  addr : Nat
  bits : Nat
  store : Bool
  data : Word
deriving DecidableEq, Repr

/-- One line of a host program, in the forms of 30_encoding.md R85. -/
inductive HostLine where
  | cmd (i : Instr)
  | wr (r : Reg) (v : Word)
  | rd (r : Reg)
  | push (bs : List Byte)
  | pushN (b : Byte) (n : Nat)
  | drain
deriving DecidableEq, Repr

end Sys2Proof
end

