-- ==== Sys2Proof/Machine/State.lean ====
section
/-! DEFINITION. The state of the block (10_state.md), its reset value (R59), the causes of its faults
(60_exceptions.md R221), and the reasons for which the model itself stops. -/

namespace Sys2Proof.Machine

/-- A byte buffer: (address, byte) pairs, addresses strictly rising. The spec's buffers are sequences (10_state.md R35,
R36), so in the canonical form the addresses are 0, 1, ..., length - 1 (`Memory.wf`, Ops.lean). An unlisted address
holds no value: it lies outside the buffer (20_memory.md R60). -/
abbrev Memory := List Host.Cell

/-- OPSTATE (10_state.md R37). -/
inductive OpState where
  | idle
  | faulted
deriving DecidableEq, Repr

/-- The thirteen causes of 60_exceptions.md R221, in the order of their codes 1 to 13. -/
inductive Cause where
  | headerDistinctRange
  | headerTruncated
  | headerZeroFrequency
  | headerDuplicateSymbol
  | headerEmptyTable
  | bitstreamUnderrun
  | badTraversal
  | illegalCommand
  | sequenceError
  | srcOverflow
  | snkOverflow
  | noCode
  | undefinedEmptyBuild
deriving DecidableEq, Repr

/-- The situations in which the model stops. The spec's own faults are not among them: the block takes those
(60_exceptions.md R226) and goes on. Each one is a precondition the spec states and every run meets; a state that
breaks it is one no run reaches, and there the pseudocode has no meaning to follow (log entries 5 and 6). All safe. -/
inductive Fault where
  /-- Raised by HFPARSE, BUUNPACK and DECODE: MemRead at an address outside 0 .. SRC_LEN - 1, which "every rule checks
  first" (20_memory.md R62). Safe. -/
  | srcOutOfRange
  /-- Raised by TBBUILD: Pop with no entry in the queue, against "Precondition: at least one n has INQ[n] = 1"
  (42_tree_builder.md R144); DISTINCT says there is a present symbol and FREQ has none. Safe. -/
  | emptyQueue
  /-- Raised by CGDERIVE: the walk goes deeper than the stated bound "len(p) ≤ 255" (43_code_table.md R162), so the
  node table is no tree. Safe. -/
  | walkTooDeep
  /-- Raised by BUUNPACK: DISTINCT = 1 and there is no symbol with FREQ[s] ≠ 0, against "the one symbol with
  FREQ[s] ≠ 0" (44_bit_io.md R178). Safe. -/
  | noKnownSymbol
  /-- Raised by BUUNPACK: the loop passed its bound of one iteration per bit of SRC (70_reset_and_hazards.md R263);
  no state at all raises it. Safe. -/
  | loopBound
deriving DecidableEq, Repr

/-- The reasons for which the model gives no meaning. -/
inductive Refusal where
  /-- Raised by an arm of `exec` that has no meaning yet; no arm of this model has it. Safe. -/
  | notModelled (mnemonic : String)
deriving DecidableEq, Repr

/-- Everything the spec gives the block (10_state.md sections 1 and 2; INVENTORY.md lists the rule of each field), the
OPEN parameters, and the two fields of the host port, which are the model's own. -/
structure State where
  /-- SRC_CAP, SNK_CAP, HUFF_BASE (00_scope.md R6): no step changes them (log entry 3). -/
  cfg : Config
  /-- FREQ[0..255] (R20). -/
  freq : Vector Word 256
  /-- TOTAL (R22). -/
  total : Word
  /-- DISTINCT (R23). -/
  distinct : BitVec 9
  /-- NODE_W[0..510] (R25). -/
  nodeW : Vector Weight 511
  /-- NODE_T[0..510] (R26). -/
  nodeT : Vector TieSum 511
  /-- NODE_L[256..510], entry `n - 256` for node `n` (R27). -/
  nodeL : Vector NodeId 255
  /-- NODE_R[256..510], entry `n - 256` for node `n` (R27). -/
  nodeR : Vector NodeId 255
  /-- ROOT (R28). -/
  root : NodeId
  /-- NINT (R28). -/
  nint : BitVec 9
  /-- CODE_LEN[0..255] (R29). -/
  codeLen : Vector (BitVec 8) 256
  /-- CODE_BITS[0..255], first bit of the code in bit 255 (R30). -/
  codeBits : Vector CodeWord 256
  /-- INQ[0..510] (R31). -/
  inq : Vector Bool 511
  /-- BP_ACC (R32). -/
  bpAcc : Byte
  /-- BP_N (R32). -/
  bpN : BitVec 3
  /-- BU_CUR (R33). -/
  buCur : Byte
  /-- BU_N (R33). -/
  buN : BitVec 4
  /-- WALK (R34). -/
  walk : NodeId
  /-- EMIT (R34). -/
  emit : Word
  /-- SRC, whose length is SRC_LEN (R35). -/
  src : Memory
  /-- SRC_POS (R35). -/
  srcPos : Word
  /-- SNK, whose length is SNK_LEN (R36). -/
  snk : Memory
  /-- OPSTATE (R37). -/
  opstate : OpState
  /-- FTV (R39). -/
  ftv : Bool
  /-- TRV (R39). -/
  trv : Bool
  /-- CDV (R39). -/
  cdv : Bool
  /-- HPV (R39). -/
  hpv : Bool
  /-- EMPTY (R39). -/
  empty : Bool
  /-- CAUSE, `none` for code 0 (R43). -/
  cause : Option Cause
  /-- EINFO (R44). -/
  einfo : Word
  /-- SEL (R49). -/
  sel : BitVec 9
  /-- SNK_ADDR (R57). -/
  snkAddr : Word
  /-- The host actions still to come, oldest first. The model's own field (log entry 1). -/
  pending : List HostAction
  /-- The word the port gave on the last register read. The model's own field (log entry 2). -/
  rdata : Word
deriving DecidableEq, Repr

/-- The state right after hardware reset (10_state.md R59, 70_reset_and_hazards.md R251): "all tables, counters, cursors
and flags 0, SRC and SNK empty, OPSTATE = IDLE". The values of `cfg`, `pending` and `rdata` are the model's: DESIGN
CHOICE (log entries 1 to 3). -/
def State.reset : State where
  cfg := Config.vectors
  freq := Vector.replicate 256 0#32
  total := 0#32
  distinct := 0#9
  nodeW := Vector.replicate 511 0#40
  nodeT := Vector.replicate 511 0#16
  nodeL := Vector.replicate 255 0#9
  nodeR := Vector.replicate 255 0#9
  root := 0#9
  nint := 0#9
  codeLen := Vector.replicate 256 0#8
  codeBits := Vector.replicate 256 0#256
  inq := Vector.replicate 511 false
  bpAcc := 0#8
  bpN := 0#3
  buCur := 0#8
  buN := 0#4
  walk := 0#9
  emit := 0#32
  src := []
  srcPos := 0#32
  snk := []
  opstate := .idle
  ftv := false
  trv := false
  cdv := false
  hpv := false
  empty := false
  cause := none
  einfo := 0#32
  sel := 0#9
  snkAddr := 0#32
  pending := []
  rdata := 0#32

/-- Where a command stands after a part of its pseudocode: it goes on, or it ended at once because a fault was raised
and taken (60_exceptions.md R226), or the model stops (`Fault`). -/
inductive Flow where
  | go (s : State)
  | raised (s : State)
  | stuck (f : Fault)
deriving DecidableEq, Repr

end Sys2Proof.Machine
end

