-- ==== Sys2Proof/Machine/Ops.lean ====
section
/-! DEFINITION. The shared operations: the byte buffers and their access primitives (20_memory.md R61 to R66), the
tables, taking a fault (60_exceptions.md R226) and the return from it (R228), and the gate every command passes
(30_encoding.md R81). -/

namespace Sys2Proof.Machine

/-! ### Sequencing -/

/-- Go on with `k` where the command goes on; a raised fault ends the command at once (60_exceptions.md R225, R226). -/
def Flow.bind (f : Flow) (k : State → Flow) : Flow :=
  match f with
  | .go s => k s
  | .raised s => .raised s
  | .stuck r => .stuck r

/-- The outcome of a command that has ended: a fault of the spec is a next state (60_exceptions.md R226). -/
def Flow.outcome (f : Flow) : Host.Outcome State Fault Refusal :=
  match f with
  | .go s => .next s
  | .raised s => .next s
  | .stuck r => .fault r

/-! ### Byte buffers -/

/-- The number of bytes of a buffer. -/
def Memory.size (m : Memory) : Nat := m.length

/-- The bytes of a buffer in address order. -/
def Memory.bytes (m : Memory) : List Byte := m.map Prod.snd

/-- The byte at an address; none where the address is unlisted, that is outside the buffer. -/
def Memory.read (m : Memory) (a : Nat) : Option Byte :=
  (m.find? fun c => c.1 == a).map Prod.snd

/-- Append one byte at the first free address (20_memory.md R61: "every write to SNK is an append at SNK_LEN"). -/
def Memory.append (m : Memory) (b : Byte) : Memory := m ++ [(m.length, b)]

/-- Append bytes in order. -/
def Memory.appendAll (m : Memory) (bs : List Byte) : Memory :=
  match bs with
  | [] => m
  | b :: rest => Memory.appendAll (Memory.append m b) rest

/-- The buffer that holds the bytes `bs` from address 0 on. -/
def Memory.ofBytes (bs : List Byte) : Memory := Memory.appendAll [] bs

/-- The canonical form: the listed addresses are 0, 1, ..., size - 1 in this order, so they rise strictly and have no
gap (10_state.md R35, R36). -/
def Memory.wf (m : Memory) : Bool := m.map Prod.fst == List.range m.length

/-- SRC_LEN, the u32 length of SRC (10_state.md R35). -/
def State.srcLen (s : State) : Word := BitVec.ofNat 32 s.src.length

/-- SNK_LEN, the u32 length of SNK (10_state.md R36). -/
def State.snkLen (s : State) : Word := BitVec.ofNat 32 s.snk.length

/-- `be32` of four bytes in address order (20_memory.md R66). -/
def be32 (b0 b1 b2 b3 : Byte) : Word := b0 ++ b1 ++ b2 ++ b3

/-- The four bytes of a u32 in address order (20_memory.md R66). -/
def be32Bytes (v : Word) : List Byte :=
  [v.extractLsb' 24 8, v.extractLsb' 16 8, v.extractLsb' 8 8, v.extractLsb' 0 8]

/-- `MemRead(addr, 1)` (20_memory.md R62). -/
def memRead1 (s : State) (a : Nat) : Option Byte := s.src.read a

/-- `MemRead(addr, 4)`, big-endian (20_memory.md R62, R66). -/
def memRead4 (s : State) (a : Nat) : Option Word :=
  match s.src.read a, s.src.read (a + 1), s.src.read (a + 2), s.src.read (a + 3) with
  | some b0, some b1, some b2, some b3 => some (be32 b0 b1 b2 b3)
  | _, _, _, _ => none

/-! ### Tables -/

/-- `FREQ[s]` (10_state.md R20). -/
def freqAt (t : Vector Word 256) (s : Byte) : Word := t[s.toNat]'(s.isLt)

/-- `FREQ[s] <- v`. -/
def freqSet (t : Vector Word 256) (s : Byte) (v : Word) : Vector Word 256 := t.set s.toNat v s.isLt

/-- `present(s)`: FREQ[s] ≠ 0 (10_state.md R21). -/
def present (t : Vector Word 256) (s : Byte) : Bool := freqAt t s != 0#32

/-- The indices whose bit is set, ascending, for bits that stand at indices `i`, `i + 1`, ... -/
def setIds (i : Nat) (bits : List Bool) : List Nat :=
  match bits with
  | [] => []
  | q :: rest => if q then i :: setIds (i + 1) rest else setIds (i + 1) rest

/-- The present symbols in ascending order ("for s in 0 .. 255: if FREQ[s] ≠ 0"). -/
def presentSymbols (t : Vector Word 256) : List Byte :=
  (setIds 0 (t.toList.map fun f => f != 0#32)).map (BitVec.ofNat 8)

/-- The table of `n` entries that begins with `l` and holds `d` from there on. -/
def padTable {α : Type} (n : Nat) (d : α) (l : List α) : Vector α n :=
  Vector.mk (l.take n ++ List.replicate (n - l.length) d).toArray (by simp; omega)

/-- The number of present symbols. -/
def presentCount (t : Vector Word 256) : Nat := (presentSymbols t).length

/-- `NODE_W[n]` or `NODE_T[n]`; id 511 does not exist and reads 0 (10_state.md R24, R51, R52). -/
def nodeAt {w : Nat} (t : Vector (BitVec w) 511) (n : NodeId) : BitVec w := t[n.toNat]?.getD 0#w

/-- `NODE_L[n]` or `NODE_R[n]`; a node that is no internal node has no entry and reads 0 (10_state.md R27, R53). -/
def childAt (t : Vector NodeId 255) (n : NodeId) : NodeId :=
  if 256 ≤ n.toNat then t[n.toNat - 256]?.getD 0#9 else 0#9

/-! ### Taking a fault, and the return -/

/-- The code of a cause (60_exceptions.md R221). -/
def Cause.code (c : Cause) : Byte :=
  match c with
  | .headerDistinctRange => 1#8
  | .headerTruncated => 2#8
  | .headerZeroFrequency => 3#8
  | .headerDuplicateSymbol => 4#8
  | .headerEmptyTable => 5#8
  | .bitstreamUnderrun => 6#8
  | .badTraversal => 7#8
  | .illegalCommand => 8#8
  | .sequenceError => 9#8
  | .srcOverflow => 10#8
  | .snkOverflow => 11#8
  | .noCode => 12#8
  | .undefinedEmptyBuild => 13#8

/-- Every piece of the block's state at its reset value (10_state.md R59). The parameters and the two fields of the
host port are not the block's state and stay (log entries 1 to 3). -/
def softReset (s : State) : State :=
  { State.reset with cfg := s.cfg, pending := s.pending, rdata := s.rdata }

/-- Fault entry, `raise F(info)` (60_exceptions.md R226): every piece of state at its reset value except SRC and
SRC_LEN, SEL and SNK_ADDR; OPSTATE is FAULTED, CAUSE the code of F, EINFO the information word. -/
def enterFault (c : Cause) (info : Word) (s : State) : State :=
  { softReset s with
    src := s.src, sel := s.sel, snkAddr := s.snkAddr
    opstate := .faulted, cause := some c, einfo := info }

/-- `raise F(info)` inside a command: fault entry, and the command ends at once (60_exceptions.md R226). -/
def raiseFault (c : Cause) (info : Word) (s : State) : Flow := .raised (enterFault c info s)

/-- The gate of every command but SRST (30_encoding.md R81, 40_control_ops.md): in FAULTED the command is refused and
nothing changes (60_exceptions.md R227); in IDLE its body runs to completion. -/
def command (body : State → Flow) (s : State) : Host.Outcome State Fault Refusal :=
  match s.opstate with
  | .faulted => .next s
  | .idle => (body s).outcome

/-! ### Writing the sink -/

/-- `MemWrite(SNK_LEN, n, v)` with the n bytes of v given in address order (20_memory.md R63): SnkOverflow(SNK_LEN)
when `SNK_LEN + n > SNK_CAP`, else the bytes are appended. -/
def memWrite (bs : List Byte) (s : State) : Flow :=
  if s.snk.length + bs.length > s.cfg.snkCap.toNat then raiseFault .snkOverflow s.snkLen s
  else .go { s with snk := s.snk.appendAll bs }

/-- `SnkAppend(b)`, that is `MemWrite(SNK_LEN, 1, b)` (20_memory.md R63). -/
def snkAppend (b : Byte) (s : State) : Flow := memWrite [b] s

/-- `MemWrite(SNK_LEN, 4, v)`: the four bytes of v, most significant first (20_memory.md R63, R66). -/
def memWrite4 (v : Word) (s : State) : Flow := memWrite (be32Bytes v) s

end Sys2Proof.Machine
end

