-- ==== Sys2Proof/Machine/BitIo.lean ====
section
/-! DEFINITION. The bit packer BP and the bit unpacker BU (44_bit_io.md). -/

namespace Sys2Proof.Machine

/-! ### Packing -/

/-- `x[i] <- b` for one bit of a byte. -/
def setBit (x : Byte) (i : Nat) (b : Bool) : Byte :=
  if b then x ||| (1#8 <<< i) else x &&& ~~~(1#8 <<< i)

/-- "SnkAppend(BP_ACC); BP_ACC <- 0; BP_N <- 0" (44_bit_io.md R171, R172). -/
def emitAcc (s : State) : Flow :=
  (snkAppend s.bpAcc s).bind fun s => .go { s with bpAcc := 0#8, bpN := 0#3 }

/-- `PushBit(b)` (44_bit_io.md R171). -/
def pushBit (b : Bool) (s : State) : Flow :=
  let acc := setBit s.bpAcc (7 - s.bpN.toNat) b
  if s.bpN = 7#3 then emitAcc { s with bpAcc := acc }
  else .go { s with bpAcc := acc, bpN := s.bpN + 1#3 }

/-- `PushBit` of the bits of a string, in order. -/
def pushBits (bs : List Bool) (s : State) : Flow :=
  match bs with
  | [] => .go s
  | b :: rest => (pushBit b s).bind (pushBits rest)

/-- `Flush()` (44_bit_io.md R172): the partial byte, padded with 0 bits; nothing where there is none. -/
def flush (s : State) : Flow := if s.bpN = 0#3 then .go s else emitAcc s

/-- `code(s)` as it stands in CODE_LEN and CODE_BITS: bit `j` is `CODE_BITS[s][255 - j]` (10_state.md R30). -/
def codeOf (len : Vector (BitVec 8) 256) (bits : Vector CodeWord 256) (s : Byte) : List Bool :=
  (List.range (len[s.toNat]'(s.isLt)).toNat).map fun j => (bits[s.toNat]'(s.isLt)).getLsbD (255 - j)

/-- The loop of BPPACK over the bytes of SRC, from address `i` on (44_bit_io.md R176): NoCode(i) at a byte whose symbol
is absent (R177), else its code is pushed. -/
def packFrom (i : Nat) (bs : List Byte) (s : State) : Flow :=
  match bs with
  | [] => .go s
  | b :: rest =>
    if present s.freq b then (pushBits (codeOf s.codeLen s.codeBits b) s).bind (packFrom (i + 1) rest)
    else raiseFault .noCode (BitVec.ofNat 32 i) s

/-- BPPACK (44_bit_io.md R176): SequenceError(0x50) without a code table, else the codes of the bytes of SRC are packed
onto SNK and flushed. -/
def bppackBody (s : State) : Flow :=
  if s.cdv = false then raiseFault .sequenceError 0x50#32 s
  else (packFrom 0 s.src.bytes { s with bpAcc := 0#8, bpN := 0#3 }).bind flush

/-- The meaning of BPPACK. -/
def execBppack (s : State) : Host.Outcome State Fault Refusal := command bppackBody s

/-! ### Unpacking -/

/-- The fetch of NextBit (44_bit_io.md R174): a byte is read only when no bit of the last one is left;
BitstreamUnderrun(SRC_POS) at the end of SRC. -/
def fetchByte (s : State) : Flow :=
  if s.buN = 0#4 then
    if s.srcPos = s.srcLen then raiseFault .bitstreamUnderrun s.srcPos s
    else
      match memRead1 s s.srcPos.toNat with
      | none => .stuck .srcOutOfRange
      | some b => .go { s with buCur := b, srcPos := s.srcPos + 1#32, buN := 8#4 }
  else .go s

/-- `NextBit()` (44_bit_io.md R174), with what follows it as `k`: bit 7 of a byte first, then 6, down to 0. -/
def nextBit (s : State) (k : Bool → State → Flow) : Flow :=
  (fetchByte s).bind fun s =>
    let n := s.buN - 1#4
    k (s.buCur.getLsbD n.toNat) { s with buN := n }

/-- A step of the walk on bit `b` (44_bit_io.md R178): BadTraversal off the tree (R181), else to the left child on 0 and
to the right child on 1; at a leaf its symbol is appended and the walk returns to ROOT. -/
def walkBit (b : Bool) (s : State) : Flow :=
  if s.walk.toNat < 256 ∨ s.walk.toNat ≥ 256 + s.nint.toNat then raiseFault .badTraversal s.srcPos s
  else
    let n := if b then childAt s.nodeR s.walk else childAt s.nodeL s.walk
    if n.toNat < 256 then
      (snkAppend (n.setWidth 8) { s with walk := n }).bind fun s =>
        .go { s with emit := s.emit + 1#32, walk := s.root }
    else .go { s with walk := n }

/-- "while EMIT < TOTAL" (44_bit_io.md R178). At most `fuel` tests of the condition; BUUNPACK gives one more than SRC has
bits, and each pass consumes a bit (70_reset_and_hazards.md R263; log entry 7). -/
def unpackLoop (fuel : Nat) (s : State) : Flow :=
  match fuel with
  | 0 => .stuck .loopBound
  | f + 1 => if s.emit.toNat < s.total.toNat then (nextBit s walkBit).bind (unpackLoop f) else .go s

/-- "repeat n times: SnkAppend(s)" (44_bit_io.md R178, R179). -/
def appendRun (n : Nat) (b : Byte) (s : State) : Flow :=
  match n with
  | 0 => .go s
  | m + 1 => (snkAppend b s).bind (appendRun m b)

/-- The address of the first byte after the header (44_bit_io.md R178). -/
def headerEnd (s : State) : Word :=
  if s.src.length = 0 then 0#32 else BitVec.ofNat 32 (8 + 5 * s.distinct.toNat)

/-- BUUNPACK (44_bit_io.md R178): SequenceError(0x51) without a parsed header, or without a tree where there are two or
more symbols; SNK is emptied; then nothing, the single symbol TOTAL times (R179), or the walk (R180). -/
def buunpackBody (s : State) : Flow :=
  if s.hpv = false then raiseFault .sequenceError 0x51#32 s
  else if 2 ≤ s.distinct.toNat ∧ s.trv = false then raiseFault .sequenceError 0x51#32 s
  else
    let s := { s with snk := [], srcPos := headerEnd s }
    if s.distinct = 0#9 then .go s
    else if s.distinct = 1#9 then
      match (presentSymbols s.freq).head? with
      | none => .stuck .noKnownSymbol
      | some b => appendRun s.total.toNat b s
    else unpackLoop (8 * s.src.length + 1) { s with buN := 0#4, walk := s.root, emit := 0#32 }

/-- The meaning of BUUNPACK. -/
def execBuunpack (s : State) : Host.Outcome State Fault Refusal := command buunpackBody s

end Sys2Proof.Machine
end

