-- ==== Sys2Proof/Machine/CodeTable.lean ====
section
/-! DEFINITION. The code-table generator CG (43_code_table.md). -/

namespace Sys2Proof.Machine

/-- CODE_LEN and CODE_BITS while CGDERIVE fills them (43_code_table.md R162). -/
structure Codes where
  len : Vector (BitVec 8) 256
  bits : Vector CodeWord 256
deriving DecidableEq, Repr

/-- All codes empty: "CODE_LEN[s] <- 0; CODE_BITS[s] <- 0" (43_code_table.md R162). -/
def Codes.zero : Codes where
  len := Vector.replicate 256 0#8
  bits := Vector.replicate 256 0#256

/-- A bit string in bits 255 .. 256 - len, first bit first, zeros below (43_code_table.md R162, 10_state.md R30). -/
def placeBits (p : List Bool) : CodeWord := (BitVec.ofBoolListBE p).setWidth 256 <<< (256 - p.length)

/-- Record the path `p` as the code of leaf `n` (43_code_table.md R162). -/
def Codes.record (c : Codes) (n : NodeId) (p : List Bool) : Codes where
  len := c.len.setIfInBounds n.toNat (BitVec.ofNat 8 p.length)
  bits := c.bits.setIfInBounds n.toNat (placeBits p)

/-- `Walk(n, p)` (43_code_table.md R162): left before right, at a leaf record the path. `fuel` bounds the depth; none
where it runs out. CGDERIVE gives 256, so a walk that keeps the stated bound len(p) ≤ 255 never runs out (log entry 6). -/
def walk (l r : Vector NodeId 255) (fuel : Nat) (n : NodeId) (p : List Bool) (c : Codes) : Option Codes :=
  match fuel with
  | 0 => none
  | f + 1 =>
    if n.toNat < 256 then some (c.record n p)
    else
      match walk l r f (childAt l n) (p ++ [false]) c with
      | none => none
      | some c' => walk l r f (childAt r n) (p ++ [true]) c'

/-- The code table of a tree: a function of ROOT, NODE_L and NODE_R (43_code_table.md R162). -/
def deriveCodes (l r : Vector NodeId 255) (root : NodeId) : Option Codes :=
  walk l r (maxLen + 1) root [] Codes.zero

/-- CGDERIVE (43_code_table.md R162): SequenceError(0x30) without a tree, else the code table of the tree. -/
def cgderiveBody (s : State) : Flow :=
  if s.trv = false then raiseFault .sequenceError 0x30#32 s
  else
    match deriveCodes s.nodeL s.nodeR s.root with
    | none => .stuck .walkTooDeep
    | some c => .go { s with codeLen := c.len, codeBits := c.bits, cdv := true }

/-- The meaning of CGDERIVE. -/
def execCgderive (s : State) : Host.Outcome State Fault Refusal := command cgderiveBody s

end Sys2Proof.Machine
end

