-- ==== Sys2Proof/Machine/FrequencyTable.lean ====
section
/-! DEFINITION. The frequency counter FT (41_frequency_table.md). -/

namespace Sys2Proof.Machine

/-- `FREQ[b] <- FREQ[b] + 1` (41_frequency_table.md R130); the sum fits (R131). -/
def bump (t : Vector Word 256) (b : Byte) : Vector Word 256 := freqSet t b (freqAt t b + 1#32)

/-- The table that counts the bytes `bs` in order, starting from all 0 (41_frequency_table.md R130). -/
def countBytes (bs : List Byte) : Vector Word 256 := bs.foldl bump (Vector.replicate 256 0#32)

/-- FTCOUNT (41_frequency_table.md R130). -/
def ftcountBody (s : State) : Flow :=
  let t := countBytes s.src.bytes
  .go { s with
    freq := t, total := s.srcLen, distinct := BitVec.ofNat 9 (presentCount t), srcPos := 0#32
    ftv := true, trv := false, cdv := false, hpv := false, empty := decide (s.src.length = 0) }

/-- The meaning of FTCOUNT. -/
def execFtcount (s : State) : Host.Outcome State Fault Refusal := command ftcountBody s

end Sys2Proof.Machine
end

