-- ==== Sys2Proof/Machine/Header.lean ====
section
/-! DEFINITION. The header framer and deframer HF (45_header_framer.md). -/

namespace Sys2Proof.Machine

/-- The pairs of HFEMIT for the symbols `ss`, in order (45_header_framer.md R191): the symbol value, then its frequency
count big-endian. -/
def emitPairs (ss : List Byte) (s : State) : Flow :=
  match ss with
  | [] => .go s
  | b :: rest =>
    (memWrite [b] s).bind fun s => (memWrite4 (freqAt s.freq b) s).bind (emitPairs rest)

/-- HFEMIT (45_header_framer.md R191): SequenceError(0x40) without a table; SNK is emptied; on a table that is not
empty the total, the distinct-symbol count and the pairs in ascending symbol order are written. -/
def hfemitBody (s : State) : Flow :=
  if s.ftv = false then raiseFault .sequenceError 0x40#32 s
  else
    let s := { s with snk := [] }
    if s.distinct = 0#9 then .go s
    else
      (memWrite4 s.total s).bind fun s =>
        (memWrite4 (s.distinct.setWidth 32) s).bind (emitPairs (presentSymbols s.freq))

/-- The meaning of HFEMIT. -/
def execHfemit (s : State) : Host.Outcome State Fault Refusal := command hfemitBody s

/-- One pair of HFPARSE (45_header_framer.md R195, in the order of R201): HeaderTruncated, HeaderZeroFrequency,
HeaderDuplicateSymbol, else FREQ takes the count and SRC_POS moves by 5. -/
def parsePair (s : State) : Flow :=
  if s.srcPos.toNat + 5 > s.src.length then raiseFault .headerTruncated s.srcLen s
  else
    match memRead1 s s.srcPos.toNat, memRead4 s (s.srcPos.toNat + 1) with
    | some b, some f =>
      if f = 0#32 then raiseFault .headerZeroFrequency s.srcPos s
      else if present s.freq b then raiseFault .headerDuplicateSymbol s.srcPos s
      else .go { s with freq := freqSet s.freq b f, srcPos := s.srcPos + 5#32 }
    | _, _ => .stuck .srcOutOfRange

/-- "for k in 0 .. d - 1" of HFPARSE (45_header_framer.md R195). -/
def parsePairs (d : Nat) (s : State) : Flow :=
  match d with
  | 0 => .go s
  | n + 1 => (parsePair s).bind (parsePairs n)

/-- The state HFPARSE starts its reads from: FREQ, TOTAL, DISTINCT, SRC_POS and the flags at 0 (45_header_framer.md
R195). -/
def parseStart (s : State) : State :=
  { s with
    freq := Vector.replicate 256 0#32, total := 0#32, distinct := 0#9, srcPos := 0#32
    ftv := false, trv := false, cdv := false, hpv := false, empty := false }

/-- HFPARSE (45_header_framer.md R195): the empty frame (R202), HeaderTruncated (R197), HeaderDistinctRange (R196), the
pairs, HeaderEmptyTable (R200), in this order (R201). -/
def hfparseBody (s : State) : Flow :=
  let s := parseStart s
  if s.src.length = 0 then .go { s with empty := true, ftv := true, hpv := true }
  else if s.src.length < 8 then raiseFault .headerTruncated s.srcLen s
  else
    match memRead4 s 0, memRead4 s 4 with
    | some t, some d =>
      let s := { s with srcPos := 8#32 }
      if d.toNat > 256 then raiseFault .headerDistinctRange d s
      else
        (parsePairs d.toNat s).bind fun s =>
          if d = 0#32 ∧ t ≠ 0#32 then raiseFault .headerEmptyTable t s
          else .go { s with total := t, distinct := d.setWidth 9, ftv := true, hpv := true }
    | _, _ => .stuck .srcOutOfRange

/-- The meaning of HFPARSE. -/
def execHfparse (s : State) : Host.Outcome State Fault Refusal := command hfparseBody s

end Sys2Proof.Machine
end

