-- ==== Sys2Proof/Machine/TreeBuilder.lean ====
section
/-! DEFINITION. The tree builder TB (42_tree_builder.md): the priority key, the queue order, Pop, and TBBUILD. -/

namespace Sys2Proof.Machine

/-- The node table, INQ and the merge counter k while TBBUILD runs (42_tree_builder.md R145). Node ids are naturals
here, below 511 in the queue; they are stored in NODE_L, NODE_R and ROOT as u9. -/
structure Build where
  w : Vector Weight 511
  t : Vector TieSum 511
  l : Vector NodeId 255
  r : Vector NodeId 255
  inq : Vector Bool 511
  k : Nat
deriving DecidableEq, Repr

/-- `NODE_W[n]` of the build. -/
def Build.weight (b : Build) (n : Nat) : Weight := b.w[n]?.getD 0#40

/-- `NODE_T[n]` of the build. -/
def Build.tie (b : Build) (n : Nat) : TieSum := b.t[n]?.getD 0#16

/-- `key(n) = NODE_W[n] * K + NODE_T[n]` (42_tree_builder.md R141), exact. -/
def Build.key (b : Build) (n : Nat) : Nat := (b.weight n).toNat * keyK + (b.tie n).toNat

/-- `before(m, n)`: the lower key, or the lower node id on equal keys (42_tree_builder.md R143). -/
def Build.before (b : Build) (m n : Nat) : Bool :=
  decide (b.key m < b.key n) || (decide (b.key m = b.key n) && decide (m < n))

/-- The entries of the queue: the ids `n` with INQ[n] = 1 (10_state.md R31). -/
def Build.queue (b : Build) : List Nat := setIds 0 b.inq.toList

/-- The entry that is `before` every other of a list (00_scope.md section 7, "Pop"). -/
def Build.least (b : Build) (ids : List Nat) : Option Nat :=
  match ids with
  | [] => none
  | n :: rest =>
    match b.least rest with
    | none => some n
    | some m => if b.before m n then some m else some n

/-- `INQ[n] <- 0`. -/
def Build.remove (b : Build) (n : Nat) : Build := { b with inq := b.inq.setIfInBounds n false }

/-- `Pop()` (42_tree_builder.md R144): the least entry under `before`, and the build without it; none where no bit of
INQ is set. -/
def Build.pop (b : Build) : Option (Nat × Build) :=
  match b.least b.queue with
  | none => none
  | some n => some (n, b.remove n)

/-- Merge of the popped entries `a` (first, right child) and `c` (second, left child) into node `256 + k`
(42_tree_builder.md R145). -/
def Build.join (b : Build) (a c : Nat) : Build :=
  let m := 256 + b.k
  { w := b.w.setIfInBounds m (b.weight a + b.weight c)
    t := b.t.setIfInBounds m (b.tie a + b.tie c)
    r := b.r.setIfInBounds b.k (BitVec.ofNat 9 a)
    l := b.l.setIfInBounds b.k (BitVec.ofNat 9 c)
    inq := b.inq.setIfInBounds m true
    k := b.k + 1 }

/-- One pass of the loop of 42_tree_builder.md R145: two Pops and a merge. With fewer than two entries there is no
pass, and the build stays. -/
def Build.mergeTwo (b : Build) : Build :=
  match b.pop with
  | none => b
  | some (a, b1) =>
    match b1.pop with
    | none => b
    | some (c, b2) => b2.join a c

/-- The loop of 42_tree_builder.md R145: "while (number of n with INQ[n] = 1) > 1". At most `fuel` passes; TBBUILD gives
255, and the queue starts with at most 256 entries and loses one a pass (R140, R146; log entry 7). -/
def Build.mergeAll (fuel : Nat) (b : Build) : Build :=
  match fuel with
  | 0 => b
  | f + 1 => if b.queue.length > 1 then b.mergeTwo.mergeAll f else b

/-- The seeded build: one leaf per present symbol, everything else 0 (42_tree_builder.md R145). -/
def seed (freq : Vector Word 256) : Build where
  w := padTable 511 0#40 (freq.toList.map fun f => f.setWidth 40)
  t := padTable 511 0#16 (freq.toList.zipIdx.map fun e => if e.1 = 0#32 then 0#16 else BitVec.ofNat 16 e.2)
  l := Vector.replicate 255 0#9
  r := Vector.replicate 255 0#9
  inq := padTable 511 false (freq.toList.map fun f => f != 0#32)
  k := 0

/-- The build after the loop (42_tree_builder.md R145): a function of FREQ and of nothing else (R147). -/
def merged (freq : Vector Word 256) : Build := (seed freq).mergeAll 255

/-- TBBUILD (42_tree_builder.md R145): SequenceError(0x20) without a table, UndefinedEmptyBuild(0) on an empty one
(R148), else seed, merge until one entry is left, and pop it as ROOT. -/
def tbbuildBody (s : State) : Flow :=
  if s.ftv = false then raiseFault .sequenceError 0x20#32 s
  else if s.distinct = 0#9 then raiseFault .undefinedEmptyBuild 0#32 s
  else
    match (merged s.freq).pop with
    | none => .stuck .emptyQueue
    | some (root, b) =>
      .go { s with
        nodeW := b.w, nodeT := b.t, nodeL := b.l, nodeR := b.r, inq := b.inq
        root := BitVec.ofNat 9 root, nint := BitVec.ofNat 9 b.k, trv := true, cdv := false }

/-- The meaning of TBBUILD. -/
def execTbbuild (s : State) : Host.Outcome State Fault Refusal := command tbbuildBody s

end Sys2Proof.Machine
end

