-- ==== Sys2Proof/Machine/Codec.lean ====
section
/-! DEFINITION. The encode and decode sequences (46_codec_sequences.md): the bodies of the unit commands, run in place
as one command. -/

namespace Sys2Proof.Machine

/-- ENCODE (46_codec_sequences.md R210). -/
def encodeBody (s : State) : Flow :=
  (ftcountBody s).bind fun s =>
    if s.src.length = 0 then .go { s with snk := [] }
    else (tbbuildBody s).bind fun s => (cgderiveBody s).bind fun s => (hfemitBody s).bind bppackBody

/-- The meaning of ENCODE. -/
def execEncode (s : State) : Host.Outcome State Fault Refusal := command encodeBody s

/-- DECODE (46_codec_sequences.md R212): for 0 or 1 symbols no tree is built. -/
def decodeBody (s : State) : Flow :=
  (hfparseBody s).bind fun s =>
    (if 2 ≤ s.distinct.toNat then tbbuildBody s else .go s).bind buunpackBody

/-- The meaning of DECODE. -/
def execDecode (s : State) : Host.Outcome State Fault Refusal := command decodeBody s

end Sys2Proof.Machine
end

