-- ==== Sys2Proof/Machine/Flags.lean ====
section
/-! DEFINITION. The flags: the STATUS word (10_state.md R42), the SINGLE view, and the two ways in which the validity
flags are cleared (R39). -/

namespace Sys2Proof.Machine

/-- The word with `b` as bit `i` and 0 elsewhere. -/
def bitAt (i : Nat) (b : Bool) : Word := if b then 1#32 <<< i else 0#32

/-- ERR reads 1 exactly when OPSTATE = FAULTED (10_state.md R37). -/
def State.err (s : State) : Bool := decide (s.opstate = .faulted)

/-- SINGLE is not stored: FTV = 1 and DISTINCT = 1 (10_state.md R42). -/
def State.single (s : State) : Bool := s.ftv && decide (s.distinct = 1#9)

/-- STATUS (10_state.md R42): ERR, EMPTY, FTV, TRV, CDV, HPV, SINGLE in bits 0 to 6; the others read 0, BUSY in bit 31
among them (70_reset_and_hazards.md R258). -/
def State.status (s : State) : Word :=
  bitAt 0 s.err ||| bitAt 1 s.empty ||| bitAt 2 s.ftv ||| bitAt 3 s.trv ||| bitAt 4 s.cdv ||| bitAt 5 s.hpv |||
    bitAt 6 s.single

/-- "FTV, TRV, CDV, HPV, EMPTY <- 0": any change of SRC invalidates everything derived (10_state.md R39, R56, R112). -/
def clearValidity (s : State) : State :=
  { s with ftv := false, trv := false, cdv := false, hpv := false, empty := false }

end Sys2Proof.Machine
end

