-- ==== Sys2Proof/Machine/Control.lean ====
section
/-! DEFINITION. The control commands NOP, SRST, SRCCLR, SNKCLR (40_control_ops.md). -/

namespace Sys2Proof.Machine

/-- NOP (40_control_ops.md R110): nothing. -/
def nopBody (s : State) : Flow := .go s

/-- SRCCLR (40_control_ops.md R112): SRC empty, SRC_POS 0, the validity flags and EMPTY 0; tables and SNK stay. -/
def srcclrBody (s : State) : Flow := .go (clearValidity { s with src := [], srcPos := 0#32 })

/-- SNKCLR (40_control_ops.md R113): SNK empty, nothing else. -/
def snkclrBody (s : State) : Flow := .go { s with snk := [] }

/-- The meaning of NOP. -/
def execNop (s : State) : Host.Outcome State Fault Refusal := command nopBody s

/-- The meaning of SRST (40_control_ops.md R111): every piece of state at its reset value. It is the only command
accepted in FAULTED too, and the return from a fault (60_exceptions.md R228). -/
def execSrst (s : State) : Host.Outcome State Fault Refusal := .next (softReset s)

/-- The meaning of SRCCLR. -/
def execSrcclr (s : State) : Host.Outcome State Fault Refusal := command srcclrBody s

/-- The meaning of SNKCLR. -/
def execSnkclr (s : State) : Host.Outcome State Fault Refusal := command snkclrBody s

end Sys2Proof.Machine
end

