-- ==== Sys2Proof/Machine/Dispatch.lean ====
section
/-! DEFINITION. The dispatch of a decoded command to its meaning (30_encoding.md R81, R82). -/

namespace Sys2Proof.Machine

def exec (i : Instr) (s : State) : Host.Outcome State Fault Refusal :=
  match i with
  | .nop => Sys2Proof.Machine.execNop s
  | .srst => Sys2Proof.Machine.execSrst s
  | .srcclr => Sys2Proof.Machine.execSrcclr s
  | .snkclr => Sys2Proof.Machine.execSnkclr s
  | .ftcount => Sys2Proof.Machine.execFtcount s
  | .tbbuild => Sys2Proof.Machine.execTbbuild s
  | .cgderive => Sys2Proof.Machine.execCgderive s
  | .hfemit => Sys2Proof.Machine.execHfemit s
  | .hfparse => Sys2Proof.Machine.execHfparse s
  | .bppack => Sys2Proof.Machine.execBppack s
  | .buunpack => Sys2Proof.Machine.execBuunpack s
  | .encode => Sys2Proof.Machine.execEncode s
  | .decode => Sys2Proof.Machine.execDecode s

end Sys2Proof.Machine
end

