-- ==== Sys2Proof/WellFormed.lean ====
section
/-! DEFINITION. The well-formedness checks. A command has no operand and no immediate (30_encoding.md R80, R84), so
every term of `Instr` is well formed. What can be ill formed is a platform access: the port cannot express one that is
narrow, misaligned or outside the register space (20_memory.md R68). -/

namespace Sys2Proof

/-- A command names only an opcode of 30_encoding.md R82; there is no field to check (R84). -/
def Instr.wf (i : Instr) : Bool :=
  match i with
  | .nop => true
  | .srst => true
  | .srcclr => true
  | .snkclr => true
  | .ftcount => true
  | .tbbuild => true
  | .cgderive => true
  | .hfemit => true
  | .hfparse => true
  | .bppack => true
  | .buunpack => true
  | .encode => true
  | .decode => true

/-- The accesses the host port can express (20_memory.md R68): 32 bits wide, at an offset from HUFF_BASE that is a
multiple of 4 and at most 0x7C. -/
def Access.wf (base : Nat) (a : Access) : Bool :=
  decide (a.bits = 32) && decide (base ≤ a.addr) && decide ((a.addr - base) % 4 = 0) &&
    decide (a.addr - base ≤ 0x7C)

end Sys2Proof
end

