-- ==== Sys2Proof/Decode.lean ====
section
/-! DEFINITION. The decoder of the command word and its encoder (30_encoding.md R80 to R83), and the register index of
the host map (10_state.md R40, 20_memory.md R68). The block fetches nothing (10_state.md R38): the word arrives on the
port whole, so no byte order is involved. -/

namespace Sys2Proof

/-- Why a word written to CMD is no command (30_encoding.md R83). -/
inductive DecodeReject where
  /-- bits [31:8] are not all 0 -/
  | reservedBits
  /-- bits [7:0] are none of the thirteen opcodes -/
  | undefinedOpcode
deriving DecidableEq, Repr

/-- RSV, bits 31:8 of the command word (30_encoding.md R80). -/
def rsvField (d : Word) : BitVec 24 := d.extractLsb' 8 24

/-- OPC, bits 7:0 of the command word (30_encoding.md R80). -/
def opcField (d : Word) : Byte := d.extractLsb' 0 8

/-- The opcode map of 30_encoding.md R82, read from the opcode. -/
def ofOpcode (opc : Byte) : Option Instr :=
  match opc.toNat with
  | 0x00 => some .nop
  | 0x01 => some .srst
  | 0x02 => some .srcclr
  | 0x03 => some .snkclr
  | 0x10 => some .ftcount
  | 0x20 => some .tbbuild
  | 0x30 => some .cgderive
  | 0x40 => some .hfemit
  | 0x41 => some .hfparse
  | 0x50 => some .bppack
  | 0x51 => some .buunpack
  | 0x60 => some .encode
  | 0x61 => some .decode
  | _ => none

/-- The command a 32-bit word stands for, or why it stands for none (30_encoding.md R81, R83). Total on every word. -/
def decodeWord (d : Word) : Except DecodeReject Instr :=
  if rsvField d = 0#24 then
    match ofOpcode (opcField d) with
    | some i => .ok i
    | none => .error .undefinedOpcode
  else .error .reservedBits

/-- The opcode of a command (30_encoding.md R82). -/
def opcode (i : Instr) : Byte :=
  match i with
  | .nop => 0x00#8
  | .srst => 0x01#8
  | .srcclr => 0x02#8
  | .snkclr => 0x03#8
  | .ftcount => 0x10#8
  | .tbbuild => 0x20#8
  | .cgderive => 0x30#8
  | .hfemit => 0x40#8
  | .hfparse => 0x41#8
  | .bppack => 0x50#8
  | .buunpack => 0x51#8
  | .encode => 0x60#8
  | .decode => 0x61#8

/-- The word the host writes to CMD to run a command: "match equal to the opcode zero-extended" (30_encoding.md R82). -/
def encode (i : Instr) : Word := (opcode i).setWidth 32

/-- The 32-bit word that the low `nbits` bits of `w` make on the port. -/
def tableWord (nbits w : Nat) : Word := BitVec.ofNat 32 (w % 2 ^ nbits)

/-- The instruction the decoder reads from the row's bits (numbered as the opcode table numbers them; a row has 32
bits). -/
def decodeTableWord (nbits w : Nat) : Option Instr :=
  if nbits ≤ 32 then
    match decodeWord (tableWord nbits w) with
    | .ok i => some i
    | .error _ => none
  else none

/-- The register at a port index: byte offset `4 * index` of the map of 10_state.md R40. -/
def Reg.ofIndex (r : RegIndex) : Reg :=
  match r.toNat with
  | 0 => .cmd
  | 1 => .status
  | 2 => .cause
  | 3 => .einfo
  | 4 => .total
  | 5 => .distinct
  | 6 => .root
  | 7 => .nint
  | 8 => .sel
  | 9 => .freqD
  | 10 => .nodeWlo
  | 11 => .nodeWhi
  | 12 => .nodeTb
  | 13 => .nodeCh
  | 14 => .codeLenD
  | 15 => .reserved3C
  | 16 => .codeB 0
  | 17 => .codeB 1
  | 18 => .codeB 2
  | 19 => .codeB 3
  | 20 => .codeB 4
  | 21 => .codeB 5
  | 22 => .codeB 6
  | 23 => .codeB 7
  | 24 => .srcPush
  | 25 => .srcLen
  | 26 => .srcPos
  | 27 => .snkLen
  | 28 => .snkAddr
  | 29 => .snkData
  | 30 => .reserved78
  | _ => .reserved7C

/-- The byte offset of a register (10_state.md R40). -/
def Reg.offset (r : Reg) : Nat :=
  match r with
  | .cmd => 0x00
  | .status => 0x04
  | .cause => 0x08
  | .einfo => 0x0C
  | .total => 0x10
  | .distinct => 0x14
  | .root => 0x18
  | .nint => 0x1C
  | .sel => 0x20
  | .freqD => 0x24
  | .nodeWlo => 0x28
  | .nodeWhi => 0x2C
  | .nodeTb => 0x30
  | .nodeCh => 0x34
  | .codeLenD => 0x38
  | .reserved3C => 0x3C
  | .codeB j => 0x40 + 4 * j.val
  | .srcPush => 0x60
  | .srcLen => 0x64
  | .srcPos => 0x68
  | .snkLen => 0x6C
  | .snkAddr => 0x70
  | .snkData => 0x74
  | .reserved78 => 0x78
  | .reserved7C => 0x7C

/-- The port index of a register: the byte offset divided by 4 (20_memory.md R68). -/
def Reg.index (r : Reg) : RegIndex := BitVec.ofNat 5 (r.offset / 4)

/-- What a platform bridge at HUFF_BASE = `base` forwards to the port: the action of a well-formed access, and nothing
for one the port cannot express (20_memory.md R68, R74). -/
def Access.forward (base : Nat) (a : Access) : Option HostAction :=
  if a.wf base then
    let r : RegIndex := BitVec.ofNat 5 ((a.addr - base) / 4)
    some (if a.store then .write r a.data else .read r)
  else none

/-- The host actions of one program line (30_encoding.md R85). `snkLen` is the value that DRAIN's read of SNK_LEN
gives; the other forms do not use it. -/
def HostLine.actions (snkLen : Nat) (l : HostLine) : List HostAction :=
  match l with
  | .cmd i => [.write Reg.cmd.index (encode i)]
  | .wr r v => [.write r.index v]
  | .rd r => [.read r.index]
  | .push bs => bs.map fun b => .write Reg.srcPush.index (b.setWidth 32)
  | .pushN b n => List.replicate n (.write Reg.srcPush.index (b.setWidth 32))
  | .drain =>
    .read Reg.snkLen.index ::
      (List.range snkLen).flatMap fun i =>
        [.write Reg.snkAddr.index (BitVec.ofNat 32 i), .read Reg.snkData.index]

end Sys2Proof
end

