-- ==== Sys2Proof/Machine/Operands.lean ====
section
/-! DEFINITION. The operands. A command has none in its word (30_encoding.md R84): its operands are state. What is
addressed from outside are the host registers (10_state.md section 3), read and written here, all but the write of CMD,
which runs a command (Port.lean). -/

namespace Sys2Proof.Machine

/-- CAUSE (10_state.md R43): the code in bits [7:0], 0 where there is no fault. -/
def State.causeWord (s : State) : Word :=
  match s.cause with
  | none => 0#32
  | some c => c.code.setWidth 32

/-- The symbol the FREQ and CODE windows show: SEL[7:0], bit 8 ignored (10_state.md R49). -/
def State.selSymbol (s : State) : Byte := s.sel.setWidth 8

/-- USED of NODE_CH (10_state.md R53): TRV = 1 and node `n` belongs to the current tree. -/
def State.nodeUsed (s : State) (n : NodeId) : Bool :=
  s.trv &&
    ((decide (n.toNat < 256) && present s.freq (n.setWidth 8)) ||
      (decide (256 ≤ n.toNat) && decide (n.toNat < 256 + s.nint.toNat)))

/-- NODE_CH (10_state.md R53): NODE_L in bits [8:0], NODE_R in bits [24:16], USED in bit 30, LEAF in bit 31. -/
def State.nodeChWord (s : State) : Word :=
  (childAt s.nodeL s.sel).setWidth 32 ||| (childAt s.nodeR s.sel).setWidth 32 <<< 16 |||
    bitAt 30 (s.nodeUsed s.sel) ||| bitAt 31 (decide (s.sel.toNat < 256))

/-- CODE_LEN_D (10_state.md R54): CODE_LEN in bits [7:0], HAS in bit 31. -/
def State.codeLenWord (s : State) : Word :=
  (s.codeLen[s.selSymbol.toNat]'(s.selSymbol.isLt)).setWidth 32 |||
    bitAt 31 (s.cdv && present s.freq s.selSymbol)

/-- CODE_Bj (10_state.md R55): `CODE_BITS[SEL[7:0]][255 - 32j : 224 - 32j]`. -/
def State.codeBWord (s : State) (j : Fin 8) : Word :=
  (s.codeBits[s.selSymbol.toNat]'(s.selSymbol.isLt)).extractLsb' (224 - 32 * j.val) 32

/-- SNK_DATA (10_state.md R57): `SNK[SNK_ADDR]` when SNK_ADDR < SNK_LEN, else 0. -/
def State.snkDataWord (s : State) : Word :=
  match s.snk.read s.snkAddr.toNat with
  | some b => b.setWidth 32
  | none => 0#32

/-- The value a register reads as (10_state.md R41 to R58). A read has no effect (20_memory.md R69). -/
def readReg (r : Reg) (s : State) : Word :=
  match r with
  | .cmd => 0#32
  | .status => s.status
  | .cause => s.causeWord
  | .einfo => s.einfo
  | .total => s.total
  | .distinct => s.distinct.setWidth 32
  | .root => s.root.setWidth 32
  | .nint => s.nint.setWidth 32
  | .sel => s.sel.setWidth 32
  | .freqD => freqAt s.freq s.selSymbol
  | .nodeWlo => (nodeAt s.nodeW s.sel).extractLsb' 0 32
  | .nodeWhi => ((nodeAt s.nodeW s.sel).extractLsb' 32 8).setWidth 32
  | .nodeTb => (nodeAt s.nodeT s.sel).setWidth 32
  | .nodeCh => s.nodeChWord
  | .codeLenD => s.codeLenWord
  | .codeB j => s.codeBWord j
  | .srcPush => 0#32
  | .srcLen => s.srcLen
  | .srcPos => s.srcPos
  | .snkLen => s.snkLen
  | .snkAddr => s.snkAddr
  | .snkData => s.snkDataWord
  | .reserved3C => 0#32
  | .reserved78 => 0#32
  | .reserved7C => 0#32

/-- A write of SRC_PUSH (10_state.md R56): append `data[7:0]` to SRC and clear the validity flags, or raise
SrcOverflow(SRC_LEN) when SRC is full; ignored in FAULTED. -/
def srcPush (d : Word) (s : State) : State :=
  match s.opstate with
  | .faulted => s
  | .idle =>
    if s.srcLen = s.cfg.srcCap then enterFault .srcOverflow s.srcLen s
    else clearValidity { s with src := s.src.append (d.setWidth 8) }

/-- A write of a register other than CMD: SRC_PUSH, SEL (bits [31:9] not stored) and SNK_ADDR (stored whole) have an
effect; a write of a read-only or a reserved register is ignored (10_state.md R49, R56 to R58). -/
def writeReg (r : Reg) (d : Word) (s : State) : State :=
  match r with
  | .srcPush => srcPush d s
  | .sel => { s with sel := d.setWidth 9 }
  | .snkAddr => { s with snkAddr := d }
  | .cmd => s
  | .status => s
  | .cause => s
  | .einfo => s
  | .total => s
  | .distinct => s
  | .root => s
  | .nint => s
  | .freqD => s
  | .nodeWlo => s
  | .nodeWhi => s
  | .nodeTb => s
  | .nodeCh => s
  | .codeLenD => s
  | .codeB _ => s
  | .srcLen => s
  | .srcPos => s
  | .snkLen => s
  | .snkData => s
  | .reserved3C => s
  | .reserved78 => s
  | .reserved7C => s

end Sys2Proof.Machine
end

