-- ==== Sys2Proof/Machine/Port.lean ====
section
/-! DEFINITION. The host port (20_memory.md R68 to R70): a write of CMD, and one host action. -/

namespace Sys2Proof.Machine

/-- A write of the word `d` to CMD (30_encoding.md R81): in FAULTED only the exact word 0x00000001 runs SRST, and any
other word is refused with no effect; in IDLE the command of the word runs, or IllegalCommand(d) is raised. -/
def writeCommand (d : Word) (s : State) : Host.Outcome State Fault Refusal :=
  match s.opstate with
  | .faulted => if d = 0x00000001#32 then exec .srst s else .next s
  | .idle =>
    match decodeWord d with
    | .ok i => exec i s
    | .error _ => (raiseFault .illegalCommand d s).outcome

/-- One host action (00_scope.md R5): a read puts the register's value on the port and changes nothing else; a write of
CMD runs a command to completion; another write is a register write; a hardware reset puts every piece of state at its
reset value (70_reset_and_hazards.md R250, R251). -/
def hostAction (a : HostAction) (s : State) : Host.Outcome State Fault Refusal :=
  match a with
  | .read r => .next { s with rdata := readReg (Reg.ofIndex r) s }
  | .write r d => if Reg.ofIndex r = .cmd then writeCommand d s else .next (writeReg (Reg.ofIndex r) d s)
  | .hardReset => .next (softReset s)

end Sys2Proof.Machine
end

