-- ==== Sys2Proof/Machine/Step.lean ====
section
/-! DEFINITION. One step of the machine: the oldest pending action of the host (20_memory.md R70). -/

namespace Sys2Proof.Machine

/-- One step: the oldest host action still to come is done; with none pending the block waits, and nothing changes
(70_reset_and_hazards.md R251: "after reset the block waits for the host"). -/
def step (s : State) : Host.Outcome State Fault Refusal :=
  match s.pending with
  | [] => .next s
  | a :: rest => hostAction a { s with pending := rest }

/-- `s` with the command word of an opcode-table row as the host's next action: a write of it to CMD (log entry 1). -/
def State.withFetchWord (s : State) (nbits w : Nat) : State :=
  { s with pending := .write Reg.cmd.index (tableWord nbits w) :: s.pending }

end Sys2Proof.Machine
end

