-- ==== Sys2Proof/Safety.lean ====
section
/-! DEFINITION. What the statements speak of beside the machine: the byte strings of the spec's formats (30_encoding.md,
44_bit_io.md R173), the tree and its paths (42_tree_builder.md, 43_code_table.md), and the invariant of every state a run
reaches (10_state.md R39 and the rules named below). -/

namespace Sys2Proof.Machine

/-! ### Byte and bit strings -/

/-- The bits of a byte, bit 7 first (20_memory.md R65). -/
def byteBits (b : Byte) : List Bool :=
  [b.getLsbD 7, b.getLsbD 6, b.getLsbD 5, b.getLsbD 4, b.getLsbD 3, b.getLsbD 2, b.getLsbD 1, b.getLsbD 0]

/-- The bit string of a byte sequence (20_memory.md R65). -/
def bitString (bs : List Byte) : List Bool := bs.flatMap byteBits

/-- Byte `j` of a packed bit string: bit `7 - i` is the bit `q[8j + i]` where there is one, else 0 (44_bit_io.md R173). -/
def packedByte (q : List Bool) (j : Nat) : Byte :=
  BitVec.ofBoolListBE
    [q.getD (8 * j) false, q.getD (8 * j + 1) false, q.getD (8 * j + 2) false, q.getD (8 * j + 3) false,
      q.getD (8 * j + 4) false, q.getD (8 * j + 5) false, q.getD (8 * j + 6) false, q.getD (8 * j + 7) false]

/-- `pack(q)`: the `ceil(len(q) / 8)` bytes of a bit string (44_bit_io.md R173). -/
def pack (q : List Bool) : List Byte := (List.range ((q.length + 7) / 8)).map (packedByte q)

/-- The bytes of (symbol, frequency) pairs in the order given (30_encoding.md R90, R93). -/
def pairBytes (pairs : List (Byte × Word)) : List Byte := pairs.flatMap fun p => p.1 :: be32Bytes p.2

/-- The (symbol, frequency) pairs of a table, in ascending symbol order (30_encoding.md R93). -/
def tablePairs (t : Vector Word 256) : List (Byte × Word) := (presentSymbols t).map fun b => (b, freqAt t b)

/-- A frame header: the two counts, then the pairs (30_encoding.md R90). -/
def headerBytes (total : Word) (pairs : List (Byte × Word)) : List Byte :=
  be32Bytes total ++ be32Bytes (BitVec.ofNat 32 pairs.length) ++ pairBytes pairs

/-- The bit string of the data `bs`: the codes of its bytes, one after another (30_encoding.md R96). -/
def codeString (len : Vector (BitVec 8) 256) (bits : Vector CodeWord 256) (bs : List Byte) : List Bool :=
  bs.flatMap (codeOf len bits)

/-- The pairs of a header can be those of a table: no symbol twice, no frequency 0, at most 256 of them
(45_header_framer.md R196, R198, R199). -/
def pairsOk (pairs : List (Byte × Word)) : Prop :=
  (pairs.map Prod.fst).Nodup ∧ (∀ p ∈ pairs, p.2 ≠ 0#32) ∧ pairs.length ≤ 256

/-- The count a list of pairs gives a symbol, 0 where it has none. -/
def pairCount (pairs : List (Byte × Word)) (x : Byte) : Word :=
  match pairs.find? fun p => p.1 == x with
  | some p => p.2
  | none => 0#32

/-! ### The tree and its paths -/

/-- Follow a bit string from a node: to the left child on 0, to the right child on 1 (43_code_table.md R160). -/
def follow (l r : Vector NodeId 255) (n : NodeId) (p : List Bool) : NodeId :=
  match p with
  | [] => n
  | b :: rest => follow l r (if b then childAt r n else childAt l n) rest

/-- `p` is the path of leaf `x` from `n`: it ends at `x`, and every node before the end is internal (43_code_table.md
R160). -/
def isPath (l r : Vector NodeId 255) (n : NodeId) (p : List Bool) (x : Byte) : Prop :=
  follow l r n p = x.setWidth 9 ∧ ∀ q, q <+: p → q ≠ p → 256 ≤ (follow l r n q).toNat

/-- Node `n` is in use after `k` merges: a leaf of a present symbol, or one of the internal nodes 256 .. 255 + k. -/
def inUse (freq : Vector Word 256) (k n : Nat) : Prop :=
  (n < 256 ∧ present freq (BitVec.ofNat 8 n) = true) ∨ (256 ≤ n ∧ n < 256 + k)

/-- Node `n` is the child of internal node `m`. -/
def isChild (l r : Vector NodeId 255) (n m : Nat) : Prop :=
  (childAt l (BitVec.ofNat 9 m)).toNat = n ∨ (childAt r (BitVec.ofNat 9 m)).toNat = n

/-- Node `n` is in the build queue after `k` merges (42_tree_builder.md R145): it is in use, and no merge before took
it out. -/
def queued (freq : Vector Word 256) (l r : Vector NodeId 255) (k n : Nat) : Prop :=
  inUse freq k n ∧ ∀ m, 256 ≤ m → m < 256 + k → ¬ isChild l r n m

/-- `before(m, n)` in the spec's own words: `key(m) < key(n) or (key(m) = key(n) and m < n)` with
`key(n) = NODE_W[n] * 2^40 + NODE_T[n]` (42_tree_builder.md R141, R143). -/
def nodeBefore (w : Vector Weight 511) (t : Vector TieSum 511) (m n : NodeId) : Prop :=
  let key (n : NodeId) : Nat := (nodeAt w n).toNat * 2 ^ 40 + (nodeAt t n).toNat
  key m < key n ∨ (key m = key n ∧ m.toNat < n.toNat)

/-- Merge number `j`, read off the finished tables (42_tree_builder.md R145): the right child is the least queued node,
the left child the least of the others, and weight and tie-break sum of node 256 + j are the sums of theirs. -/
def passLaw (freq : Vector Word 256) (w : Vector Weight 511) (t : Vector TieSum 511) (l r : Vector NodeId 255)
    (j : Nat) : Prop :=
  let m : NodeId := BitVec.ofNat 9 (256 + j)
  let a := childAt r m
  let c := childAt l m
  queued freq l r j a.toNat ∧ queued freq l r j c.toNat ∧ a ≠ c ∧
    (∀ n : NodeId, queued freq l r j n.toNat → n ≠ a → nodeBefore w t a n) ∧
    (∀ n : NodeId, queued freq l r j n.toNat → n ≠ a → n ≠ c → nodeBefore w t c n) ∧
    (nodeAt w m).toNat = (nodeAt w a).toNat + (nodeAt w c).toNat ∧
    (nodeAt t m).toNat = (nodeAt t a).toNat + (nodeAt t c).toNat

/-- The node table that `k` merges of 42_tree_builder.md R145 make from FREQ: the leaves, the merges, and 0 in every
entry that belongs to no node in use. -/
structure TreeLaw (freq : Vector Word 256) (k : Nat) (w : Vector Weight 511) (t : Vector TieSum 511)
    (l r : Vector NodeId 255) : Prop where
  leafWeight : ∀ x : Byte, nodeAt w (x.setWidth 9) = (freqAt freq x).setWidth 40
  leafTie : ∀ x : Byte, nodeAt t (x.setWidth 9) = if present freq x then x.setWidth 16 else 0#16
  pass : ∀ j < k, passLaw freq w t l r j
  unused : ∀ n : NodeId, 256 + k ≤ n.toNat → nodeAt w n = 0#40 ∧ nodeAt t n = 0#16 ∧ childAt l n = 0#9 ∧
    childAt r n = 0#9

/-! ### Host programs and the states they meet -/

/-- The host action of the program form `CMD <mnemonic>` (30_encoding.md R85). -/
def commandAction (i : Instr) : HostAction := .write Reg.cmd.index (encode i)

/-- The host actions `as`, one after another (20_memory.md R70); a stop of the model ends the run. -/
def runActions (as : List HostAction) (s : State) : Host.Outcome State Fault Refusal :=
  match as with
  | [] => .next s
  | a :: rest =>
    match hostAction a s with
    | .next t => runActions rest t
    | .fault r => .fault r
    | .refused r => .refused r

/-- Every piece of state of the table of 10_state.md R59 has its reset value there. -/
def AtReset (t : State) : Prop :=
  t.freq = Vector.replicate 256 0#32 ∧ t.total = 0#32 ∧ t.distinct = 0#9 ∧
    t.nodeW = Vector.replicate 511 0#40 ∧ t.nodeT = Vector.replicate 511 0#16 ∧
    t.nodeL = Vector.replicate 255 0#9 ∧ t.nodeR = Vector.replicate 255 0#9 ∧ t.root = 0#9 ∧ t.nint = 0#9 ∧
    t.codeLen = Vector.replicate 256 0#8 ∧ t.codeBits = Vector.replicate 256 0#256 ∧
    t.inq = Vector.replicate 511 false ∧ t.bpAcc = 0#8 ∧ t.bpN = 0#3 ∧ t.buCur = 0#8 ∧ t.buN = 0#4 ∧
    t.walk = 0#9 ∧ t.emit = 0#32 ∧ t.src = [] ∧ t.srcPos = 0#32 ∧ t.snk = [] ∧ t.opstate = .idle ∧
    t.ftv = false ∧ t.trv = false ∧ t.cdv = false ∧ t.hpv = false ∧ t.empty = false ∧ t.cause = none ∧
    t.einfo = 0#32 ∧ t.sel = 0#9 ∧ t.snkAddr = 0#32

/-- A validity flag that the command needs is 0: the complete list of 60_exceptions.md R223. -/
def lacksTable (i : Instr) (s : State) : Prop :=
  match i with
  | .tbbuild => s.ftv = false
  | .cgderive => s.trv = false
  | .hfemit => s.ftv = false
  | .bppack => s.cdv = false
  | .buunpack => s.hpv = false ∨ (2 ≤ s.distinct.toNat ∧ s.trv = false)
  | .nop => False
  | .srst => False
  | .srcclr => False
  | .snkclr => False
  | .ftcount => False
  | .hfparse => False
  | .encode => False
  | .decode => False

/-- The number of present symbols, counted over "s in 0 .. 255" (41_frequency_table.md R130). -/
def distinctOf (t : Vector Word 256) : Nat := (List.range 256).countP fun n => freqAt t (BitVec.ofNat 8 n) != 0#32

/-- The sum of `g s` over all symbols. -/
def sumSymbols (g : Byte → Nat) : Nat := ((List.range 256).map fun n => g (BitVec.ofNat 8 n)).sum

/-! ### The invariant -/

/-- CAUSE and EINFO are 0 in IDLE (10_state.md R43, R44); in FAULTED the whole state is that of fault entry
(60_exceptions.md R226). -/
def faultShape (s : State) : Bool :=
  match s.cause with
  | none => decide (s.opstate = .idle ∧ s.einfo = 0#32)
  | some c => decide (s = enterFault c s.einfo s)

/-- The node table, ROOT and NINT are the tree that TBBUILD builds from FREQ (10_state.md R39, TRV). -/
def treeCurrent (s : State) : Bool :=
  match (merged s.freq).pop with
  | none => false
  | some (root, b) =>
    decide (s.nodeW = b.w ∧ s.nodeT = b.t ∧ s.nodeL = b.l ∧ s.nodeR = b.r ∧
      s.root = BitVec.ofNat 9 root ∧ s.nint = BitVec.ofNat 9 b.k)

/-- FREQ, TOTAL and DISTINCT are what the header at the start of the present SRC says (10_state.md R39, HPV). -/
def headerCurrent (s : State) : Bool :=
  match hfparseBody s with
  | .go t => decide (t.freq = s.freq ∧ t.total = s.total ∧ t.distinct = s.distinct)
  | .raised _ => false
  | .stuck _ => false

/-- The invariant of every state a run reaches. The fields `cdvTrv` to `packer` are those of 10_state.md R39; the others
name their rules. -/
structure Inv (s : State) : Prop where
  /-- the capacities are in range (00_scope.md R6) -/
  cfg : s.cfg.wf = true
  /-- SRC is canonical (10_state.md R35) -/
  src : s.src.wf = true
  /-- SNK is canonical (10_state.md R36) -/
  snk : s.snk.wf = true
  /-- SRC_LEN ≤ SRC_CAP (10_state.md R35) -/
  srcFits : s.src.length ≤ s.cfg.srcCap.toNat
  /-- SNK_LEN ≤ SNK_CAP (10_state.md R36) -/
  snkFits : s.snk.length ≤ s.cfg.snkCap.toNat
  /-- SRC_POS ≤ SRC_LEN (10_state.md R35, R38) -/
  srcPos : s.srcPos.toNat ≤ s.src.length
  /-- OPSTATE, CAUSE and EINFO agree (10_state.md R37, R43, R44; 60_exceptions.md R226, R229) -/
  fault : faultShape s = true
  cdvTrv : s.cdv = true → s.trv = true
  trvFtv : s.trv = true → s.ftv = true
  hpvFtv : s.hpv = true → s.ftv = true
  emptyTable : s.empty = true → s.ftv = true ∧ s.total = 0#32 ∧ s.distinct = 0#9 ∧ s.src.length = 0
  distinct : s.ftv = true → s.distinct.toNat = presentCount s.freq
  noTotal : s.ftv = true → s.distinct = 0#9 → s.total = 0#32
  nint : s.trv = true → s.nint.toNat + 1 = s.distinct.toNat
  inq : s.inq = Vector.replicate 511 false
  packer : s.bpN = 0#3 ∧ s.bpAcc = 0#8
  /-- a counted table is the count of the present SRC (10_state.md R22, R39) -/
  counted : s.ftv = true → s.hpv = false → s.freq = countBytes s.src.bytes ∧ s.total = s.srcLen
  /-- a parsed table is that of the present SRC (10_state.md R39) -/
  parsed : s.hpv = true → headerCurrent s = true
  /-- the tree is that of the present FREQ (10_state.md R39, 20_memory.md R73) -/
  tree : s.trv = true → treeCurrent s = true
  /-- the code table is that of the present tree (10_state.md R39, 20_memory.md R73) -/
  codes : s.cdv = true → deriveCodes s.nodeL s.nodeR s.root = some ⟨s.codeLen, s.codeBits⟩

end Sys2Proof.Machine
end

