-- ==== Sys2Proof/Certificates/Slice0/Obligations.lean ====
section
/-! DEFINITION. The statements about the block, from the numbered rules of spec/. A statement over `hostAction` or `exec`
speaks of the block itself; one over `step`, `pending` or `rdata` speaks of the model's own port (log entries 1 and 2)
and says so. -/

open Sys2Proof Sys2Proof.Machine

/-! ### The command word and the port -/

/-- Command words written out from 30_encoding.md R80, R82, R83. -/
def Obligations.CommandWordsDecode : Prop :=
  decodeWord 0x00000000#32 = .ok .nop ∧ decodeWord 0x00000001#32 = .ok .srst ∧
    decodeWord 0x00000010#32 = .ok .ftcount ∧ decodeWord 0x00000020#32 = .ok .tbbuild ∧
    decodeWord 0x00000030#32 = .ok .cgderive ∧ decodeWord 0x00000041#32 = .ok .hfparse ∧
    decodeWord 0x00000051#32 = .ok .buunpack ∧ decodeWord 0x00000060#32 = .ok .encode ∧
    decodeWord 0x00000004#32 = .error .undefinedOpcode ∧ decodeWord 0x00000160#32 = .error .reservedBits

/-- The decoder accepts exactly the words of the encoder, and says why it rejects another (30_encoding.md R80, R82, R83):
a command's word has one meaning and no bit of it is dropped. -/
def Obligations.DecodeAcceptsExactlyTheEncodings : Prop :=
  ∀ (d : Word),
    (∀ i, decodeWord d = .ok i ↔ d = encode i) ∧
    (decodeWord d = .error .reservedBits ↔ d.toNat / 256 ≠ 0) ∧
    (decodeWord d = .error .undefinedOpcode ↔ d.toNat / 256 = 0 ∧
      d.toNat ∉ [0x00, 0x01, 0x02, 0x03, 0x10, 0x20, 0x30, 0x40, 0x41, 0x50, 0x51, 0x60, 0x61])

/-- 30_encoding.md R81 (and R83): what a host write of the word `d` to CMD does, in FAULTED and in IDLE. -/
def Obligations.CommandWriteDispatch : Prop :=
  ∀ (s : State) (d : Word),
    (s.opstate = .faulted →
      hostAction (.write Reg.cmd.index d) s = if d = 0x00000001#32 then exec .srst s else .next s) ∧
    (s.opstate = .idle → (d.extractLsb' 8 24 ≠ 0#24 ∨ ∀ i, d.extractLsb' 0 8 ≠ opcode i) →
      hostAction (.write Reg.cmd.index d) s = .next (enterFault .illegalCommand d s)) ∧
    (s.opstate = .idle → ∀ i, d.extractLsb' 8 24 = 0#24 → d.extractLsb' 0 8 = opcode i →
      hostAction (.write Reg.cmd.index d) s = exec i s)

/-- A step does the oldest host action, and with none to do the block waits; with a command word at the head it is `exec`
of the decoded command, and the word that `withFetchWord` places is the one the next step runs. The queue of actions is
the model's choice (log entry 1). -/
def Obligations.StepRunsTheDecodedCommand : Prop :=
  (∀ (s : State), s.pending = [] → step s = .next s) ∧
  (∀ (s : State) (a : HostAction) (rest : List HostAction), s.pending = a :: rest →
    step s = hostAction a { s with pending := rest }) ∧
  (∀ (s : State) (d : Word) (rest : List HostAction) (i : Instr),
    s.pending = .write Reg.cmd.index d :: rest → decodeWord d = .ok i → step s = exec i { s with pending := rest }) ∧
  (∀ (s : State) (w : Nat) (i : Instr), decodeTableWord 32 w = some i → step (s.withFetchWord 32 w) = exec i s)

/-- 10_state.md R40 and 20_memory.md R68: the 32 registers, their offsets, and the port index of each (offset divided by
4); a bridge forwards an access exactly when it is 32 bits wide, aligned and inside the register space, and then as the
action with index `offset / 4`. -/
def Obligations.RegisterMapAndPort : Prop :=
  (∀ r : Reg, Reg.ofIndex r.index = r ∧ r.offset = 4 * r.index.toNat) ∧
  (∀ k : RegIndex, (Reg.ofIndex k).index = k) ∧
  [Reg.cmd, .status, .cause, .einfo, .total, .distinct, .root, .nint, .sel, .freqD, .nodeWlo, .nodeWhi, .nodeTb,
      .nodeCh, .codeLenD, .reserved3C, .srcPush, .srcLen, .srcPos, .snkLen, .snkAddr, .snkData, .reserved78,
      .reserved7C].map Reg.offset =
    [0x00, 0x04, 0x08, 0x0C, 0x10, 0x14, 0x18, 0x1C, 0x20, 0x24, 0x28, 0x2C, 0x30, 0x34, 0x38, 0x3C, 0x60, 0x64, 0x68,
      0x6C, 0x70, 0x74, 0x78, 0x7C] ∧
  (∀ j : Fin 8, (Reg.codeB j).offset = 0x40 + 4 * j.val) ∧
  ∀ (base : Nat) (a : Access),
    (∀ k < 32, a.bits = 32 → a.addr = base + 4 * k → a.forward base =
      some (if a.store then .write (BitVec.ofNat 5 k) a.data else .read (BitVec.ofNat 5 k))) ∧
    ((∀ k < 32, ¬ (a.bits = 32 ∧ a.addr = base + 4 * k)) → a.forward base = none)

/-! ### Host registers -/

/-- 20_memory.md R69, 10_state.md R49, R58. A host read changes no state of the block, and a second read gives the same
value (`rdata`, where the value read stands, is the model's own field, log entry 2). A write of a reserved offset or of a
read-only register is ignored, SEL stores bits 8:0, SNK_ADDR the whole word, in IDLE and in FAULTED alike. -/
def Obligations.HostAccesses : Prop :=
  ∀ (s : State) (d : Word),
    (∀ r : Reg, hostAction (.read r.index) s = .next { s with rdata := readReg r s } ∧
      readReg r { s with rdata := d } = readReg r s) ∧
    (∀ r : Reg, r ∉ [Reg.cmd, .srcPush, .sel, .snkAddr] → hostAction (.write r.index d) s = .next s) ∧
    (∃ t, hostAction (.write Reg.sel.index d) s = .next t ∧ t = { s with sel := d.extractLsb' 0 9 } ∧
      readReg .sel t = (d.extractLsb' 0 9).setWidth 32) ∧
    (∃ t, hostAction (.write Reg.snkAddr.index d) s = .next t ∧ t = { s with snkAddr := d } ∧ readReg .snkAddr t = d) ∧
    readReg .reserved3C s = 0#32 ∧ readReg .reserved78 s = 0#32 ∧ readReg .reserved7C s = 0#32

/-- 10_state.md R42: STATUS bit by bit. -/
def Obligations.StatusBits : Prop :=
  ∀ (s : State),
    (readReg .status s).getLsbD 0 = decide (s.opstate = .faulted) ∧ (readReg .status s).getLsbD 1 = s.empty ∧
      (readReg .status s).getLsbD 2 = s.ftv ∧ (readReg .status s).getLsbD 3 = s.trv ∧
      (readReg .status s).getLsbD 4 = s.cdv ∧ (readReg .status s).getLsbD 5 = s.hpv ∧
      (readReg .status s).getLsbD 6 = (s.ftv && decide (s.distinct.toNat = 1)) ∧
      ∀ i, 7 ≤ i → (readReg .status s).getLsbD i = false

/-- 10_state.md R41, R43 to R48, R50, R57: the plain views; CAUSE by the codes of 60_exceptions.md R221; the byte that
SNK_DATA shows. -/
def Obligations.PlainRegisterViews : Prop :=
  ∀ (s : State),
    readReg .cmd s = 0#32 ∧ readReg .einfo s = s.einfo ∧ readReg .total s = s.total ∧
    (readReg .distinct s).toNat = s.distinct.toNat ∧ (readReg .root s).toNat = s.root.toNat ∧
    (readReg .nint s).toNat = s.nint.toNat ∧ readReg .freqD s = freqAt s.freq (s.sel.extractLsb' 0 8) ∧
    (s.cause = none → readReg .cause s = 0#32) ∧
    (∀ c, s.cause = some c → (c, (readReg .cause s).toNat) ∈ [(Cause.headerDistinctRange, 1), (.headerTruncated, 2),
      (.headerZeroFrequency, 3), (.headerDuplicateSymbol, 4), (.headerEmptyTable, 5), (.bitstreamUnderrun, 6),
      (.badTraversal, 7), (.illegalCommand, 8), (.sequenceError, 9), (.srcOverflow, 10), (.snkOverflow, 11),
      (.noCode, 12), (.undefinedEmptyBuild, 13)]) ∧
    readReg .snkLen s = BitVec.ofNat 32 s.snk.length ∧ readReg .snkAddr s = s.snkAddr ∧
    (s.snk.wf = true → (∀ b, s.snk.bytes[s.snkAddr.toNat]? = some b → readReg .snkData s = b.setWidth 32) ∧
      (s.snk.length ≤ s.snkAddr.toNat → readReg .snkData s = 0#32))

/-- 10_state.md R51 to R53: the node windows at SEL[8:0], node 511 (which does not exist) among them. -/
def Obligations.NodeWindows : Prop :=
  ∀ (s : State),
    (∀ h : s.sel.toNat < 511,
      (readReg .nodeWlo s).toNat + 2 ^ 32 * (readReg .nodeWhi s).toNat = (s.nodeW[s.sel.toNat]'h).toNat ∧
      (readReg .nodeTb s).toNat = (s.nodeT[s.sel.toNat]'h).toNat) ∧
    (s.sel.toNat = 511 → readReg .nodeWlo s = 0#32 ∧ readReg .nodeWhi s = 0#32 ∧ readReg .nodeTb s = 0#32) ∧
    (∀ (k : Nat) (h : k < 255), s.sel.toNat = 256 + k →
      (readReg .nodeCh s).extractLsb' 0 9 = s.nodeL[k]'h ∧
      (readReg .nodeCh s).extractLsb' 16 9 = s.nodeR[k]'h) ∧
    (s.sel.toNat < 256 ∨ s.sel.toNat = 511 →
      (readReg .nodeCh s).extractLsb' 0 9 = 0#9 ∧ (readReg .nodeCh s).extractLsb' 16 9 = 0#9) ∧
    ((readReg .nodeCh s).getLsbD 31 = decide (s.sel.toNat < 256)) ∧
    ((readReg .nodeCh s).getLsbD 30 = true ↔ s.trv = true ∧
      ((s.sel.toNat < 256 ∧ freqAt s.freq (s.sel.setWidth 8) ≠ 0#32) ∨
        (256 ≤ s.sel.toNat ∧ s.sel.toNat < 256 + s.nint.toNat))) ∧
    (readReg .nodeCh s).extractLsb' 9 7 = 0#7 ∧ (readReg .nodeCh s).extractLsb' 25 5 = 0#5

/-- 10_state.md R54, R55: the code windows at SEL[7:0]. -/
def Obligations.CodeWindows : Prop :=
  ∀ (s : State) (x : Byte), x = s.sel.extractLsb' 0 8 →
    (readReg .codeLenD s).extractLsb' 0 8 = s.codeLen[x.toNat]'(x.isLt) ∧
    (readReg .codeLenD s).extractLsb' 8 23 = 0#23 ∧
    ((readReg .codeLenD s).getLsbD 31 = true ↔ s.cdv = true ∧ freqAt s.freq x ≠ 0#32) ∧
    ∀ (j : Fin 8) (i : Nat), i < 32 →
      (readReg (.codeB j) s).getLsbD i = (s.codeBits[x.toNat]'(x.isLt)).getLsbD (224 - 32 * j.val + i)

/-- 10_state.md R56: a write of SRC_PUSH in IDLE with room, in IDLE at SRC_CAP, and in FAULTED; the views of SRC. -/
def Obligations.SourcePush : Prop :=
  ∀ (s : State) (d : Word),
    (s.opstate = .idle → s.srcLen ≠ s.cfg.srcCap → hostAction (.write Reg.srcPush.index d) s = .next { s with
      src := s.src.append (d.extractLsb' 0 8), ftv := false, trv := false, cdv := false, hpv := false, empty := false }) ∧
    (s.opstate = .idle → s.srcLen = s.cfg.srcCap →
      hostAction (.write Reg.srcPush.index d) s = .next (enterFault .srcOverflow s.srcLen s)) ∧
    (s.opstate = .faulted → hostAction (.write Reg.srcPush.index d) s = .next s) ∧
    readReg .srcPush s = 0#32 ∧ readReg .srcLen s = BitVec.ofNat 32 s.src.length ∧ readReg .srcPos s = s.srcPos

/-- 40_control_ops.md R114: the program form PUSH loads its bytes behind those SRC holds, in order. -/
def Obligations.PushLoadsTheBytesInOrder : Prop :=
  ∀ (s : State) (bs : List Byte), s.opstate = .idle → s.src.length + bs.length ≤ s.cfg.srcCap.toNat → bs ≠ [] →
    runActions ((HostLine.push bs).actions 0) s = .next { s with
      src := s.src.appendAll bs, ftv := false, trv := false, cdv := false, hpv := false, empty := false }

/-! ### The buffers -/

/-- 20_memory.md R63 (and R61): MemWrite of one byte and of four, and its overflow; an append keeps a buffer canonical,
adds its bytes behind the others and changes none. -/
def Obligations.SinkWritesAppend : Prop :=
  (∀ (s : State) (b : Byte) (v : Word),
    (s.snk.length + 1 ≤ s.cfg.snkCap.toNat → snkAppend b s = .go { s with snk := s.snk.append b }) ∧
    (s.cfg.snkCap.toNat < s.snk.length + 1 → snkAppend b s = raiseFault .snkOverflow s.snkLen s) ∧
    (s.snk.length + 4 ≤ s.cfg.snkCap.toNat → memWrite4 v s = .go { s with
      snk := s.snk.appendAll [v.extractLsb' 24 8, v.extractLsb' 16 8, v.extractLsb' 8 8, v.extractLsb' 0 8] }) ∧
    (s.cfg.snkCap.toNat < s.snk.length + 4 → memWrite4 v s = raiseFault .snkOverflow s.snkLen s)) ∧
  (∀ (m : Memory) (b : Byte) (bs : List Byte), m.wf = true →
    m.append b = m.appendAll [b] ∧ (m.appendAll bs).wf = true ∧ (m.appendAll bs).length = m.length + bs.length ∧
    ∀ a, (m.appendAll bs).read a = if a < m.length then m.read a else bs[a - m.length]?)

/-- 20_memory.md R62, R66: reads of SRC; a u32 is big-endian and unsigned, and its bytes give it back. -/
def Obligations.BigEndianReads : Prop :=
  (∀ b0 b1 b2 b3 : Byte,
    (be32 b0 b1 b2 b3).toNat = b0.toNat * 2 ^ 24 + b1.toNat * 2 ^ 16 + b2.toNat * 2 ^ 8 + b3.toNat ∧
    be32Bytes (be32 b0 b1 b2 b3) = [b0, b1, b2, b3]) ∧
  (∀ (s : State) (pre rest : List Byte) (v : Word), s.src.wf = true → s.src.bytes = pre ++ be32Bytes v ++ rest →
    memRead4 s pre.length = some v ∧ memRead1 s pre.length = some (v.extractLsb' 24 8))

/-! ### Reset and faults -/

/-- 10_state.md R59 (40_control_ops.md R111, 70_reset_and_hazards.md R250, R251): after hardware reset and after SRST,
from IDLE and from FAULTED, every piece of state has its reset value; STATUS reads 0. -/
def Obligations.ResetValues : Prop :=
  AtReset State.reset ∧
  ∀ (s : State), ∃ t, exec .srst s = .next t ∧ hostAction .hardReset s = .next t ∧
    hostAction (.write Reg.cmd.index 0x00000001#32) s = .next t ∧ AtReset t ∧ readReg .status t = 0#32

/-- 60_exceptions.md R226: the state after `raise F(info)`, and that it ends the command. -/
def Obligations.FaultEntryState : Prop :=
  ∀ (c : Cause) (info : Word) (s : State), ∃ t, raiseFault c info s = .raised t ∧
    (∀ k, (raiseFault c info s).bind k = .raised t) ∧
    t.src = s.src ∧ t.sel = s.sel ∧ t.snkAddr = s.snkAddr ∧ t.opstate = .faulted ∧ t.cause = some c ∧
    t.einfo = info ∧ readReg .status t = 0x00000001#32 ∧
    AtReset { t with
      src := [], sel := 0#9, snkAddr := 0#32, opstate := .idle, cause := none, einfo := 0#32 }

/-- 60_exceptions.md R226: "the state after a fault is fully defined by this rule and does not depend on how far the
command had got, except through CAUSE and EINFO", for every action of the host in every IDLE state. -/
def Obligations.FaultsArePrecise : Prop :=
  ∀ (s t : State) (a : HostAction), s.opstate = .idle → hostAction a s = .next t → t.opstate = .faulted →
    ∃ c info, t = enterFault c info s

/-- 60_exceptions.md R227: in FAULTED every command but SRST, every word but 1 and every SRC_PUSH write changes
nothing. -/
def Obligations.FaultedRefusesCommands : Prop :=
  ∀ (s : State), s.opstate = .faulted →
    (∀ i, i ≠ .srst → exec i s = .next s) ∧
    (∀ d, d ≠ 0x00000001#32 → hostAction (.write Reg.cmd.index d) s = .next s) ∧
    (∀ d, hostAction (.write Reg.srcPush.index d) s = .next s) ∧
    (∀ d, hostAction (.write Reg.sel.index d) s = .next { s with sel := d.extractLsb' 0 9 }) ∧
    (∀ d, hostAction (.write Reg.snkAddr.index d) s = .next { s with snkAddr := d })

/-- 60_exceptions.md R228, R229: the only ways out of FAULTED are SRST and hardware reset, both leave the reset state,
and whatever else happens CAUSE, EINFO and SRC stay. -/
def Obligations.ReturnFromFault : Prop :=
  ∀ (s t : State) (a : HostAction), s.opstate = .faulted → hostAction a s = .next t →
    (t.opstate = .idle ↔ a = .hardReset ∨ a = .write Reg.cmd.index 0x00000001#32) ∧
    (t.opstate = .idle → AtReset t) ∧
    (t.opstate = .faulted → t.cause = s.cause ∧ t.einfo = s.einfo ∧ t.src = s.src)

/-- 60_exceptions.md R223: the complete list of the SequenceError conditions, and the state each leads to. -/
def Obligations.SequenceErrorList : Prop :=
  ∀ (i : Instr) (s : State), s.opstate = .idle →
    (lacksTable i s → exec i s = .next (enterFault .sequenceError ((opcode i).setWidth 32) s)) ∧
    (∀ t, exec i s = .next t → t.opstate = .faulted → t.cause = some .sequenceError → lacksTable i s)

/-- 60_exceptions.md R224: the faults that ENCODE and DECODE can raise, from every state of the invariant. -/
def Obligations.CodecFaults : Prop :=
  ∀ (s : State), Inv s → s.opstate = .idle →
    (∃ t, exec .encode s = .next t ∧ (t.opstate = .idle ∨ ∃ info, t = enterFault .snkOverflow info s)) ∧
    (∃ t, exec .decode s = .next t ∧ (t.opstate = .idle ∨ ∃ c info, t = enterFault c info s ∧
      c ∈ [Cause.headerDistinctRange, .headerTruncated, .headerZeroFrequency, .headerDuplicateSymbol,
        .headerEmptyTable, .bitstreamUnderrun, .snkOverflow]))

/-- 44_bit_io.md R181: BadTraversal cannot occur, whatever the bits are. -/
def Obligations.BadTraversalIsUnreachable : Prop :=
  ∀ (s t : State) (i : Instr), Inv s → s.opstate = .idle → exec i s = .next t → t.opstate = .faulted →
    t.cause ≠ some .badTraversal

/-! ### Control commands -/

/-- 40_control_ops.md R110, R112, R113. NOP does nothing, in every state. SRCCLR empties SRC and clears the flags; every
table, SNK and all else stay. SNKCLR empties SNK and changes nothing else; SNK_DATA then reads 0. -/
def Obligations.ControlCommands : Prop :=
  decodeWord 0x00000000#32 = .ok .nop ∧ decodeWord 0x00000002#32 = .ok .srcclr ∧
  decodeWord 0x00000003#32 = .ok .snkclr ∧ ∀ (s : State), exec .nop s = .next s ∧
    (s.opstate = .idle → exec .srcclr s = .next { s with
      src := [], srcPos := 0#32, ftv := false, trv := false, cdv := false, hpv := false, empty := false }) ∧
    (s.opstate = .idle → exec .snkclr s = .next { s with snk := [] }) ∧
    readReg .snkData { s with snk := [] } = 0#32

/-! ### The frequency table -/

/-- 41_frequency_table.md R130: the whole effect of FTCOUNT. -/
def Obligations.FtcountCountsTheSource : Prop :=
  decodeWord 0x00000010#32 = .ok .ftcount ∧ ∀ (s : State), s.opstate = .idle → ∃ f : Vector Word 256,
    (∀ x : Byte, freqAt f x = BitVec.ofNat 32 (s.src.bytes.count x)) ∧
    exec .ftcount s = .next { s with
      freq := f, total := s.srcLen, distinct := BitVec.ofNat 9 (distinctOf f), srcPos := 0#32
      ftv := true, trv := false, cdv := false, hpv := false, empty := decide (s.src.length = 0) }

/-- 41_frequency_table.md R131 and 10_state.md R22: in a state of the invariant no count wraps, and the counts add up to
TOTAL, the number of bytes. -/
def Obligations.FtcountNeverWraps : Prop :=
  ∀ (s : State), Inv s → s.opstate = .idle → ∃ t, exec .ftcount s = .next t ∧
    (∀ x : Byte, (freqAt t.freq x).toNat = s.src.bytes.count x) ∧ t.total.toNat = s.src.length ∧
    sumSymbols (fun x => (freqAt t.freq x).toNat) = t.total.toNat

/-- 41_frequency_table.md R133: a source of `n` equal bytes. -/
def Obligations.FtcountOfOneSymbol : Prop :=
  ∀ (s : State) (v : Byte) (n : Nat), s.opstate = .idle → s.src.bytes = List.replicate n v → 1 ≤ n → n < 2 ^ 32 →
    ∃ t, exec .ftcount s = .next t ∧ freqAt t.freq v = BitVec.ofNat 32 n ∧ t.distinct = 1#9 ∧
      readReg .status t = 0x00000044#32

/-- 41_frequency_table.md R132: the empty source. FTCOUNT leaves the empty table, on which TBBUILD faults and HFEMIT
writes nothing; ENCODE stops after FTCOUNT. -/
def Obligations.EmptySourceEncodes : Prop :=
  ∀ (s : State), s.opstate = .idle → s.src = [] → ∃ t, exec .ftcount s = .next t ∧
    t = { s with
      freq := Vector.replicate 256 0#32, total := 0#32, distinct := 0#9, srcPos := 0#32
      ftv := true, trv := false, cdv := false, hpv := false, empty := true } ∧
    readReg .status t = 0x00000006#32 ∧
    exec .tbbuild t = .next (enterFault .undefinedEmptyBuild 0#32 t) ∧
    exec .hfemit t = .next { t with snk := [] } ∧ exec .encode s = .next { t with snk := [] }

/-! ### The tree -/

/-- 42_tree_builder.md R141, R143: the key, and that `before` is the lexicographic order on weight, tie-break sum, node
id, a strict total order. -/
def Obligations.QueueOrderIsLexicographic : Prop :=
  ∀ (b : Build) (m n p : Nat),
    b.key n = (b.weight n).toNat * 2 ^ 40 + (b.tie n).toNat ∧
    (b.before m n = true ↔ b.key m < b.key n ∨ (b.key m = b.key n ∧ m < n)) ∧
    (b.before m n = true ↔ (b.weight m).toNat < (b.weight n).toNat ∨ ((b.weight m).toNat = (b.weight n).toNat ∧
      ((b.tie m).toNat < (b.tie n).toNat ∨ ((b.tie m).toNat = (b.tie n).toNat ∧ m < n)))) ∧
    b.before m m = false ∧ (b.before m n = true → b.before n p = true → b.before m p = true) ∧
    (m ≠ n → (b.before m n = true ∨ b.before n m = true))

/-- 42_tree_builder.md R144: Pop returns the one entry that is before every other, and takes out that entry only. -/
def Obligations.PopTakesTheLeastEntry : Prop :=
  ∀ (b : Build), (∃ n : Nat, b.inq[n]? = some true) → ∃ n : Nat, b.inq[n]? = some true ∧
    (∀ m : Nat, b.inq[m]? = some true → m ≠ n → b.before n m = true) ∧
    b.pop = some (n, { b with inq := b.inq.setIfInBounds n false })

/-- 42_tree_builder.md R145: TBBUILD. Its two faults; on a table that is not empty it completes with the node table that
the merges of the rule make, ROOT is the one entry left, NINT the number of merges. -/
def Obligations.TbbuildBuildsTheTree : Prop :=
  decodeWord 0x00000020#32 = .ok .tbbuild ∧ ∀ (s : State), s.opstate = .idle →
    (s.ftv = false → exec .tbbuild s = .next (enterFault .sequenceError 0x20#32 s)) ∧
    (s.ftv = true → s.distinct = 0#9 → exec .tbbuild s = .next (enterFault .undefinedEmptyBuild 0#32 s)) ∧
    (s.ftv = true → s.distinct ≠ 0#9 → s.distinct.toNat = distinctOf s.freq → ∃ w t l r root,
      TreeLaw s.freq (s.distinct.toNat - 1) w t l r ∧
      (∀ n : NodeId, queued s.freq l r (s.distinct.toNat - 1) n.toNat ↔ n = root) ∧
      exec .tbbuild s = .next { s with
        nodeW := w, nodeT := t, nodeL := l, nodeR := r, inq := Vector.replicate 511 false, root := root
        nint := s.distinct - 1#9, trv := true, cdv := false })

/-- 42_tree_builder.md R146: the shape of the tree TBBUILD leaves, and the sums at its root. -/
def Obligations.TreeShape : Prop :=
  ∀ (s : State), Inv s → s.opstate = .idle → s.ftv = true → s.distinct ≠ 0#9 → ∃ t, exec .tbbuild s = .next t ∧
    t.nint.toNat + 1 = s.distinct.toNat ∧ (2 ≤ s.distinct.toNat → t.root.toNat = 254 + s.distinct.toNat) ∧
    (∀ m : NodeId, 256 ≤ m.toNat → m.toNat < 256 + t.nint.toNat →
      childAt t.nodeL m ≠ childAt t.nodeR m ∧ (childAt t.nodeL m).toNat < m.toNat ∧
      (childAt t.nodeR m).toNat < m.toNat ∧ inUse s.freq t.nint.toNat (childAt t.nodeL m).toNat ∧
      inUse s.freq t.nint.toNat (childAt t.nodeR m).toNat) ∧
    (∀ n : NodeId, inUse s.freq t.nint.toNat n.toNat → n ≠ t.root →
      ∃ m : NodeId, ∀ m' : NodeId,
        (256 ≤ m'.toNat ∧ m'.toNat < 256 + t.nint.toNat ∧ isChild t.nodeL t.nodeR n.toNat m'.toNat) ↔ m' = m) ∧
    (nodeAt t.nodeW t.root).toNat = sumSymbols (fun x => (freqAt s.freq x).toNat) ∧
    (nodeAt t.nodeT t.root).toNat = sumSymbols (fun x => if present s.freq x then x.toNat else 0)

/-- 42_tree_builder.md R147: what TBBUILD writes is a function of FREQ. -/
def Obligations.TreeIsAFunctionOfFreq : Prop :=
  ∀ (s s' t t' : State), s.opstate = .idle → s'.opstate = .idle → s.freq = s'.freq →
    exec .tbbuild s = .next t → exec .tbbuild s' = .next t' → t.opstate = .idle → t'.opstate = .idle →
    t.nodeW = t'.nodeW ∧ t.nodeT = t'.nodeT ∧ t.nodeL = t'.nodeL ∧ t.nodeR = t'.nodeR ∧ t.root = t'.root ∧
      t.nint = t'.nint

/-- 42_tree_builder.md R150: two present symbols `x < y`. The symbol with the larger count, or on equal counts the larger
symbol, is the left child and gets the code "0". -/
def Obligations.TwoSymbolTree : Prop :=
  ∀ (s : State) (x y : Byte), s.opstate = .idle → s.ftv = true → s.distinct = 2#9 → x.toNat < y.toNat →
    (∀ z, present s.freq z = true ↔ z = x ∨ z = y) →
    ∃ t u, exec .tbbuild s = .next t ∧ exec .cgderive t = .next u ∧ t.root = 256#9 ∧ t.nint = 1#9 ∧
      ((freqAt s.freq x).toNat ≤ (freqAt s.freq y).toNat →
        childAt t.nodeR 256#9 = x.setWidth 9 ∧ childAt t.nodeL 256#9 = y.setWidth 9 ∧
        codeOf u.codeLen u.codeBits y = [false] ∧ codeOf u.codeLen u.codeBits x = [true]) ∧
      ((freqAt s.freq y).toNat < (freqAt s.freq x).toNat →
        childAt t.nodeR 256#9 = y.setWidth 9 ∧ childAt t.nodeL 256#9 = x.setWidth 9 ∧
        codeOf u.codeLen u.codeBits x = [false] ∧ codeOf u.codeLen u.codeBits y = [true])

/-! ### The code table -/

/-- 43_code_table.md R160 to R162: CGDERIVE faults without a tree and completes on every tree of the invariant; the code of a present symbol is its
one path from ROOT, placed from bit 255 down with zeros below; an absent symbol reads 0. -/
def Obligations.CgderiveRecordsThePaths : Prop :=
  decodeWord 0x00000030#32 = .ok .cgderive ∧ ∀ (s : State), Inv s → s.opstate = .idle →
    (s.trv = false → exec .cgderive s = .next (enterFault .sequenceError 0x30#32 s)) ∧
    (s.trv = true → ∃ len bits,
      exec .cgderive s = .next { s with codeLen := len, codeBits := bits, cdv := true } ∧
      (∀ x : Byte, present s.freq x = true → ∃ p, (∀ q, isPath s.nodeL s.nodeR s.root q x ↔ q = p) ∧
        (len[x.toNat]'(x.isLt)).toNat = p.length ∧
        ∀ i < 256, (bits[x.toNat]'(x.isLt)).getLsbD (255 - i) = p.getD i false) ∧
      ∀ x : Byte, present s.freq x = false → len[x.toNat]'(x.isLt) = 0#8 ∧ bits[x.toNat]'(x.isLt) = 0#256)

/-- 43_code_table.md R163: no code is a prefix of another. -/
def Obligations.CodesArePrefixFree : Prop :=
  ∀ (s : State), Inv s → s.cdv = true → ∀ x y : Byte, present s.freq x = true → present s.freq y = true → x ≠ y →
    ¬ codeOf s.codeLen s.codeBits x <+: codeOf s.codeLen s.codeBits y ∧
      codeOf s.codeLen s.codeBits x ≠ codeOf s.codeLen s.codeBits y

/-- 43_code_table.md R165: the lengths of the codes, and the number of code bits of counted data. -/
def Obligations.CodeLengths : Prop :=
  ∀ (s : State), Inv s → s.cdv = true → 2 ≤ s.distinct.toNat →
    (∀ x : Byte, present s.freq x = true → 1 ≤ (s.codeLen[x.toNat]'(x.isLt)).toNat ∧
      (s.codeLen[x.toNat]'(x.isLt)).toNat ≤ s.distinct.toNat - 1) ∧
    (s.hpv = false →
      sumSymbols (fun x => (freqAt s.freq x).toNat * (s.codeLen[x.toNat]'(x.isLt)).toNat) < 2 ^ 32 * 255)

/-- 43_code_table.md R164: a tree that is one leaf gives the empty code; HAS still tells the symbol from an absent one. -/
def Obligations.SingleLeafCode : Prop :=
  ∀ (s : State), s.opstate = .idle → s.trv = true → s.root.toNat < 256 → ∃ t, exec .cgderive s = .next t ∧
    t = { s with codeLen := Vector.replicate 256 0#8, codeBits := Vector.replicate 256 0#256, cdv := true } ∧
    ∀ x : Byte, codeOf t.codeLen t.codeBits x = [] ∧
      ((readReg .codeLenD { t with sel := x.setWidth 9 }).getLsbD 31 = true ↔ freqAt s.freq x ≠ 0#32)

/-! ### The bit packer -/

/-- 44_bit_io.md R173: from an empty packer, pushing a bit string and flushing appends exactly `pack` of it; `pack` on the
rule's own examples. -/
def Obligations.PushAndFlushPack : Prop :=
  pack [] = [] ∧ pack [true] = [0x80#8] ∧ pack [false, false, false, true] = [0x10#8] ∧
  pack [true, true, true, true, true, false, true, false] = [0xFA#8] ∧
  pack [true, true, true, true, true, false, true, false, false] = [0xFA#8, 0x00#8] ∧
  (∀ (q : List Bool) (j i : Nat), i < 8 → (pack q).length = (q.length + 7) / 8 ∧
    (j < (q.length + 7) / 8 → ∃ b, (pack q)[j]? = some b ∧ b.getLsbD (7 - i) = q.getD (8 * j + i) false)) ∧
  ∀ (q : List Bool) (s : State), s.bpN = 0#3 → s.bpAcc = 0#8 →
    s.snk.length + (q.length + 7) / 8 ≤ s.cfg.snkCap.toNat →
    (pushBits q s).bind flush = .go { s with snk := s.snk.appendAll (pack q) }

/-- 44_bit_io.md R176: BPPACK completes when every byte of SRC has a code and the packed bits fit; they are appended to
SNK, and nothing else changes but the packer, which ends empty. -/
def Obligations.BppackAppendsThePackedCodes : Prop :=
  ∀ (s : State), s.opstate = .idle → s.cdv = true → (∀ b ∈ s.src.bytes, present s.freq b = true) →
    s.snk.length + ((codeString s.codeLen s.codeBits s.src.bytes).length + 7) / 8 ≤ s.cfg.snkCap.toNat →
    exec .bppack s = .next { s with
      snk := s.snk.appendAll (pack (codeString s.codeLen s.codeBits s.src.bytes)), bpAcc := 0#8, bpN := 0#3 }

/-- 44_bit_io.md R176, R177, 60_exceptions.md R225: NoCode at the first byte without a code, SnkOverflow at the append
that does not fit, whichever comes first. -/
def Obligations.BppackFaults : Prop :=
  ∀ (s : State), s.opstate = .idle → s.cdv = true → s.snk.length ≤ s.cfg.snkCap.toNat →
    (∀ i b, s.src.bytes[i]? = some b → present s.freq b = false →
      (∀ x ∈ s.src.bytes.take i, present s.freq x = true) →
      s.snk.length + (codeString s.codeLen s.codeBits (s.src.bytes.take i)).length / 8 ≤ s.cfg.snkCap.toNat →
      exec .bppack s = .next (enterFault .noCode (BitVec.ofNat 32 i) s)) ∧
    (∀ i, (∀ x ∈ s.src.bytes.take i, present s.freq x = true) →
      s.cfg.snkCap.toNat < s.snk.length + (codeString s.codeLen s.codeBits (s.src.bytes.take i)).length / 8 →
      exec .bppack s = .next (enterFault .snkOverflow s.cfg.snkCap s)) ∧
    ((∀ x ∈ s.src.bytes, present s.freq x = true) →
      s.cfg.snkCap.toNat < s.snk.length + ((codeString s.codeLen s.codeBits s.src.bytes).length + 7) / 8 →
      exec .bppack s = .next (enterFault .snkOverflow s.cfg.snkCap s))

/-! ### The header -/

/-- 45_header_framer.md R191, R192: HFEMIT. The empty table; the header of a table that fits; SnkOverflow with
SNK_LEN at the append that does not fit. -/
def Obligations.HfemitWritesTheHeader : Prop :=
  decodeWord 0x00000040#32 = .ok .hfemit ∧ ∀ (s : State), s.opstate = .idle →
    (s.ftv = false → exec .hfemit s = .next (enterFault .sequenceError 0x40#32 s)) ∧
    (s.ftv = true → s.distinct = 0#9 → exec .hfemit s = .next { s with snk := [] }) ∧
    (s.ftv = true → s.distinct ≠ 0#9 → s.distinct.toNat = distinctOf s.freq →
      8 + 5 * s.distinct.toNat ≤ s.cfg.snkCap.toNat → exec .hfemit s = .next { s with
        snk := Memory.ofBytes (be32Bytes s.total ++ be32Bytes (s.distinct.setWidth 32) ++
          ((List.range 256).map (BitVec.ofNat 8)).flatMap fun x =>
            if freqAt s.freq x = 0#32 then [] else x :: be32Bytes (freqAt s.freq x)) }) ∧
    (s.ftv = true → s.distinct ≠ 0#9 → s.distinct.toNat = distinctOf s.freq →
      s.cfg.snkCap.toNat < 8 + 5 * s.distinct.toNat → ∃ e,
        exec .hfemit s = .next (enterFault .snkOverflow (BitVec.ofNat 32 e) s) ∧ e ≤ s.cfg.snkCap.toNat ∧
        (((e = 0 ∨ e = 4) ∧ s.cfg.snkCap.toNat < e + 4) ∨
          ∃ k < s.distinct.toNat, (e = 8 + 5 * k ∧ s.cfg.snkCap.toNat < e + 1) ∨
            (e = 9 + 5 * k ∧ s.cfg.snkCap.toNat < e + 4)))

/-- 45_header_framer.md R195, R203: HFPARSE completes on every header whose pairs could be a table's, in any order,
whatever follows it. -/
def Obligations.HfparseReadsTheTable : Prop :=
  ∀ (s : State) (total : Word) (pairs : List (Byte × Word)) (rest : List Byte), s.opstate = .idle →
    s.src.wf = true → s.src.length < 2 ^ 32 → s.src.bytes = headerBytes total pairs ++ rest → pairsOk pairs →
    (pairs = [] → total = 0#32) → ∃ f : Vector Word 256, (∀ x, freqAt f x = pairCount pairs x) ∧
    exec .hfparse s = .next { s with
      freq := f, total := total, distinct := BitVec.ofNat 9 pairs.length
      srcPos := BitVec.ofNat 32 (8 + 5 * pairs.length)
      ftv := true, trv := false, cdv := false, hpv := true, empty := false }

/-- 45_header_framer.md R196 to R201: the five header faults, in the order of the checks. `pairs` are the pairs read
before the one that fails. -/
def Obligations.HfparseFaults : Prop :=
  ∀ (s : State), s.opstate = .idle → s.src.wf = true → s.src.length < 2 ^ 32 →
    (1 ≤ s.src.length → s.src.length < 8 → exec .hfparse s = .next (enterFault .headerTruncated s.srcLen s)) ∧
    (∀ t d rest, s.src.bytes = be32Bytes t ++ be32Bytes d ++ rest → 256 < d.toNat →
      exec .hfparse s = .next (enterFault .headerDistinctRange d s)) ∧
    (∀ t rest, s.src.bytes = be32Bytes t ++ be32Bytes 0#32 ++ rest → t ≠ 0#32 →
      exec .hfparse s = .next (enterFault .headerEmptyTable t s)) ∧
    (∀ t d pairs rest, s.src.bytes = be32Bytes t ++ be32Bytes d ++ pairBytes pairs ++ rest → d.toNat ≤ 256 →
      pairsOk pairs → pairs.length < d.toNat →
      (rest.length < 5 → exec .hfparse s = .next (enterFault .headerTruncated s.srcLen s)) ∧
      (∀ x r, rest = x :: be32Bytes 0#32 ++ r → exec .hfparse s =
        .next (enterFault .headerZeroFrequency (BitVec.ofNat 32 (8 + 5 * pairs.length)) s)) ∧
      (∀ x f r, rest = x :: be32Bytes f ++ r → f ≠ 0#32 → x ∈ pairs.map Prod.fst → exec .hfparse s =
        .next (enterFault .headerDuplicateSymbol (BitVec.ofNat 32 (8 + 5 * pairs.length)) s)))

/-- 45_header_framer.md R204: HFPARSE of what HFEMIT wrote restores the table. -/
def Obligations.HeaderRoundTrip : Prop :=
  ∀ (s t u : State) (rest : List Byte), Inv s → s.opstate = .idle → s.ftv = true → s.distinct ≠ 0#9 →
    exec .hfemit s = .next t → t.opstate = .idle → u.opstate = .idle → u.src.wf = true → u.src.length < 2 ^ 32 →
    u.src.bytes = t.snk.bytes ++ rest → ∃ v, exec .hfparse u = .next v ∧ v.opstate = .idle ∧ v.hpv = true ∧
      v.freq = s.freq ∧ v.total = s.total ∧ v.distinct = s.distinct

/-- 45_header_framer.md R202: the empty frame. HFPARSE leaves the empty valid table, BUUNPACK after it and DECODE write
nothing. -/
def Obligations.EmptyFrameDecodes : Prop :=
  ∀ (s : State), s.opstate = .idle → s.src = [] → ∃ t, exec .hfparse s = .next t ∧
    t = { s with
      freq := Vector.replicate 256 0#32, total := 0#32, distinct := 0#9, srcPos := 0#32
      ftv := true, trv := false, cdv := false, hpv := true, empty := true } ∧
    readReg .status t = 0x00000026#32 ∧ exec .buunpack t = .next { t with snk := [] } ∧
    exec .decode s = .next { t with snk := [] }

/-! ### The bit unpacker -/

/-- 44_bit_io.md R178, R179: BUUNPACK with no symbol, and with one: the symbol TOTAL times, no bitstream byte read. -/
def Obligations.BuunpackWithoutATree : Prop :=
  ∀ (s : State), Inv s → s.opstate = .idle → s.hpv = true →
    (s.distinct = 0#9 → exec .buunpack s = .next { s with
      snk := [], srcPos := if s.src.length = 0 then 0#32 else 8#32 }) ∧
    (s.distinct = 1#9 → ∀ v, present s.freq v = true →
      (s.total.toNat ≤ s.cfg.snkCap.toNat → exec .buunpack s = .next { s with
        snk := Memory.ofBytes (List.replicate s.total.toNat v), srcPos := 13#32 }) ∧
      (s.cfg.snkCap.toNat < s.total.toNat →
        exec .buunpack s = .next (enterFault .snkOverflow s.cfg.snkCap s)))

/-- 44_bit_io.md R178, R180, R183: the walk. When the bits after the header begin with the paths of TOTAL symbols,
BUUNPACK writes exactly those symbols and stops, whatever follows. -/
def Obligations.BuunpackWalksTheTree : Prop :=
  ∀ (s : State) (ds : List (Byte × List Bool)), Inv s → s.opstate = .idle → s.hpv = true → s.trv = true →
    2 ≤ s.distinct.toNat → (∀ e ∈ ds, isPath s.nodeL s.nodeR s.root e.2 e.1) → ds.length = s.total.toNat →
    s.total.toNat ≤ s.cfg.snkCap.toNat →
    ds.flatMap Prod.snd <+: bitString (s.src.bytes.drop (8 + 5 * s.distinct.toNat)) →
    exec .buunpack s = .next { s with
      snk := Memory.ofBytes (ds.map Prod.fst), walk := s.root, emit := s.total
      srcPos := BitVec.ofNat 32 (8 + 5 * s.distinct.toNat + ((ds.flatMap Prod.snd).length + 7) / 8)
      buN := BitVec.ofNat 4 ((8 - (ds.flatMap Prod.snd).length % 8) % 8)
      buCur := if (ds.flatMap Prod.snd).length = 0 then s.buCur
        else s.src.bytes.getD (8 + 5 * s.distinct.toNat + ((ds.flatMap Prod.snd).length - 1) / 8) 0#8 }

/-- 44_bit_io.md R182, 60_exceptions.md R225: the faults of the walk: the bits end inside a path before TOTAL symbols
(BitstreamUnderrun), or one symbol more than SNK holds is complete (SnkOverflow). -/
def Obligations.BuunpackFaults : Prop :=
  ∀ (s : State) (ds : List (Byte × List Bool)), Inv s → s.opstate = .idle → s.hpv = true → s.trv = true →
    2 ≤ s.distinct.toNat → (∀ e ∈ ds, isPath s.nodeL s.nodeR s.root e.2 e.1) →
    (∀ tail, bitString (s.src.bytes.drop (8 + 5 * s.distinct.toNat)) = ds.flatMap Prod.snd ++ tail →
      (∀ q, q <+: tail → 256 ≤ (follow s.nodeL s.nodeR s.root q).toNat) → ds.length < s.total.toNat →
      ds.length ≤ s.cfg.snkCap.toNat → exec .buunpack s = .next (enterFault .bitstreamUnderrun s.srcLen s)) ∧
    (ds.flatMap Prod.snd <+: bitString (s.src.bytes.drop (8 + 5 * s.distinct.toNat)) →
      ds.length ≤ s.total.toNat → ds.length = s.cfg.snkCap.toNat + 1 →
      exec .buunpack s = .next (enterFault .snkOverflow s.cfg.snkCap s))

/-! ### The codec -/

/-- 46_codec_sequences.md R210: ENCODE. The empty source; else the tables of the source and the frame made from them,
or SnkOverflow when the frame does not fit. -/
def Obligations.EncodeWritesTheFrame : Prop :=
  ∀ (s : State), Inv s → s.opstate = .idle →
    (s.src.length = 0 → exec .encode s = .next { s with
      freq := Vector.replicate 256 0#32, total := 0#32, distinct := 0#9, srcPos := 0#32, snk := []
      ftv := true, trv := false, cdv := false, hpv := false, empty := true }) ∧
    (s.src.length ≠ 0 → ∃ f w tt l r root cl cb,
      (∀ x : Byte, (freqAt f x).toNat = s.src.bytes.count x) ∧
      TreeLaw f (distinctOf f - 1) w tt l r ∧
      (∀ n : NodeId, queued f l r (distinctOf f - 1) n.toNat ↔ n = root) ∧
      (∀ x : Byte, present f x = true → isPath l r root (codeOf cl cb x) x) ∧
      (((headerBytes s.srcLen (tablePairs f) ++ pack (codeString cl cb s.src.bytes)).length ≤ s.cfg.snkCap.toNat ∧
        exec .encode s = .next { s with
          freq := f, total := s.srcLen, distinct := BitVec.ofNat 9 (distinctOf f), srcPos := 0#32
          nodeW := w, nodeT := tt, nodeL := l, nodeR := r, inq := Vector.replicate 511 false
          root := root, nint := BitVec.ofNat 9 (distinctOf f - 1), codeLen := cl, codeBits := cb
          snk := Memory.ofBytes (headerBytes s.srcLen (tablePairs f) ++ pack (codeString cl cb s.src.bytes))
          bpAcc := 0#8, bpN := 0#3, ftv := true, trv := true, cdv := true, hpv := false, empty := false }) ∨
      (s.cfg.snkCap.toNat < (headerBytes s.srcLen (tablePairs f) ++ pack (codeString cl cb s.src.bytes)).length ∧
        ∃ info, exec .encode s = .next (enterFault .snkOverflow info s))))

/-- 46_codec_sequences.md R212: DECODE of a frame whose header is in order: nothing for no symbol, the run for one, the
walk of the rebuilt tree for more. -/
def Obligations.DecodeRestoresTheSymbols : Prop :=
  ∀ (s : State) (total : Word) (pairs : List (Byte × Word)) (rest : List Byte), s.opstate = .idle →
    s.src.wf = true → s.src.length < 2 ^ 32 → s.src.bytes = headerBytes total pairs ++ rest → pairsOk pairs →
    total.toNat ≤ s.cfg.snkCap.toNat → ∃ f : Vector Word 256, (∀ x, freqAt f x = pairCount pairs x) ∧
    (pairs = [] → total = 0#32 → exec .decode s = .next { s with
      freq := f, total := 0#32, distinct := 0#9, srcPos := 8#32, snk := []
      ftv := true, trv := false, cdv := false, hpv := true, empty := false }) ∧
    (∀ v g, pairs = [(v, g)] → exec .decode s = .next { s with
      freq := f, total := total, distinct := 1#9, srcPos := 13#32, snk := Memory.ofBytes (List.replicate total.toNat v)
      ftv := true, trv := false, cdv := false, hpv := true, empty := false }) ∧
    (2 ≤ pairs.length → ∃ w tt l r root, TreeLaw f (pairs.length - 1) w tt l r ∧
      root = BitVec.ofNat 9 (254 + pairs.length) ∧
      ∀ ds : List (Byte × List Bool), (∀ e ∈ ds, isPath l r root e.2 e.1) → ds.length = total.toNat →
        ds.flatMap Prod.snd <+: bitString rest →
        exec .decode s = .next { s with
          freq := f, total := total, distinct := BitVec.ofNat 9 pairs.length
          nodeW := w, nodeT := tt, nodeL := l, nodeR := r, inq := Vector.replicate 511 false
          root := root, nint := BitVec.ofNat 9 (pairs.length - 1)
          snk := Memory.ofBytes (ds.map Prod.fst), walk := root, emit := total
          srcPos := BitVec.ofNat 32 (8 + 5 * pairs.length + ((ds.flatMap Prod.snd).length + 7) / 8)
          buN := BitVec.ofNat 4 ((8 - (ds.flatMap Prod.snd).length % 8) % 8)
          buCur := if (ds.flatMap Prod.snd).length = 0 then s.buCur
            else rest.getD (((ds.flatMap Prod.snd).length - 1) / 8) 0#8
          ftv := true, trv := true, cdv := false, hpv := true, empty := false })

/-- 46_codec_sequences.md R211, R213: ENCODE and DECODE equal the sequences of commands, fault or no fault. -/
def Obligations.CodecEqualsTheCommandSequences : Prop :=
  ∀ (s : State), s.opstate = .idle →
    (s.src.length ≠ 0 → runActions [commandAction .encode] s =
      runActions ([Instr.ftcount, .tbbuild, .cgderive, .hfemit, .bppack].map commandAction) s) ∧
    (s.src.length = 0 → runActions [commandAction .encode] s =
      runActions ([Instr.ftcount, .hfemit].map commandAction) s) ∧
    (∀ u, exec .hfparse s = .next u →
      (2 ≤ u.distinct.toNat ∨ u.opstate = .faulted → runActions [commandAction .decode] s =
        runActions ([Instr.hfparse, .tbbuild, .buunpack].map commandAction) s) ∧
      (u.distinct.toNat < 2 ∨ u.opstate = .faulted → runActions [commandAction .decode] s =
        runActions ([Instr.hfparse, .buunpack].map commandAction) s))

/-- 46_codec_sequences.md R214: load `bs`, ENCODE, move SNK to SRC, DECODE: SNK holds `bs`, no fault is raised; the empty
sequence too. `t` is the state after the encode, which has completed: its frame fits SNK, and it fits SRC. -/
def Obligations.DecodeOfEncodeRestoresTheInput : Prop :=
  ∀ (s t : State) (bs : List Byte), Inv s → s.opstate = .idle → bs.length ≤ s.cfg.srcCap.toNat →
    bs.length ≤ s.cfg.snkCap.toNat →
    runActions (commandAction .srcclr :: (HostLine.push bs).actions 0 ++ [commandAction .encode]) s = .next t →
    t.opstate = .idle → t.snk.length ≤ t.cfg.srcCap.toNat →
    ∃ v, runActions (commandAction .srcclr :: (HostLine.push t.snk.bytes).actions 0 ++ [commandAction .decode]) t =
        .next v ∧ v.opstate = .idle ∧ v.snk.bytes = bs ∧ v.snk.wf = true

/-- 46_codec_sequences.md R215: the output of ENCODE and DECODE, and their STATUS, depend on SRC (and SNK_CAP) alone. -/
def Obligations.CodecIsPure : Prop :=
  ∀ (i : Instr) (s s' t t' : State), i = .encode ∨ i = .decode → s.opstate = .idle → s'.opstate = .idle →
    s.src = s'.src → s.cfg.snkCap = s'.cfg.snkCap → exec i s = .next t → exec i s' = .next t' →
    t.snk = t'.snk ∧ readReg .status t = readReg .status t'

/-- 46_codec_sequences.md R216: `n` equal bytes encode to a header of 13 bytes, and it decodes to them. -/
def Obligations.SingleSymbolFrame : Prop :=
  ∀ (s : State) (v : Byte) (n : Nat), s.opstate = .idle → s.src = Memory.ofBytes (List.replicate n v) → 1 ≤ n →
    n < 2 ^ 32 → 13 ≤ s.cfg.snkCap.toNat → n ≤ s.cfg.snkCap.toNat →
    ∃ t, exec .encode s = .next t ∧ t.opstate = .idle ∧
      t.snk.bytes = be32Bytes (BitVec.ofNat 32 n) ++ [0x00#8, 0x00#8, 0x00#8, 0x01#8, v] ++
        be32Bytes (BitVec.ofNat 32 n) ∧
      ∃ u, exec .decode { t with src := t.snk } = .next u ∧ u.opstate = .idle ∧ u.snk.bytes = List.replicate n v

/-! ### The whole machine -/

/-- The invariant of Safety.lean holds right after reset. The capacities there are the model's choice (log entry 3). -/
def Obligations.InvariantAtReset : Prop := Inv State.reset

/-- Every step keeps the invariant: the canonical buffers, the validity flags of 10_state.md R39 and what they promise
(20_memory.md R73), the shape of the fault state. -/
def Obligations.StepKeepsTheInvariant : Prop := ∀ (s t : State), Inv s → step s = .next t → Inv t

/-- From a state of the invariant every step answers a next state: no command stops the model (70_reset_and_hazards.md
R263, "Every command terminates"). -/
def Obligations.StepAlwaysAnswers : Prop := ∀ (s : State), Inv s → ∃ t, step s = .next t

/-- What no command touches: the parameters, the model's port, and but for SRST SEL, SNK_ADDR and (but for SRCCLR too)
SRC; a command that ends in IDLE leaves CAUSE and EINFO (10_state.md R43, R49, R57, 20_memory.md R60). -/
def Obligations.CommandFrame : Prop :=
  ∀ (i : Instr) (s t : State), exec i s = .next t →
    t.cfg = s.cfg ∧ t.pending = s.pending ∧ t.rdata = s.rdata ∧
    (i ≠ .srst → t.sel = s.sel ∧ t.snkAddr = s.snkAddr) ∧
    (i ≠ .srst → i ≠ .srcclr → t.src = s.src) ∧
    (i ≠ .srst → t.opstate = .idle → t.cause = s.cause ∧ t.einfo = s.einfo)

/-- 70_reset_and_hazards.md R256, R257: a change of SRC clears the flags; SNK changes only by the commands that write
it or by being emptied, and BPPACK keeps what it holds. -/
def Obligations.BufferChanges : Prop :=
  ∀ (a : HostAction) (s t : State), hostAction a s = .next t →
    (t.src ≠ s.src → t.ftv = false ∧ t.trv = false ∧ t.cdv = false ∧ t.hpv = false ∧ t.empty = false) ∧
    (t.snk = s.snk ∨ t.snk = [] ∨
      ∃ i ∈ [Instr.hfemit, .bppack, .buunpack, .encode, .decode], a = commandAction i) ∧
    (a = commandAction .bppack → t.opstate = .idle → ∃ bs, t.snk = s.snk.appendAll bs)
end

