-- ==== Sys2Proof/Laws/State.lean ====
section
/-! SUPPORT. What the named updates of a state do to each field, one simp lemma a field. A record update in place needs
none: its projections reduce. -/

namespace Sys2Proof.Machine

/-! ### softReset -/

section
variable (s : State)

@[simp] theorem softReset_cfg : (softReset s).cfg = s.cfg := rfl
@[simp] theorem softReset_freq : (softReset s).freq = Vector.replicate 256 0#32 := rfl
@[simp] theorem softReset_total : (softReset s).total = 0#32 := rfl
@[simp] theorem softReset_distinct : (softReset s).distinct = 0#9 := rfl
@[simp] theorem softReset_nodeW : (softReset s).nodeW = Vector.replicate 511 0#40 := rfl
@[simp] theorem softReset_nodeT : (softReset s).nodeT = Vector.replicate 511 0#16 := rfl
@[simp] theorem softReset_nodeL : (softReset s).nodeL = Vector.replicate 255 0#9 := rfl
@[simp] theorem softReset_nodeR : (softReset s).nodeR = Vector.replicate 255 0#9 := rfl
@[simp] theorem softReset_root : (softReset s).root = 0#9 := rfl
@[simp] theorem softReset_nint : (softReset s).nint = 0#9 := rfl
@[simp] theorem softReset_codeLen : (softReset s).codeLen = Vector.replicate 256 0#8 := rfl
@[simp] theorem softReset_codeBits : (softReset s).codeBits = Vector.replicate 256 0#256 := rfl
@[simp] theorem softReset_inq : (softReset s).inq = Vector.replicate 511 false := rfl
@[simp] theorem softReset_bpAcc : (softReset s).bpAcc = 0#8 := rfl
@[simp] theorem softReset_bpN : (softReset s).bpN = 0#3 := rfl
@[simp] theorem softReset_buCur : (softReset s).buCur = 0#8 := rfl
@[simp] theorem softReset_buN : (softReset s).buN = 0#4 := rfl
@[simp] theorem softReset_walk : (softReset s).walk = 0#9 := rfl
@[simp] theorem softReset_emit : (softReset s).emit = 0#32 := rfl
@[simp] theorem softReset_src : (softReset s).src = [] := rfl
@[simp] theorem softReset_srcPos : (softReset s).srcPos = 0#32 := rfl
@[simp] theorem softReset_snk : (softReset s).snk = [] := rfl
@[simp] theorem softReset_opstate : (softReset s).opstate = .idle := rfl
@[simp] theorem softReset_ftv : (softReset s).ftv = false := rfl
@[simp] theorem softReset_trv : (softReset s).trv = false := rfl
@[simp] theorem softReset_cdv : (softReset s).cdv = false := rfl
@[simp] theorem softReset_hpv : (softReset s).hpv = false := rfl
@[simp] theorem softReset_empty : (softReset s).empty = false := rfl
@[simp] theorem softReset_cause : (softReset s).cause = none := rfl
@[simp] theorem softReset_einfo : (softReset s).einfo = 0#32 := rfl
@[simp] theorem softReset_sel : (softReset s).sel = 0#9 := rfl
@[simp] theorem softReset_snkAddr : (softReset s).snkAddr = 0#32 := rfl
@[simp] theorem softReset_pending : (softReset s).pending = s.pending := rfl
@[simp] theorem softReset_rdata : (softReset s).rdata = s.rdata := rfl

end

/-! ### enterFault -/

section
variable (c : Cause) (i : Word) (s : State)

@[simp] theorem enterFault_cfg : (enterFault c i s).cfg = s.cfg := rfl
@[simp] theorem enterFault_freq : (enterFault c i s).freq = Vector.replicate 256 0#32 := rfl
@[simp] theorem enterFault_total : (enterFault c i s).total = 0#32 := rfl
@[simp] theorem enterFault_distinct : (enterFault c i s).distinct = 0#9 := rfl
@[simp] theorem enterFault_nodeW : (enterFault c i s).nodeW = Vector.replicate 511 0#40 := rfl
@[simp] theorem enterFault_nodeT : (enterFault c i s).nodeT = Vector.replicate 511 0#16 := rfl
@[simp] theorem enterFault_nodeL : (enterFault c i s).nodeL = Vector.replicate 255 0#9 := rfl
@[simp] theorem enterFault_nodeR : (enterFault c i s).nodeR = Vector.replicate 255 0#9 := rfl
@[simp] theorem enterFault_root : (enterFault c i s).root = 0#9 := rfl
@[simp] theorem enterFault_nint : (enterFault c i s).nint = 0#9 := rfl
@[simp] theorem enterFault_codeLen : (enterFault c i s).codeLen = Vector.replicate 256 0#8 := rfl
@[simp] theorem enterFault_codeBits : (enterFault c i s).codeBits = Vector.replicate 256 0#256 := rfl
@[simp] theorem enterFault_inq : (enterFault c i s).inq = Vector.replicate 511 false := rfl
@[simp] theorem enterFault_bpAcc : (enterFault c i s).bpAcc = 0#8 := rfl
@[simp] theorem enterFault_bpN : (enterFault c i s).bpN = 0#3 := rfl
@[simp] theorem enterFault_buCur : (enterFault c i s).buCur = 0#8 := rfl
@[simp] theorem enterFault_buN : (enterFault c i s).buN = 0#4 := rfl
@[simp] theorem enterFault_walk : (enterFault c i s).walk = 0#9 := rfl
@[simp] theorem enterFault_emit : (enterFault c i s).emit = 0#32 := rfl
@[simp] theorem enterFault_src : (enterFault c i s).src = s.src := rfl
@[simp] theorem enterFault_srcPos : (enterFault c i s).srcPos = 0#32 := rfl
@[simp] theorem enterFault_snk : (enterFault c i s).snk = [] := rfl
@[simp] theorem enterFault_opstate : (enterFault c i s).opstate = .faulted := rfl
@[simp] theorem enterFault_ftv : (enterFault c i s).ftv = false := rfl
@[simp] theorem enterFault_trv : (enterFault c i s).trv = false := rfl
@[simp] theorem enterFault_cdv : (enterFault c i s).cdv = false := rfl
@[simp] theorem enterFault_hpv : (enterFault c i s).hpv = false := rfl
@[simp] theorem enterFault_empty : (enterFault c i s).empty = false := rfl
@[simp] theorem enterFault_cause : (enterFault c i s).cause = some c := rfl
@[simp] theorem enterFault_einfo : (enterFault c i s).einfo = i := rfl
@[simp] theorem enterFault_sel : (enterFault c i s).sel = s.sel := rfl
@[simp] theorem enterFault_snkAddr : (enterFault c i s).snkAddr = s.snkAddr := rfl
@[simp] theorem enterFault_pending : (enterFault c i s).pending = s.pending := rfl
@[simp] theorem enterFault_rdata : (enterFault c i s).rdata = s.rdata := rfl

end

/-! ### clearValidity -/

section
variable (s : State)

@[simp] theorem clearValidity_cfg : (clearValidity s).cfg = s.cfg := rfl
@[simp] theorem clearValidity_freq : (clearValidity s).freq = s.freq := rfl
@[simp] theorem clearValidity_total : (clearValidity s).total = s.total := rfl
@[simp] theorem clearValidity_distinct : (clearValidity s).distinct = s.distinct := rfl
@[simp] theorem clearValidity_nodeW : (clearValidity s).nodeW = s.nodeW := rfl
@[simp] theorem clearValidity_nodeT : (clearValidity s).nodeT = s.nodeT := rfl
@[simp] theorem clearValidity_nodeL : (clearValidity s).nodeL = s.nodeL := rfl
@[simp] theorem clearValidity_nodeR : (clearValidity s).nodeR = s.nodeR := rfl
@[simp] theorem clearValidity_root : (clearValidity s).root = s.root := rfl
@[simp] theorem clearValidity_nint : (clearValidity s).nint = s.nint := rfl
@[simp] theorem clearValidity_codeLen : (clearValidity s).codeLen = s.codeLen := rfl
@[simp] theorem clearValidity_codeBits : (clearValidity s).codeBits = s.codeBits := rfl
@[simp] theorem clearValidity_inq : (clearValidity s).inq = s.inq := rfl
@[simp] theorem clearValidity_bpAcc : (clearValidity s).bpAcc = s.bpAcc := rfl
@[simp] theorem clearValidity_bpN : (clearValidity s).bpN = s.bpN := rfl
@[simp] theorem clearValidity_buCur : (clearValidity s).buCur = s.buCur := rfl
@[simp] theorem clearValidity_buN : (clearValidity s).buN = s.buN := rfl
@[simp] theorem clearValidity_walk : (clearValidity s).walk = s.walk := rfl
@[simp] theorem clearValidity_emit : (clearValidity s).emit = s.emit := rfl
@[simp] theorem clearValidity_src : (clearValidity s).src = s.src := rfl
@[simp] theorem clearValidity_srcPos : (clearValidity s).srcPos = s.srcPos := rfl
@[simp] theorem clearValidity_snk : (clearValidity s).snk = s.snk := rfl
@[simp] theorem clearValidity_opstate : (clearValidity s).opstate = s.opstate := rfl
@[simp] theorem clearValidity_ftv : (clearValidity s).ftv = false := rfl
@[simp] theorem clearValidity_trv : (clearValidity s).trv = false := rfl
@[simp] theorem clearValidity_cdv : (clearValidity s).cdv = false := rfl
@[simp] theorem clearValidity_hpv : (clearValidity s).hpv = false := rfl
@[simp] theorem clearValidity_empty : (clearValidity s).empty = false := rfl
@[simp] theorem clearValidity_cause : (clearValidity s).cause = s.cause := rfl
@[simp] theorem clearValidity_einfo : (clearValidity s).einfo = s.einfo := rfl
@[simp] theorem clearValidity_sel : (clearValidity s).sel = s.sel := rfl
@[simp] theorem clearValidity_snkAddr : (clearValidity s).snkAddr = s.snkAddr := rfl
@[simp] theorem clearValidity_pending : (clearValidity s).pending = s.pending := rfl
@[simp] theorem clearValidity_rdata : (clearValidity s).rdata = s.rdata := rfl

end

/-! ### Views -/

@[simp] theorem enterFault_srcLen (c : Cause) (i : Word) (s : State) : (enterFault c i s).srcLen = s.srcLen := rfl
@[simp] theorem enterFault_snkLen (c : Cause) (i : Word) (s : State) : (enterFault c i s).snkLen = 0#32 := rfl

/-- Fault entry reads only SRC, SEL, SNK_ADDR, the parameters and the port: "does not depend on how far the command had
got, except through CAUSE and EINFO" (60_exceptions.md R226). -/
theorem enterFault_congr {s t : State} (c : Cause) (i : Word) (hc : s.cfg = t.cfg) (hs : s.src = t.src)
    (hl : s.sel = t.sel) (ha : s.snkAddr = t.snkAddr) (hp : s.pending = t.pending) (hr : s.rdata = t.rdata) :
    enterFault c i s = enterFault c i t := by
  simp only [enterFault, softReset, hc, hs, hl, ha, hp, hr]

end Sys2Proof.Machine
end

