-- ==== Sys2Proof/Laws/Flow.lean ====
section
/-! SUPPORT. The laws of `Flow` (sequencing of a command's parts) and of the gate `command`. -/

namespace Sys2Proof.Machine

@[simp] theorem Flow.bind_go (s : State) (k : State → Flow) : (Flow.go s).bind k = k s := rfl
@[simp] theorem Flow.bind_raised (s : State) (k : State → Flow) : (Flow.raised s).bind k = .raised s := rfl
@[simp] theorem Flow.bind_stuck (r : Fault) (k : State → Flow) : (Flow.stuck r).bind k = .stuck r := rfl
@[simp] theorem raiseFault_bind (c : Cause) (i : Word) (s : State) (k : State → Flow) :
    (raiseFault c i s).bind k = raiseFault c i s := rfl

@[simp] theorem Flow.outcome_go (s : State) : (Flow.go s).outcome = .next s := rfl
@[simp] theorem Flow.outcome_raised (s : State) : (Flow.raised s).outcome = .next s := rfl
@[simp] theorem Flow.outcome_stuck (r : Fault) : (Flow.stuck r).outcome = .fault r := rfl
@[simp] theorem raiseFault_outcome (c : Cause) (i : Word) (s : State) :
    (raiseFault c i s).outcome = .next (enterFault c i s) := rfl

theorem Flow.bind_assoc (f : Flow) (k h : State → Flow) : (f.bind k).bind h = f.bind fun s => (k s).bind h := by
  cases f <;> rfl

theorem Flow.bind_go_right (f : Flow) : f.bind Flow.go = f := by cases f <;> rfl

theorem command_idle {body : State → Flow} {s : State} (h : s.opstate = .idle) :
    command body s = (body s).outcome := by simp [command, h]

theorem command_faulted {body : State → Flow} {s : State} (h : s.opstate = .faulted) :
    command body s = .next s := by simp [command, h]

end Sys2Proof.Machine
end

