-- ==== Sys2Proof/Laws/Frame.lean ====
section
/-! SUPPORT. What every part of a command keeps and which faults it can raise: the host's state (SRC, SEL, SNK_ADDR, the
parameters, the port) and OPSTATE, CAUSE, EINFO stay, and a raised fault is the fault entry of the state the part began
in (60_exceptions.md R221, R226). SRCCLR and the write of SRC_PUSH, which change SRC, have lemmas of their own. -/

namespace Sys2Proof.Machine

/-- `t` has the host's state, the parameters, the port and OPSTATE, CAUSE, EINFO of `s`. -/
structure SameHost (s t : State) : Prop where
  cfg : t.cfg = s.cfg
  src : t.src = s.src
  sel : t.sel = s.sel
  snkAddr : t.snkAddr = s.snkAddr
  opstate : t.opstate = s.opstate
  cause : t.cause = s.cause
  einfo : t.einfo = s.einfo
  pending : t.pending = s.pending
  rdata : t.rdata = s.rdata

theorem SameHost.refl (s : State) : SameHost s s := ⟨rfl, rfl, rfl, rfl, rfl, rfl, rfl, rfl, rfl⟩

theorem SameHost.trans {s t u : State} (h : SameHost s t) (h' : SameHost t u) : SameHost s u :=
  ⟨h'.cfg.trans h.cfg, h'.src.trans h.src, h'.sel.trans h.sel, h'.snkAddr.trans h.snkAddr,
    h'.opstate.trans h.opstate, h'.cause.trans h.cause, h'.einfo.trans h.einfo, h'.pending.trans h.pending,
    h'.rdata.trans h.rdata⟩

/-- States with the same host state enter a fault in the same way. -/
theorem SameHost.enterFault {s t : State} (h : SameHost s t) (c : Cause) (i : Word) :
    Machine.enterFault c i t = Machine.enterFault c i s :=
  enterFault_congr c i h.cfg h.src h.sel h.snkAddr h.pending h.rdata

/-- `f`, begun in `s`, goes on with the host state of `s`, or raised one of the causes `cs` from `s`. -/
def Flow.Within (f : Flow) (cs : List Cause) (s : State) : Prop :=
  match f with
  | .go t => SameHost s t
  | .raised t => ∃ c ∈ cs, ∃ i, t = enterFault c i s
  | .stuck _ => True

namespace Flow

theorem within_go {cs : List Cause} {s t : State} (h : SameHost s t) : (Flow.go t).Within cs s := h

theorem within_raise {cs : List Cause} {s t : State} {c : Cause} {i : Word} (h : SameHost s t) (hc : c ∈ cs) :
    (raiseFault c i t).Within cs s := ⟨c, hc, i, h.enterFault c i⟩

theorem within_stuck {cs : List Cause} {s : State} {r : Fault} : (Flow.stuck r).Within cs s := trivial

theorem Within.start {f : Flow} {cs : List Cause} {s t : State} (h : SameHost s t) (hf : f.Within cs t) :
    f.Within cs s := by
  match f, hf with
  | .go u, hu => exact h.trans hu
  | .raised u, ⟨c, hc, i, hu⟩ => exact ⟨c, hc, i, hu.trans (h.enterFault c i)⟩
  | .stuck _, _ => trivial

theorem Within.bind {f : Flow} {k : State → Flow} {cs : List Cause} {s : State} (hf : f.Within cs s)
    (hk : ∀ t, (k t).Within cs t) : (f.bind k).Within cs s := by
  match f, hf with
  | .go t, ht => exact Within.start ht (hk t)
  | .raised _, h => exact h
  | .stuck _, _ => trivial

theorem Within.mono {f : Flow} {cs ds : List Cause} {s : State} (hf : f.Within cs s) (h : ∀ c ∈ cs, c ∈ ds) :
    f.Within ds s := by
  match f, hf with
  | .go _, ht => exact ht
  | .raised _, ⟨c, hc, i, hu⟩ => exact ⟨c, h c hc, i, hu⟩
  | .stuck _, _ => trivial

end Flow

open Sys2Proof.Machine.Flow

/-! ### The parts -/

theorem memWrite_within (bs : List Byte) (s : State) : (memWrite bs s).Within [.snkOverflow] s := by
  unfold memWrite
  split
  · exact within_raise (.refl s) (by simp)
  · exact within_go ⟨rfl, rfl, rfl, rfl, rfl, rfl, rfl, rfl, rfl⟩

theorem snkAppend_within (b : Byte) (s : State) : (snkAppend b s).Within [.snkOverflow] s := memWrite_within [b] s

theorem emitAcc_within (s : State) : (emitAcc s).Within [.snkOverflow] s :=
  (snkAppend_within s.bpAcc s).bind fun _ => within_go ⟨rfl, rfl, rfl, rfl, rfl, rfl, rfl, rfl, rfl⟩

theorem pushBit_within (b : Bool) (s : State) : (pushBit b s).Within [.snkOverflow] s := by
  unfold pushBit
  dsimp only
  split
  · refine Within.start ?_ (emitAcc_within _)
    exact ⟨rfl, rfl, rfl, rfl, rfl, rfl, rfl, rfl, rfl⟩
  · exact within_go ⟨rfl, rfl, rfl, rfl, rfl, rfl, rfl, rfl, rfl⟩

theorem pushBits_within (bs : List Bool) (s : State) : (pushBits bs s).Within [.snkOverflow] s := by
  induction bs generalizing s with
  | nil => exact within_go (.refl s)
  | cons b bs ih => exact (pushBit_within b s).bind ih

theorem flush_within (s : State) : (flush s).Within [.snkOverflow] s := by
  unfold flush
  split
  · exact within_go (.refl s)
  · exact emitAcc_within s

theorem packFrom_within (i : Nat) (bs : List Byte) (s : State) :
    (packFrom i bs s).Within [.noCode, .snkOverflow] s := by
  induction bs generalizing i s with
  | nil => exact within_go (.refl s)
  | cons b bs ih =>
    unfold packFrom
    split
    · exact ((pushBits_within _ s).mono (by simp)).bind fun t => ih (i + 1) t
    · exact within_raise (.refl s) (by simp)

theorem fetchByte_within (s : State) : (fetchByte s).Within [.bitstreamUnderrun] s := by
  unfold fetchByte
  split
  · split
    · exact within_raise (.refl s) (by simp)
    · split
      · exact within_stuck
      · exact within_go ⟨rfl, rfl, rfl, rfl, rfl, rfl, rfl, rfl, rfl⟩
  · exact within_go (.refl s)

theorem walkBit_within (b : Bool) (s : State) : (walkBit b s).Within [.badTraversal, .snkOverflow] s := by
  unfold walkBit
  split
  · exact within_raise (.refl s) (by simp)
  · dsimp only
    generalize (if b then childAt s.nodeR s.walk else childAt s.nodeL s.walk) = n
    split
    · refine Within.start (t := { s with walk := n }) ⟨rfl, rfl, rfl, rfl, rfl, rfl, rfl, rfl, rfl⟩ (((snkAppend_within _ _).mono ?_).bind fun _ => ?_)
      · simp
      · exact within_go ⟨rfl, rfl, rfl, rfl, rfl, rfl, rfl, rfl, rfl⟩
    · exact within_go ⟨rfl, rfl, rfl, rfl, rfl, rfl, rfl, rfl, rfl⟩

theorem unpackLoop_within (f : Nat) (s : State) :
    (unpackLoop f s).Within [.bitstreamUnderrun, .badTraversal, .snkOverflow] s := by
  induction f generalizing s with
  | zero => exact within_stuck
  | succ f ih =>
    unfold unpackLoop
    split
    · refine Within.bind ?_ ih
      refine ((fetchByte_within s).mono (by simp)).bind fun t => ?_
      refine Within.start ?_ ((walkBit_within _ _).mono (by simp))
      exact ⟨rfl, rfl, rfl, rfl, rfl, rfl, rfl, rfl, rfl⟩
    · exact within_go (.refl s)

theorem appendRun_within (n : Nat) (b : Byte) (s : State) : (appendRun n b s).Within [.snkOverflow] s := by
  induction n generalizing s with
  | zero => exact within_go (.refl s)
  | succ n ih => exact (snkAppend_within b s).bind ih

theorem emitPairs_within (ss : List Byte) (s : State) : (emitPairs ss s).Within [.snkOverflow] s := by
  induction ss generalizing s with
  | nil => exact within_go (.refl s)
  | cons b ss ih => exact (memWrite_within _ s).bind fun t => (memWrite_within _ t).bind ih

theorem parsePair_within (s : State) :
    (parsePair s).Within [.headerTruncated, .headerZeroFrequency, .headerDuplicateSymbol] s := by
  unfold parsePair
  split
  · exact within_raise (.refl s) (by simp)
  · split
    · split
      · exact within_raise (.refl s) (by simp)
      · split
        · exact within_raise (.refl s) (by simp)
        · exact within_go ⟨rfl, rfl, rfl, rfl, rfl, rfl, rfl, rfl, rfl⟩
    · exact within_stuck

theorem parsePairs_within (d : Nat) (s : State) :
    (parsePairs d s).Within [.headerTruncated, .headerZeroFrequency, .headerDuplicateSymbol] s := by
  induction d generalizing s with
  | zero => exact within_go (.refl s)
  | succ n ih => exact (parsePair_within s).bind ih

/-! ### The bodies -/

theorem ftcountBody_within (s : State) : (ftcountBody s).Within [] s :=
  within_go ⟨rfl, rfl, rfl, rfl, rfl, rfl, rfl, rfl, rfl⟩

theorem tbbuildBody_within (s : State) : (tbbuildBody s).Within [.sequenceError, .undefinedEmptyBuild] s := by
  unfold tbbuildBody
  split
  · exact within_raise (.refl s) (by simp)
  · split
    · exact within_raise (.refl s) (by simp)
    · split
      · exact within_stuck
      · exact within_go ⟨rfl, rfl, rfl, rfl, rfl, rfl, rfl, rfl, rfl⟩

theorem cgderiveBody_within (s : State) : (cgderiveBody s).Within [.sequenceError] s := by
  unfold cgderiveBody
  split
  · exact within_raise (.refl s) (by simp)
  · split
    · exact within_stuck
    · exact within_go ⟨rfl, rfl, rfl, rfl, rfl, rfl, rfl, rfl, rfl⟩

theorem hfemitBody_within (s : State) : (hfemitBody s).Within [.sequenceError, .snkOverflow] s := by
  unfold hfemitBody
  split
  · exact within_raise (.refl s) (by simp)
  · dsimp only
    split
    · exact within_go ⟨rfl, rfl, rfl, rfl, rfl, rfl, rfl, rfl, rfl⟩
    · refine Within.start (t := { s with snk := [] }) ⟨rfl, rfl, rfl, rfl, rfl, rfl, rfl, rfl, rfl⟩ (Within.mono ?_ ?_ (cs := [.snkOverflow]))
      · exact (memWrite_within _ _).bind fun t => (memWrite_within _ t).bind fun u => emitPairs_within _ u
      · simp

theorem hfparseBody_within (s : State) :
    (hfparseBody s).Within [.headerDistinctRange, .headerTruncated, .headerZeroFrequency, .headerDuplicateSymbol,
      .headerEmptyTable] s := by
  have st : SameHost s (parseStart s) := ⟨rfl, rfl, rfl, rfl, rfl, rfl, rfl, rfl, rfl⟩
  unfold hfparseBody
  dsimp only
  split
  · exact within_go ⟨rfl, rfl, rfl, rfl, rfl, rfl, rfl, rfl, rfl⟩
  · split
    · exact within_raise st (by simp)
    · split
      · split
        · exact within_raise ⟨rfl, rfl, rfl, rfl, rfl, rfl, rfl, rfl, rfl⟩ (by simp)
        · refine Within.bind (Within.start ?_ ((parsePairs_within _ _).mono ?_)) fun t => ?_
          · exact ⟨rfl, rfl, rfl, rfl, rfl, rfl, rfl, rfl, rfl⟩
          · simp
          · split
            · exact within_raise (.refl t) (by simp)
            · exact within_go ⟨rfl, rfl, rfl, rfl, rfl, rfl, rfl, rfl, rfl⟩
      · exact within_stuck

theorem bppackBody_within (s : State) : (bppackBody s).Within [.sequenceError, .noCode, .snkOverflow] s := by
  unfold bppackBody
  split
  · exact within_raise (.refl s) (by simp)
  · refine Within.start (t := { s with bpAcc := 0#8, bpN := 0#3 }) ⟨rfl, rfl, rfl, rfl, rfl, rfl, rfl, rfl, rfl⟩ ?_
    exact ((packFrom_within _ _ _).mono (by simp)).bind fun t => (flush_within t).mono (by simp)

theorem buunpackBody_within (s : State) :
    (buunpackBody s).Within [.sequenceError, .bitstreamUnderrun, .badTraversal, .snkOverflow] s := by
  unfold buunpackBody
  split
  · exact within_raise (.refl s) (by simp)
  · split
    · exact within_raise (.refl s) (by simp)
    · dsimp only
      split
      · exact within_go ⟨rfl, rfl, rfl, rfl, rfl, rfl, rfl, rfl, rfl⟩
      · split
        · split
          · exact within_stuck
          · refine Within.start ?_ ((appendRun_within _ _ _).mono (by simp))
            exact ⟨rfl, rfl, rfl, rfl, rfl, rfl, rfl, rfl, rfl⟩
        · refine Within.start ?_ ((unpackLoop_within _ _).mono (by simp))
          exact ⟨rfl, rfl, rfl, rfl, rfl, rfl, rfl, rfl, rfl⟩

theorem encodeBody_within (s : State) :
    (encodeBody s).Within [.sequenceError, .undefinedEmptyBuild, .noCode, .snkOverflow] s := by
  refine ((ftcountBody_within s).mono (by simp)).bind fun t => ?_
  split
  · exact within_go ⟨rfl, rfl, rfl, rfl, rfl, rfl, rfl, rfl, rfl⟩
  · refine ((tbbuildBody_within t).mono (by simp)).bind fun u => ((cgderiveBody_within u).mono (by simp)).bind fun v => ?_
    exact ((hfemitBody_within v).mono (by simp)).bind fun w => (bppackBody_within w).mono (by simp)

theorem decodeBody_within (s : State) :
    (decodeBody s).Within [.headerDistinctRange, .headerTruncated, .headerZeroFrequency, .headerDuplicateSymbol,
      .headerEmptyTable, .sequenceError, .undefinedEmptyBuild, .bitstreamUnderrun, .badTraversal, .snkOverflow] s := by
  refine ((hfparseBody_within s).mono (by simp)).bind fun t => ?_
  refine Within.bind ?_ fun u => (buunpackBody_within u).mono (by simp)
  split
  · exact (tbbuildBody_within t).mono (by simp)
  · exact within_go (.refl t)

/-! ### A command as a whole -/

/-- All that a command whose body keeps the host's state can answer: in FAULTED nothing changes; in IDLE it ends with
the host's state kept, or in the fault entry of its first state with one of its causes, or the model stops. -/
theorem command_cases {body : State → Flow} {cs : List Cause} (hb : ∀ s, (body s).Within cs s) {s t : State}
    (h : command body s = .next t) :
    (s.opstate = .faulted ∧ t = s) ∨
      (s.opstate = .idle ∧ ((body s = .go t ∧ SameHost s t) ∨ ∃ c ∈ cs, ∃ i, t = enterFault c i s)) := by
  unfold command at h
  split at h
  · rename_i hs
    left
    injection h with h
    exact ⟨hs, h.symm⟩
  · rename_i hs
    right
    refine ⟨hs, ?_⟩
    have w := hb s
    cases hf : body s with
    | go u =>
      rw [hf] at h w
      injection h with h
      subst h
      exact Or.inl ⟨rfl, w⟩
    | raised u =>
      rw [hf] at h w
      injection h with h
      subst h
      exact Or.inr w
    | stuck r =>
      rw [hf] at h
      exact absurd h (by simp)

end Sys2Proof.Machine
end

