-- ==== Sys2Proof/Laws/Memory.lean ====
section
/-! SUPPORT. The byte buffers: every operation keeps the canonical form, and a read gives what was appended
(20_memory.md R61 to R63). -/

namespace Sys2Proof.Machine

namespace Memory

theorem wf_iff (m : Memory) : wf m = true ↔ m.map Prod.fst = List.range m.length := by simp [wf]

@[simp] theorem wf_nil : wf [] = true := rfl

@[simp] theorem length_append (m : Memory) (b : Byte) : (append m b).length = m.length + 1 := by simp [append]

@[simp] theorem bytes_nil : bytes [] = [] := rfl

@[simp] theorem bytes_append (m : Memory) (b : Byte) : bytes (append m b) = bytes m ++ [b] := by simp [bytes, append]

@[simp] theorem length_bytes (m : Memory) : (bytes m).length = m.length := by simp [bytes]

/-- An append keeps the canonical form. -/
theorem wf_append {m : Memory} (b : Byte) (h : wf m = true) : wf (append m b) = true := by
  rw [wf_iff] at *
  simp [append, h, List.range_succ]

@[simp] theorem appendAll_nil (m : Memory) : appendAll m [] = m := rfl

theorem appendAll_cons (m : Memory) (b : Byte) (bs : List Byte) :
    appendAll m (b :: bs) = appendAll (append m b) bs := rfl

@[simp] theorem length_appendAll (m : Memory) (bs : List Byte) : (appendAll m bs).length = m.length + bs.length := by
  induction bs generalizing m with
  | nil => rfl
  | cons b bs ih => rw [appendAll_cons, ih]; simp; omega

@[simp] theorem bytes_appendAll (m : Memory) (bs : List Byte) : bytes (appendAll m bs) = bytes m ++ bs := by
  induction bs generalizing m with
  | nil => simp
  | cons b bs ih => rw [appendAll_cons, ih]; simp

theorem wf_appendAll {m : Memory} (bs : List Byte) (h : wf m = true) : wf (appendAll m bs) = true := by
  induction bs generalizing m with
  | nil => exact h
  | cons b bs ih => exact ih (wf_append b h)

theorem appendAll_append (m : Memory) (bs cs : List Byte) :
    appendAll m (bs ++ cs) = appendAll (appendAll m bs) cs := by
  induction bs generalizing m with
  | nil => rfl
  | cons b bs ih => exact ih (append m b)

@[simp] theorem length_ofBytes (bs : List Byte) : (ofBytes bs).length = bs.length := by simp [ofBytes]

@[simp] theorem bytes_ofBytes (bs : List Byte) : bytes (ofBytes bs) = bs := by simp [ofBytes]

@[simp] theorem wf_ofBytes (bs : List Byte) : wf (ofBytes bs) = true := wf_appendAll bs wf_nil

theorem eq_zip (m : Memory) : m = (m.map Prod.fst).zip (bytes m) := by
  induction m with
  | nil => rfl
  | cons c m ih => simpa [bytes] using ih

/-- A canonical buffer is its bytes: equal bytes are equal memories. -/
theorem eq_of_bytes {m m' : Memory} (h : wf m = true) (h' : wf m' = true) (hb : bytes m = bytes m') : m = m' := by
  rw [wf_iff] at h h'
  have hl : m.length = m'.length := by simpa using congrArg List.length hb
  rw [eq_zip m, eq_zip m', h, h', hl, hb]

theorem eq_ofBytes {m : Memory} (h : wf m = true) : m = ofBytes (bytes m) :=
  eq_of_bytes h (wf_ofBytes _) (by simp)

/-- In a canonical buffer the byte at address `a` is the byte number `a`. -/
theorem read_eq {m : Memory} (h : wf m = true) (a : Nat) : read m a = (bytes m)[a]? := by
  rw [wf_iff] at h
  have hk : ∀ i (hi : i < m.length), (m[i]).1 = i := by
    intro i hi
    have : (m.map Prod.fst)[i]'(by simpa using hi) = i := by simp [h]
    simpa using this
  by_cases ha : a < m.length
  · have : m.find? (fun c => c.1 == a) = some m[a] := by
      rw [List.find?_eq_some_iff_getElem]
      refine ⟨by simp [hk a ha], a, ha, rfl, ?_⟩
      intro j hj
      simp [hk j (by omega)]
      omega
    simp [read, this, bytes, ha]
  · have : m.find? (fun c => c.1 == a) = none := by
      rw [List.find?_eq_none]
      intro c hc
      obtain ⟨i, hi, rfl⟩ := List.getElem_of_mem hc
      simp [hk i hi]
      omega
    simp [read, this, bytes]
    omega

/-- A byte already in the buffer reads the same after an append (20_memory.md R63: "never overwrites a byte"). -/
theorem read_appendAll_of_lt {m : Memory} (bs : List Byte) (h : wf m = true) {a : Nat} (ha : a < m.length) :
    read (appendAll m bs) a = read m a := by
  rw [read_eq (wf_appendAll bs h), read_eq h, bytes_appendAll, List.getElem?_append_left (by simpa using ha)]

end Memory

/-! ### Writing the sink -/

/-- All that `memWrite` can do (20_memory.md R63). -/
theorem memWrite_fits {bs : List Byte} {s : State} (h : s.snk.length + bs.length ≤ s.cfg.snkCap.toNat) :
    memWrite bs s = .go { s with snk := s.snk.appendAll bs } := by simp [memWrite]; omega

theorem memWrite_overflow {bs : List Byte} {s : State} (h : s.cfg.snkCap.toNat < s.snk.length + bs.length) :
    memWrite bs s = raiseFault .snkOverflow s.snkLen s := by simp [memWrite]; omega

@[simp] theorem length_be32Bytes (v : Word) : (be32Bytes v).length = 4 := rfl

/-- `be32` undoes `be32Bytes` (20_memory.md R66). -/
theorem be32_be32Bytes (v : Word) :
    be32 (v.extractLsb' 24 8) (v.extractLsb' 16 8) (v.extractLsb' 8 8) (v.extractLsb' 0 8) = v := by
  simp only [be32]
  apply BitVec.eq_of_getLsbD_eq
  intro i hi
  simp only [BitVec.getLsbD_append, BitVec.getLsbD_extractLsb']
  by_cases h0 : i < 8
  · simp [h0]
  by_cases h1 : i < 16
  · have : i - 8 < 8 := by omega
    have e : 8 + (i - 8) = i := by omega
    simp [h0, this, e]
  by_cases h2 : i < 24
  · have : ¬ i - 8 < 8 := by omega
    have t : i - 8 - 8 < 8 := by omega
    have e : 16 + (i - 8 - 8) = i := by omega
    simp [h0, this, t, e]
  · have : ¬ i - 8 < 8 := by omega
    have t : ¬ i - 8 - 8 < 8 := by omega
    have t' : i - 8 - 8 - 8 < 8 := by omega
    have e : 24 + (i - 8 - 8 - 8) = i := by omega
    simp [h0, this, t, t', e]

end Sys2Proof.Machine
end

