-- ==== Sys2Proof/Laws/Pack.lean ====
section
/-! SUPPORT. The bit packer (44_bit_io.md R170 to R173, R176): what pushing a bit string leaves in the sink and in the
partial byte, where it overflows, and the loop of BPPACK as one push of the codes of its bytes. -/

namespace Sys2Proof.Machine

/-! ### Bit strings and bytes -/

/-- The whole bytes of a bit string. -/
def fullBytes (q : List Bool) : List Byte := (List.range (q.length / 8)).map (packedByte q)

/-- The bits behind the last whole byte. -/
def restBits (q : List Bool) : List Bool := q.drop (8 * (q.length / 8))

@[simp] theorem length_fullBytes (q : List Bool) : (fullBytes q).length = q.length / 8 := by simp [fullBytes]

@[simp] theorem length_restBits (q : List Bool) : (restBits q).length = q.length % 8 := by
  rw [restBits, List.length_drop]; omega

@[simp] theorem length_pack (q : List Bool) : (pack q).length = (q.length + 7) / 8 := by simp [pack]

/-- Bit `7 - i` of byte `j` is the bit `8 j + i` of the string, or 0 behind its end (44_bit_io.md R173). -/
theorem packedByte_getLsbD (q : List Bool) (j : Nat) {i : Nat} (h : i < 8) :
    (packedByte q j).getLsbD (7 - i) = q.getD (8 * j + i) false := by
  rw [packedByte, BitVec.getLsbD_ofBoolListBE]
  have : i = 0 ∨ i = 1 ∨ i = 2 ∨ i = 3 ∨ i = 4 ∨ i = 5 ∨ i = 6 ∨ i = 7 := by omega
  rcases this with rfl | rfl | rfl | rfl | rfl | rfl | rfl | rfl <;> rfl

theorem byte_ext {x y : Byte} (h : ∀ i < 8, x.getLsbD (7 - i) = y.getLsbD (7 - i)) : x = y := by
  apply BitVec.eq_of_getLsbD_eq
  intro i hi
  have := h (7 - i) (by omega)
  rwa [show 7 - (7 - i) = i by omega] at this

theorem packedByte_congr {p q : List Bool} {i j : Nat}
    (h : ∀ m < 8, p.getD (8 * i + m) false = q.getD (8 * j + m) false) : packedByte p i = packedByte q j := by
  apply byte_ext
  intro m hm
  rw [packedByte_getLsbD _ _ hm, packedByte_getLsbD _ _ hm, h m hm]

theorem getD_append_left {p q : List Bool} {i : Nat} (h : i < p.length) : (p ++ q).getD i false = p.getD i false := by
  rw [List.getD_eq_getElem?_getD, List.getElem?_append_left h, ← List.getD_eq_getElem?_getD]

theorem getD_append_right {p q : List Bool} {i : Nat} (h : p.length ≤ i) :
    (p ++ q).getD i false = q.getD (i - p.length) false := by
  rw [List.getD_eq_getElem?_getD, List.getElem?_append_right h, ← List.getD_eq_getElem?_getD]

/-- A byte's bits in front of a bit string are its first whole byte. -/
theorem fullBytes_cons {p q : List Bool} (h : p.length = 8) : fullBytes (p ++ q) = packedByte p 0 :: fullBytes q := by
  have e : (p ++ q).length / 8 = q.length / 8 + 1 := by rw [List.length_append, h]; omega
  rw [fullBytes, e, List.range_succ_eq_map, List.map_cons, fullBytes, List.map_map]
  congr 1
  · apply packedByte_congr
    intro m hm
    rw [getD_append_left (by omega)]
  · apply List.map_congr_left
    intro j _
    apply packedByte_congr
    intro m hm
    rw [getD_append_right (by omega)]
    congr 1
    omega

theorem restBits_cons {p q : List Bool} (h : p.length = 8) : restBits (p ++ q) = restBits q := by
  have e : 8 * ((p ++ q).length / 8) = p.length + 8 * (q.length / 8) := by rw [List.length_append, h]; omega
  rw [restBits, e, List.drop_append, restBits]
  have e1 : p.length + 8 * (q.length / 8) - p.length = 8 * (q.length / 8) := by omega
  rw [e1, List.drop_eq_nil_of_le (by omega), List.nil_append]

theorem fullBytes_short {q : List Bool} (h : q.length < 8) : fullBytes q = [] := by
  have : q.length / 8 = 0 := by omega
  simp [fullBytes, this]

theorem restBits_short {q : List Bool} (h : q.length < 8) : restBits q = q := by
  have : q.length / 8 = 0 := by omega
  simp [restBits, this]

/-- The packed bytes are the whole bytes and, where bits are left, one byte for them (44_bit_io.md R173). -/
theorem pack_eq (q : List Bool) :
    pack q = fullBytes q ++ if restBits q = [] then [] else [packedByte (restBits q) 0] := by
  have hr : restBits q = [] ↔ q.length % 8 = 0 := by rw [← List.length_eq_zero_iff, length_restBits]
  by_cases h : q.length % 8 = 0
  · have e : (q.length + 7) / 8 = q.length / 8 := by omega
    rw [if_pos (hr.mpr h), List.append_nil, pack, e, fullBytes]
  · have e : (q.length + 7) / 8 = q.length / 8 + 1 := by omega
    rw [if_neg (mt hr.mp h), pack, e, List.range_succ, List.map_append, fullBytes]
    congr 1
    rw [List.map_singleton]
    congr 1
    apply packedByte_congr
    intro m hm
    rw [restBits, List.getD_eq_getElem?_getD, List.getD_eq_getElem?_getD, List.getElem?_drop]
    congr 2
    omega

@[simp] theorem packedByte_nil : packedByte [] 0 = 0#8 := by decide

/-! ### One bit -/

/-- The packer holds the bits `r` (44_bit_io.md R170). -/
def Holds (r : List Bool) (s : State) : Prop :=
  s.bpN = BitVec.ofNat 3 r.length ∧ s.bpAcc = packedByte r 0 ∧ r.length < 8

theorem setBit_getLsbD (x : Byte) {k i : Nat} (hk : k < 8) (hi : i < 8) (b : Bool) :
    (setBit x k b).getLsbD i = if i = k then b else x.getLsbD i := by
  have one : (1#8 <<< k).getLsbD i = decide (i = k) := by
    rw [BitVec.getLsbD_shiftLeft, BitVec.getLsbD_one]
    by_cases h : i = k
    · subst h; simp [hi]
    · by_cases h2 : i < k
      · simp [h, h2]
      · have : i - k ≠ 0 := by omega
        simp [h, this]
  unfold setBit
  split
  · rw [BitVec.getLsbD_or, one]
    by_cases h : i = k <;> simp [h, ‹b = true›]
  · rw [BitVec.getLsbD_and, BitVec.getLsbD_not, one]
    by_cases h : i = k <;> simp [h, hi, ‹¬ b = true›]

/-- A bit pushed lands behind the bits the packer holds (44_bit_io.md R171). -/
theorem setBit_packedByte {r : List Bool} (h : r.length < 8) (b : Bool) :
    setBit (packedByte r 0) (7 - r.length) b = packedByte (r ++ [b]) 0 := by
  apply byte_ext
  intro i hi
  rw [setBit_getLsbD _ (by omega) (by omega), packedByte_getLsbD _ _ hi, packedByte_getLsbD _ _ hi, Nat.mul_zero,
    Nat.zero_add]
  rcases Nat.lt_trichotomy i r.length with h1 | h1 | h1
  · rw [if_neg (by omega), getD_append_left h1]
  · rw [if_pos (by omega), getD_append_right (by omega), h1, Nat.sub_self]; rfl
  · rw [if_neg (by omega), List.getD_eq_default _ _ (by omega), List.getD_eq_default _ _ (by simp; omega)]

theorem pushBit_short {r : List Bool} {s : State} (h : Holds r s) (b : Bool) (hr : r.length < 7) :
    pushBit b s = .go { s with bpAcc := packedByte (r ++ [b]) 0, bpN := BitVec.ofNat 3 (r.length + 1) } := by
  obtain ⟨h1, h2, h3⟩ := h
  have e : s.bpN.toNat = r.length := by rw [h1, BitVec.toNat_ofNat, Nat.mod_eq_of_lt h3]
  have n7 : s.bpN ≠ 7#3 := by
    intro e'
    rw [e'] at e
    have : (7#3).toNat = 7 := rfl
    omega
  simp only [pushBit, if_neg n7, e]
  rw [h2, setBit_packedByte h3, h1, BitVec.ofNat_add]

theorem emitAcc_fits {s : State} (h : s.snk.length + 1 ≤ s.cfg.snkCap.toNat) :
    emitAcc s = .go { s with snk := s.snk.append s.bpAcc, bpAcc := 0#8, bpN := 0#3 } := by
  rw [emitAcc, snkAppend, memWrite_fits (by simpa using h)]; rfl

theorem emitAcc_overflow {s : State} (h : s.cfg.snkCap.toNat < s.snk.length + 1) :
    emitAcc s = raiseFault .snkOverflow s.snkLen s := by
  rw [emitAcc, snkAppend, memWrite_overflow (by simpa using h)]; rfl

theorem pushBit_full {r : List Bool} {s : State} (h : Holds r s) (b : Bool) (hr : r.length = 7) :
    pushBit b s = emitAcc { s with bpAcc := packedByte (r ++ [b]) 0 } := by
  obtain ⟨h1, h2, h3⟩ := h
  have e : s.bpN = 7#3 := by rw [h1, hr]
  have e' : s.bpN.toNat = r.length := by rw [e, hr]; rfl
  simp only [pushBit, if_pos e, e']
  rw [h2, setBit_packedByte h3]

theorem pushBit_full_fits {r : List Bool} {s : State} (h : Holds r s) (b : Bool) (hr : r.length = 7)
    (hfit : s.snk.length + 1 ≤ s.cfg.snkCap.toNat) : pushBit b s = .go { s with
      snk := s.snk.append (packedByte (r ++ [b]) 0), bpAcc := 0#8, bpN := 0#3 } := by
  rw [pushBit_full h b hr, emitAcc_fits]
  exact hfit

theorem pushBit_full_overflow {r : List Bool} {s : State} (h : Holds r s) (b : Bool) (hr : r.length = 7)
    (hfull : s.snk.length = s.cfg.snkCap.toNat) :
    pushBit b s = .raised (enterFault .snkOverflow s.cfg.snkCap s) := by
  have e : s.snkLen = s.cfg.snkCap := by rw [State.snkLen, hfull]; simp
  rw [pushBit_full h b hr, emitAcc_overflow]
  · rw [← e]; rfl
  · show s.cfg.snkCap.toNat < s.snk.length + 1
    omega

/-! ### A bit string -/

theorem pushBits_append (p q : List Bool) (s : State) :
    pushBits (p ++ q) s = (pushBits p s).bind (pushBits q) := by
  induction p generalizing s with
  | nil => rfl
  | cons b p ih =>
    rw [List.cons_append, pushBits, pushBits, Flow.bind_assoc]
    congr 1
    funext t
    exact ih t

/-- What pushing `q` behind the bits `r` leaves when the whole bytes fit. -/
theorem pushBits_fits {r : List Bool} {s : State} (h : Holds r s) (q : List Bool)
    (hfit : s.snk.length + (r ++ q).length / 8 ≤ s.cfg.snkCap.toNat) :
    pushBits q s = .go { s with
      snk := s.snk.appendAll (fullBytes (r ++ q)), bpAcc := packedByte (restBits (r ++ q)) 0
      bpN := BitVec.ofNat 3 (restBits (r ++ q)).length } := by
  induction q generalizing r s with
  | nil =>
    obtain ⟨h1, h2, h3⟩ := h
    rw [List.append_nil, fullBytes_short h3, restBits_short h3, ← h1, ← h2]
    rfl
  | cons b q ih =>
    have e : r ++ b :: q = (r ++ [b]) ++ q := by simp
    rw [pushBits, e]
    rw [e] at hfit
    by_cases h7 : r.length = 7
    · have l8 : (r ++ [b]).length = 8 := by simp [h7]
      have d : ((r ++ [b]) ++ q).length / 8 = q.length / 8 + 1 := by rw [List.length_append, l8]; omega
      rw [d] at hfit
      rw [pushBit_full_fits h b h7 (by omega), Flow.bind_go, ih (r := []) ⟨rfl, by simp, by simp⟩,
        fullBytes_cons l8, restBits_cons l8]
      · rfl
      · simp only [Memory.length_append, List.nil_append]; omega
    · have h6 : r.length < 7 := by have := h.2.2; omega
      rw [pushBit_short h b h6, Flow.bind_go, ih (r := r ++ [b]) ⟨by simp, rfl, by simp; omega⟩]
      exact hfit

/-- Where the whole bytes do not fit, the push ends in SnkOverflow with SNK full (20_memory.md R63). -/
theorem pushBits_overflow {r : List Bool} {s : State} (h : Holds r s) (q : List Bool)
    (hle : s.snk.length ≤ s.cfg.snkCap.toNat) (hover : s.cfg.snkCap.toNat < s.snk.length + (r ++ q).length / 8) :
    pushBits q s = .raised (enterFault .snkOverflow s.cfg.snkCap s) := by
  induction q generalizing r s with
  | nil =>
    have := h.2.2
    rw [List.append_nil] at hover
    omega
  | cons b q ih =>
    have e : r ++ b :: q = (r ++ [b]) ++ q := by simp
    rw [pushBits]
    rw [e] at hover
    by_cases h7 : r.length = 7
    · have l8 : (r ++ [b]).length = 8 := by simp [h7]
      have d : ((r ++ [b]) ++ q).length / 8 = q.length / 8 + 1 := by rw [List.length_append, l8]; omega
      rw [d] at hover
      by_cases hf : s.snk.length + 1 ≤ s.cfg.snkCap.toNat
      · rw [pushBit_full_fits h b h7 hf, Flow.bind_go]
        refine ih (r := []) ⟨rfl, by simp, by simp⟩ ?_ ?_
        · simpa using hf
        · simp only [Memory.length_append, List.nil_append]; omega
      · rw [pushBit_full_overflow h b h7 (by omega)]
        rfl
    · have h6 : r.length < 7 := by have := h.2.2; omega
      rw [pushBit_short h b h6, Flow.bind_go]
      exact ih (r := r ++ [b]) ⟨by simp, rfl, by simp; omega⟩ hle hover

/-- `Flush` behind the bits `r`: one byte for them, or nothing (44_bit_io.md R172). -/
theorem flush_holds {r : List Bool} {s : State} (h : Holds r s)
    (hfit : s.snk.length + (if r = [] then 0 else 1) ≤ s.cfg.snkCap.toNat) :
    flush s = .go { s with
      snk := s.snk.appendAll (if r = [] then [] else [packedByte r 0]), bpAcc := 0#8, bpN := 0#3 } := by
  obtain ⟨h1, h2, h3⟩ := h
  by_cases hr : r = []
  · subst hr
    have e1 : s.bpN = 0#3 := h1
    have e2 : s.bpAcc = 0#8 := by rw [h2]; simp
    rw [flush, if_pos e1, if_pos rfl, ← e1, ← e2]
    rfl
  · have : 0 < r.length := List.length_pos_iff.mpr hr
    have n0 : s.bpN ≠ 0#3 := by
      intro e
      have := congrArg BitVec.toNat (h1.symm.trans e)
      simp at this
      omega
    rw [if_neg hr] at hfit
    rw [flush, if_neg n0, if_neg hr, emitAcc_fits hfit, h2]
    rfl

theorem flush_overflow {r : List Bool} {s : State} (h : Holds r s) (hr : r ≠ [])
    (hfull : s.snk.length = s.cfg.snkCap.toNat) : flush s = .raised (enterFault .snkOverflow s.cfg.snkCap s) := by
  obtain ⟨h1, h2, h3⟩ := h
  have : 0 < r.length := List.length_pos_iff.mpr hr
  have n0 : s.bpN ≠ 0#3 := by
    intro e
    have := congrArg BitVec.toNat (h1.symm.trans e)
    simp at this
    omega
  have : s.snkLen = s.cfg.snkCap := by rw [State.snkLen, hfull]; simp
  rw [flush, if_neg n0, emitAcc_overflow (by omega), this]
  rfl

/-! ### The loop of BPPACK -/

/-- What pushing keeps: everything but SNK and the partial byte. -/
theorem pushBits_go {q : List Bool} {s t : State} (h : pushBits q s = .go t) :
    ∃ bs acc n, t = { s with snk := s.snk.appendAll bs, bpAcc := acc, bpN := n } := by
  induction q generalizing s with
  | nil =>
    injection h with h
    exact ⟨[], s.bpAcc, s.bpN, h.symm⟩
  | cons b q ih =>
    have one : ∀ u, pushBit b s = .go u → ∃ bs acc n, u = { s with snk := s.snk.appendAll bs, bpAcc := acc, bpN := n } := by
      intro u hu
      simp only [pushBit] at hu
      split at hu
      · simp only [emitAcc, snkAppend, memWrite] at hu
        split at hu
        · exact absurd hu (by simp [raiseFault])
        · injection hu with hu
          exact ⟨[_], 0#8, 0#3, hu.symm⟩
      · injection hu with hu
        exact ⟨[], _, _, hu.symm⟩
    rw [pushBits] at h
    cases hb : pushBit b s with
    | go u =>
      rw [hb] at h
      obtain ⟨bs, acc, n, rfl⟩ := one u hb
      obtain ⟨bs', acc', n', rfl⟩ := ih h
      refine ⟨bs ++ bs', acc', n', ?_⟩
      rw [Memory.appendAll_append]
    | raised u => rw [hb] at h; exact absurd h (by simp)
    | stuck f => rw [hb] at h; exact absurd h (by simp)

/-- Bytes that all have a code are one push of their codes; then the loop goes on with the bytes behind them. -/
theorem packFrom_codes (i : Nat) (bs cs : List Byte) {s : State} (h : ∀ b ∈ bs, present s.freq b = true) :
    packFrom i (bs ++ cs) s = (pushBits (codeString s.codeLen s.codeBits bs) s).bind (packFrom (i + bs.length) cs) := by
  induction bs generalizing i s with
  | nil => rfl
  | cons b bs ih =>
    have e : codeString s.codeLen s.codeBits (b :: bs) =
        codeOf s.codeLen s.codeBits b ++ codeString s.codeLen s.codeBits bs := rfl
    rw [List.cons_append, packFrom, if_pos (h b (by simp)), e, pushBits_append, Flow.bind_assoc]
    cases hp : pushBits (codeOf s.codeLen s.codeBits b) s with
    | go t =>
      obtain ⟨_, _, _, rfl⟩ := pushBits_go hp
      rw [Flow.bind_go, Flow.bind_go, ih (i + 1)]
      · have : i + 1 + bs.length = i + (b :: bs).length := by rw [List.length_cons]; omega
        rw [this]
      · exact fun x hx => h x (by simp [hx])
    | raised _ => rfl
    | stuck _ => rfl

/-- BPPACK on a source that begins with bytes that have a code: one push of those codes, then the bytes behind them
(44_bit_io.md R176). -/
theorem bppackBody_codes {s : State} {bs cs : List Byte} (hc : s.cdv = true) (hs : s.src.bytes = bs ++ cs)
    (h : ∀ b ∈ bs, present s.freq b = true) : bppackBody s =
      (pushBits (codeString s.codeLen s.codeBits bs) { s with bpAcc := 0#8, bpN := 0#3 }).bind
        fun t => (packFrom bs.length cs t).bind flush := by
  rw [bppackBody, if_neg (by simp [hc]), hs, packFrom_codes 0 bs cs, Flow.bind_assoc, Nat.zero_add]
  exact h

theorem codeString_append (len : Vector (BitVec 8) 256) (bits : Vector CodeWord 256) (bs cs : List Byte) :
    codeString len bits (bs ++ cs) = codeString len bits bs ++ codeString len bits cs := by simp [codeString]

end Sys2Proof.Machine
end

