-- ==== Sys2Proof/Laws/Tables.lean ====
section
/-! SUPPORT. The tables: reads after writes, the set bits of a table, the present symbols, and what FTCOUNT counts. -/

namespace Sys2Proof.Machine

/-! ### FREQ -/

@[simp] theorem freqAt_freqSet_self (t : Vector Word 256) (x : Byte) (v : Word) : freqAt (freqSet t x v) x = v := by
  simp [freqAt, freqSet]

theorem freqAt_freqSet_ne (t : Vector Word 256) {x y : Byte} (v : Word) (h : x ≠ y) :
    freqAt (freqSet t x v) y = freqAt t y := by
  have : x.toNat ≠ y.toNat := fun e => h (BitVec.eq_of_toNat_eq e)
  simp [freqAt, freqSet, this]

theorem freqAt_freqSet (t : Vector Word 256) (x y : Byte) (v : Word) :
    freqAt (freqSet t x v) y = if x = y then v else freqAt t y := by
  split
  · subst_vars; simp
  · exact freqAt_freqSet_ne t v ‹_›

@[simp] theorem freqAt_zero (x : Byte) : freqAt (Vector.replicate 256 0#32) x = 0#32 := by simp [freqAt]

/-- Two tables that agree on every symbol are equal. -/
theorem freq_ext {t t' : Vector Word 256} (h : ∀ x, freqAt t x = freqAt t' x) : t = t' := by
  apply Vector.ext
  intro i hi
  have := h (BitVec.ofNat 8 i)
  simpa [freqAt, Nat.mod_eq_of_lt hi] using this

theorem present_iff {t : Vector Word 256} {x : Byte} : present t x = true ↔ freqAt t x ≠ 0#32 := by simp [present]

/-! ### Tables built from a list -/

theorem padTable_getElem {α : Type} {n : Nat} (d : α) (l : List α) {i : Nat} (hi : i < n) :
    (padTable n d l)[i] = l.getD i d := by
  simp only [padTable, Vector.getElem_mk, List.getElem_toArray, List.getElem_append, List.getElem_take,
    List.getElem_replicate, List.length_take]
  by_cases h : i < l.length
  · simp [hi, h]
  · simp [hi, h]

theorem padTable_getElem? {α : Type} {n : Nat} (d : α) (l : List α) {i : Nat} (hi : i < n) :
    (padTable n d l)[i]? = some (l.getD i d) := by
  rw [Vector.getElem?_eq_getElem hi, padTable_getElem]

/-! ### The set bits of a table -/

theorem mem_setIds {bits : List Bool} {i n : Nat} : n ∈ setIds i bits ↔ i ≤ n ∧ bits[n - i]? = some true := by
  induction bits generalizing i with
  | nil => simp [setIds]
  | cons q rest ih =>
    have key : n ∈ setIds i (q :: rest) ↔ (q = true ∧ n = i) ∨ n ∈ setIds (i + 1) rest := by
      cases q <;> simp [setIds]
    rw [key, ih]
    rcases Nat.lt_trichotomy n i with h | rfl | h
    · simp; omega
    · simp
    · have e : n - i = (n - (i + 1)) + 1 := by omega
      have h' : i + 1 ≤ n := h
      rw [e]
      simp [Nat.ne_of_gt h, Nat.le_of_lt h, h']

theorem setIds_sorted (i : Nat) (bits : List Bool) : (setIds i bits).Pairwise (· < ·) := by
  induction bits generalizing i with
  | nil => simp [setIds]
  | cons q rest ih =>
    cases q
    · exact ih (i + 1)
    · refine List.Pairwise.cons (fun n hn => ?_) (ih (i + 1))
      have := (mem_setIds.mp hn).1
      omega

theorem setIds_nodup (i : Nat) (bits : List Bool) : (setIds i bits).Nodup :=
  (setIds_sorted i bits).imp fun h => Nat.ne_of_lt h

theorem length_setIds (i : Nat) (bits : List Bool) : (setIds i bits).length = bits.count true := by
  induction bits generalizing i with
  | nil => rfl
  | cons q rest ih => cases q <;> simp [setIds, ih]

theorem setIds_replicate_false (i n : Nat) : setIds i (List.replicate n false) = [] := by
  induction n generalizing i with
  | zero => rfl
  | succ n ih => simpa [setIds, List.replicate_succ] using ih (i + 1)

/-! ### The present symbols -/

theorem mem_presentSymbols {t : Vector Word 256} {x : Byte} : x ∈ presentSymbols t ↔ present t x = true := by
  have hx : x.toNat < 256 := x.isLt
  simp only [presentSymbols, List.mem_map, mem_setIds, Nat.zero_le, true_and, Nat.sub_zero]
  constructor
  · rintro ⟨n, hn, rfl⟩
    have hlt : n < 256 := by
      by_contra h
      rw [List.getElem?_eq_none (by simp; omega)] at hn
      exact absurd hn (by simp)
    rw [List.getElem?_map, Vector.getElem?_toList, Vector.getElem?_eq_getElem hlt] at hn
    simpa [present, freqAt, Nat.mod_eq_of_lt hlt] using hn
  · intro h
    refine ⟨x.toNat, ?_, by simp⟩
    rw [List.getElem?_map, Vector.getElem?_toList, Vector.getElem?_eq_getElem hx]
    simpa [present, freqAt] using h

theorem presentSymbols_sorted (t : Vector Word 256) : (presentSymbols t).Pairwise (fun x y => x.toNat < y.toNat) := by
  rw [presentSymbols, List.pairwise_map]
  have lt : ∀ n ∈ setIds 0 (t.toList.map fun f => f != 0#32), n < 256 := by
    intro n hn
    have := (mem_setIds.mp hn).2
    by_contra h
    rw [List.getElem?_eq_none (by simp; omega)] at this
    exact absurd this (by simp)
  refine List.Pairwise.imp_of_mem ?_ (setIds_sorted 0 _)
  intro a b ha hb hab
  simpa [Nat.mod_eq_of_lt (lt a ha), Nat.mod_eq_of_lt (lt b hb)] using hab

theorem presentSymbols_nodup (t : Vector Word 256) : (presentSymbols t).Nodup :=
  (presentSymbols_sorted t).imp fun h e => by subst e; exact absurd h (by omega)

theorem presentCount_le (t : Vector Word 256) : presentCount t ≤ 256 := by
  have h := List.count_le_length (a := true) (l := t.toList.map fun f => f != 0#32)
  simpa [presentCount, presentSymbols, length_setIds] using h

@[simp] theorem presentSymbols_zero : presentSymbols (Vector.replicate 256 0#32) = [] := by
  rw [List.eq_nil_iff_forall_not_mem]
  intro x
  simp [mem_presentSymbols, present]

theorem presentCount_eq_zero {t : Vector Word 256} : presentCount t = 0 ↔ ∀ x, freqAt t x = 0#32 := by
  rw [presentCount, List.length_eq_zero_iff, List.eq_nil_iff_forall_not_mem]
  simp [mem_presentSymbols, present]

/-! ### What FTCOUNT counts -/

theorem foldl_bump (bs : List Byte) (t : Vector Word 256) (x : Byte) :
    freqAt (bs.foldl bump t) x = freqAt t x + BitVec.ofNat 32 (bs.count x) := by
  induction bs generalizing t with
  | nil => simp
  | cons b bs ih =>
    rw [List.foldl_cons, ih, bump, freqAt_freqSet, List.count_cons]
    by_cases h : b = x
    · subst h
      simp only [beq_self_eq_true, if_true, BitVec.ofNat_add]
      rw [BitVec.add_assoc, BitVec.add_comm (1#32)]
    · simp [h]

/-- FREQ[x] after FTCOUNT is the number of bytes of SRC equal to x (41_frequency_table.md R130). -/
theorem freqAt_countBytes (bs : List Byte) (x : Byte) :
    freqAt (countBytes bs) x = BitVec.ofNat 32 (bs.count x) := by simp [countBytes, foldl_bump]

/-- A byte of a buffer shorter than 2^32 is present in its count (41_frequency_table.md R131). -/
theorem present_countBytes {bs : List Byte} (h : bs.length < 2 ^ 32) {x : Byte} :
    present (countBytes bs) x = true ↔ x ∈ bs := by
  rw [present_iff, freqAt_countBytes, ← List.count_pos_iff]
  have hc : bs.count x < 2 ^ 32 := Nat.lt_of_le_of_lt List.count_le_length h
  constructor
  · intro hne
    by_contra h0
    exact hne (by rw [Nat.eq_zero_of_not_pos h0])
  · intro hpos e
    have := congrArg BitVec.toNat e
    simp only [BitVec.toNat_ofNat, Nat.mod_eq_of_lt hc] at this
    omega

end Sys2Proof.Machine
end

