-- ==== Sys2Proof/Laws/Queue.lean ====
section
/-! SUPPORT. The build queue: `before` is a strict total order (42_tree_builder.md R143), Pop takes the least entry
(R144), and what a pop and a merge do to the set of entries. -/

namespace Sys2Proof.Machine

namespace Build

/-! ### The order -/

theorem before_iff (b : Build) (m n : Nat) :
    b.before m n = true ↔ b.key m < b.key n ∨ (b.key m = b.key n ∧ m < n) := by simp [before]

theorem before_irrefl (b : Build) (n : Nat) : b.before n n = false := by simp [before]

theorem before_trans {b : Build} {m n p : Nat} (h : b.before m n = true) (h' : b.before n p = true) :
    b.before m p = true := by
  rw [before_iff] at *; omega

theorem before_total (b : Build) {m n : Nat} (h : m ≠ n) : b.before m n = true ∨ b.before n m = true := by
  rw [before_iff, before_iff]; omega

theorem before_asymm {b : Build} {m n : Nat} (h : b.before m n = true) : b.before n m = false := by
  rw [← Bool.not_eq_true, before_iff]; rw [before_iff] at h; omega

/-- Because K exceeds every tie-break sum, the order is the lexicographic one on weight, tie-break sum, node id
(42_tree_builder.md R143). -/
theorem before_lex (b : Build) (m n : Nat) :
    b.before m n = true ↔ (b.weight m).toNat < (b.weight n).toNat ∨
      ((b.weight m).toNat = (b.weight n).toNat ∧ ((b.tie m).toNat < (b.tie n).toNat ∨
        ((b.tie m).toNat = (b.tie n).toNat ∧ m < n))) := by
  have h1 := (b.tie m).isLt
  have h2 := (b.tie n).isLt
  rw [before_iff]
  simp only [key, keyK]
  omega

/-! ### The least entry -/

theorem least_eq_none {b : Build} {ids : List Nat} : b.least ids = none ↔ ids = [] := by
  cases ids with
  | nil => simp [least]
  | cons n rest =>
    simp only [least, reduceCtorEq, iff_false]
    cases b.least rest with
    | none => simp
    | some m => cases h : b.before m n <;> simp [h]

/-- The least entry is in the list and before every other (42_tree_builder.md R144). -/
theorem least_spec {b : Build} {ids : List Nat} {n : Nat} (h : b.least ids = some n) :
    n ∈ ids ∧ ∀ m ∈ ids, m ≠ n → b.before n m = true := by
  induction ids generalizing n with
  | nil => simp [least] at h
  | cons x rest ih =>
    simp only [least] at h
    cases hr : b.least rest with
    | none =>
      rw [hr] at h
      rw [least_eq_none.mp hr]
      cases h
      simp
    | some y =>
      rw [hr] at h
      obtain ⟨hy, hmin⟩ := ih hr
      cases hb : b.before y x with
      | true =>
        simp only [hb, if_true, Option.some.injEq] at h
        subst h
        refine ⟨List.mem_cons_of_mem _ hy, fun m hm hne => ?_⟩
        rcases List.mem_cons.mp hm with rfl | hm
        · exact hb
        · exact hmin m hm hne
      | false =>
        simp only [hb, Bool.false_eq_true, if_false, Option.some.injEq] at h
        subst h
        refine ⟨List.mem_cons_self, fun m hm hne => ?_⟩
        rcases List.mem_cons.mp hm with rfl | hm
        · exact absurd rfl hne
        · by_cases hmy : m = y
          · subst hmy
            exact (b.before_total (Ne.symm hne)).resolve_right (by simp [hb])
          · by_cases e : x = y
            · subst e
              exact hmin m hm hmy
            · exact before_trans ((b.before_total e).resolve_right (by simp [hb])) (hmin m hm hmy)

/-! ### The set of entries -/

theorem mem_queue {b : Build} {n : Nat} : n ∈ b.queue ↔ b.inq[n]? = some true := by
  simp [queue, mem_setIds]

theorem queue_nodup (b : Build) : b.queue.Nodup := setIds_nodup 0 _

theorem lt_of_mem_queue {b : Build} {n : Nat} (h : n ∈ b.queue) : n < 511 := by
  rw [mem_queue] at h
  by_contra hn
  rw [Vector.getElem?_eq_none (by omega)] at h
  exact absurd h (by simp)

@[simp] theorem remove_w (b : Build) (n : Nat) : (b.remove n).w = b.w := rfl
@[simp] theorem remove_t (b : Build) (n : Nat) : (b.remove n).t = b.t := rfl
@[simp] theorem remove_l (b : Build) (n : Nat) : (b.remove n).l = b.l := rfl
@[simp] theorem remove_r (b : Build) (n : Nat) : (b.remove n).r = b.r := rfl
@[simp] theorem remove_k (b : Build) (n : Nat) : (b.remove n).k = b.k := rfl
@[simp] theorem remove_weight (b : Build) (n m : Nat) : (b.remove n).weight m = b.weight m := rfl
@[simp] theorem remove_tie (b : Build) (n m : Nat) : (b.remove n).tie m = b.tie m := rfl
@[simp] theorem remove_before (b : Build) (n m p : Nat) : (b.remove n).before m p = b.before m p := rfl

theorem mem_queue_remove {b : Build} {n m : Nat} : m ∈ (b.remove n).queue ↔ m ∈ b.queue ∧ m ≠ n := by
  rw [mem_queue, mem_queue, remove, Vector.getElem?_setIfInBounds]
  by_cases h : n = m
  · subst h
    by_cases h' : n < 511 <;> simp [h']
  · simp [h, Ne.symm h]

/-- Taking an entry out takes exactly it out. -/
theorem queue_remove_perm {b : Build} {n : Nat} : (b.remove n).queue.Perm (b.queue.erase n) := by
  rw [List.perm_ext_iff_of_nodup (queue_nodup _) ((queue_nodup b).erase n)]
  intro m
  rw [mem_queue_remove, (queue_nodup b).mem_erase_iff, and_comm]

/-- All that Pop does (42_tree_builder.md R144): it takes the entry that is before every other, and only that one. -/
theorem pop_spec {b b' : Build} {n : Nat} (h : b.pop = some (n, b')) :
    n ∈ b.queue ∧ (∀ m ∈ b.queue, m ≠ n → b.before n m = true) ∧ b' = b.remove n := by
  simp only [pop] at h
  cases hl : b.least b.queue with
  | none => rw [hl] at h; exact absurd h (by simp)
  | some y =>
    rw [hl] at h
    simp only [Option.some.injEq, Prod.mk.injEq] at h
    obtain ⟨rfl, rfl⟩ := h
    obtain ⟨h1, h2⟩ := least_spec hl
    exact ⟨h1, h2, rfl⟩

/-- Pop succeeds exactly where an entry is left. -/
theorem pop_eq_none {b : Build} : b.pop = none ↔ b.queue = [] := by
  rw [pop, ← least_eq_none (b := b)]
  cases b.least b.queue <;> simp

theorem exists_pop {b : Build} (h : b.queue ≠ []) : ∃ n, b.pop = some (n, b.remove n) := by
  cases hp : b.pop with
  | none => exact absurd (pop_eq_none.mp hp) h
  | some p =>
    obtain ⟨n, b'⟩ := p
    exact ⟨n, by rw [(pop_spec hp).2.2]⟩

/-! ### A merge -/

theorem mem_queue_join {b : Build} {a c m : Nat} (h : 256 + b.k < 511) :
    m ∈ (b.join a c).queue ↔ m ∈ b.queue ∨ m = 256 + b.k := by
  rw [mem_queue, mem_queue, join]
  simp only [Vector.getElem?_setIfInBounds]
  by_cases e : 256 + b.k = m
  · subst e; simp [h]
  · simp [e, Ne.symm e]

theorem queue_join_perm {b : Build} {a c : Nat} (h : 256 + b.k < 511) (hn : 256 + b.k ∉ b.queue) :
    (b.join a c).queue.Perm ((256 + b.k) :: b.queue) := by
  rw [List.perm_ext_iff_of_nodup (queue_nodup _) (List.nodup_cons.mpr ⟨hn, queue_nodup b⟩)]
  intro m
  rw [mem_queue_join h, List.mem_cons, or_comm]

theorem join_weight {b : Build} {a c n : Nat} (h : 256 + b.k < 511) :
    (b.join a c).weight n = if n = 256 + b.k then b.weight a + b.weight c else b.weight n := by
  simp only [weight, join, Vector.getElem?_setIfInBounds]
  by_cases e : n = 256 + b.k
  · subst e; simp [h]
  · simp [e, Ne.symm e]

theorem join_tie {b : Build} {a c n : Nat} (h : 256 + b.k < 511) :
    (b.join a c).tie n = if n = 256 + b.k then b.tie a + b.tie c else b.tie n := by
  simp only [tie, join, Vector.getElem?_setIfInBounds]
  by_cases e : n = 256 + b.k
  · subst e; simp [h]
  · simp [e, Ne.symm e]

theorem join_l {b : Build} {a c j : Nat} (h : b.k < 255) :
    (b.join a c).l[j]?.getD 0#9 = if j = b.k then BitVec.ofNat 9 c else b.l[j]?.getD 0#9 := by
  simp only [join, Vector.getElem?_setIfInBounds]
  by_cases e : j = b.k
  · subst e; simp [h]
  · simp [e, Ne.symm e]

theorem join_r {b : Build} {a c j : Nat} (h : b.k < 255) :
    (b.join a c).r[j]?.getD 0#9 = if j = b.k then BitVec.ofNat 9 a else b.r[j]?.getD 0#9 := by
  simp only [join, Vector.getElem?_setIfInBounds]
  by_cases e : j = b.k
  · subst e; simp [h]
  · simp [e, Ne.symm e]

@[simp] theorem join_k (b : Build) (a c : Nat) : (b.join a c).k = b.k + 1 := rfl

/-- All that a pass does where two entries or more are left (42_tree_builder.md R145): the least is taken, then the
least of the others, and the two are merged. -/
theorem mergeTwo_spec {b : Build} (h : 1 < b.queue.length) :
    ∃ a c, a ∈ b.queue ∧ c ∈ b.queue ∧ a ≠ c ∧ (∀ m ∈ b.queue, m ≠ a → b.before a m = true) ∧
      (∀ m ∈ b.queue, m ≠ a → m ≠ c → b.before c m = true) ∧ b.mergeTwo = ((b.remove a).remove c).join a c := by
  have hne : b.queue ≠ [] := by intro e; rw [e] at h; simp at h
  obtain ⟨a, ha⟩ := exists_pop hne
  obtain ⟨ha1, ha2, -⟩ := pop_spec ha
  have hne' : (b.remove a).queue ≠ [] := by
    intro e
    have hl := queue_remove_perm (b := b) (n := a) |>.length_eq
    rw [e, List.length_erase_of_mem ha1] at hl
    simp at hl
    omega
  obtain ⟨c, hc⟩ := exists_pop hne'
  obtain ⟨hc1, hc2, -⟩ := pop_spec hc
  rw [mem_queue_remove] at hc1
  refine ⟨a, c, ha1, hc1.1, Ne.symm hc1.2, ha2, fun m hm h1 h2 => ?_, by simp [mergeTwo, ha, hc]⟩
  exact hc2 m (mem_queue_remove.mpr ⟨hm, h1⟩) h2

end Build

end Sys2Proof.Machine
end

