-- ==== Sys2Proof/Laws/Tree.lean ====
section
/-! SUPPORT. What the merge loop of TBBUILD keeps (42_tree_builder.md R142, R145, R146): the entries of the queue, the
facts of every merge so far, the sums of weights and tie-break sums. -/

namespace Sys2Proof.Machine

namespace Build

/-- The left child of the node of merge `j`. -/
def lc (b : Build) (j : Nat) : Nat := (b.l[j]?.getD 0#9).toNat

/-- The right child of the node of merge `j`. -/
def rc (b : Build) (j : Nat) : Nat := (b.r[j]?.getD 0#9).toNat

/-- Node `n` is an entry after `j` merges. -/
def Entry (freq : Vector Word 256) (b : Build) (j n : Nat) : Prop :=
  inUse freq j n ∧ ∀ i < j, b.lc i ≠ n ∧ b.rc i ≠ n

/-- The facts of merge `j`. -/
def Pass (freq : Vector Word 256) (b : Build) (j : Nat) : Prop :=
  b.Entry freq j (b.rc j) ∧ b.Entry freq j (b.lc j) ∧ b.rc j ≠ b.lc j ∧
    (∀ n, b.Entry freq j n → n ≠ b.rc j → b.before (b.rc j) n = true) ∧
    (∀ n, b.Entry freq j n → n ≠ b.rc j → n ≠ b.lc j → b.before (b.lc j) n = true) ∧
    (b.weight (256 + j)).toNat = (b.weight (b.rc j)).toNat + (b.weight (b.lc j)).toNat ∧
    (b.tie (256 + j)).toNat = (b.tie (b.rc j)).toNat + (b.tie (b.lc j)).toNat

/-- The sum of the weights of the entries. -/
def sumW (b : Build) : Nat := (b.queue.map fun n => (b.weight n).toNat).sum

/-- The sum of the tie-break sums of the entries. -/
def sumT (b : Build) : Nat := (b.queue.map fun n => (b.tie n).toNat).sum

end Build

/-- The sum of all frequency counts. -/
def freqSum (freq : Vector Word 256) : Nat := ((presentSymbols freq).map fun x => (freqAt freq x).toNat).sum

/-- The sum of the present symbol values. -/
def symbolSum (freq : Vector Word 256) : Nat := ((presentSymbols freq).map fun x => x.toNat).sum

/-- What every pass of the loop keeps. -/
structure Build.Good (freq : Vector Word 256) (b : Build) : Prop where
  size : b.k + b.queue.length = presentCount freq
  pos : 1 ≤ b.queue.length
  mem : ∀ n, n ∈ b.queue ↔ b.Entry freq b.k n
  leafW : ∀ x : Byte, b.weight x.toNat = (freqAt freq x).setWidth 40
  leafT : ∀ x : Byte, b.tie x.toNat = if present freq x then x.setWidth 16 else 0#16
  pass : ∀ j < b.k, b.Pass freq j
  zeroNode : ∀ n, 256 + b.k ≤ n → b.weight n = 0#40 ∧ b.tie n = 0#16
  zeroChild : ∀ j, b.k ≤ j → b.lc j = 0 ∧ b.rc j = 0
  sumW : b.sumW = freqSum freq
  sumT : b.sumT = symbolSum freq

/-! ### Bounds -/

theorem sum_le_length_mul {l : List Nat} {m : Nat} (h : ∀ x ∈ l, x ≤ m) : l.sum ≤ l.length * m := by
  induction l with
  | nil => simp
  | cons x l ih =>
    have h1 := h x (by simp)
    have h2 := ih fun y hy => h y (by simp [hy])
    rw [List.sum_cons, List.length_cons, Nat.succ_mul]
    omega

/-- No weight sum wraps: 256 × (2^32 - 1) < 2^40 (42_tree_builder.md R142). -/
theorem freqSum_lt (freq : Vector Word 256) : freqSum freq < 2 ^ 40 := by
  have h1 : freqSum freq ≤ ((presentSymbols freq).map fun x => (freqAt freq x).toNat).length * (2 ^ 32 - 1) := by
    apply sum_le_length_mul
    intro y hy
    obtain ⟨x, -, rfl⟩ := List.mem_map.mp hy
    have := (freqAt freq x).isLt
    omega
  have h2 := presentCount_le freq
  rw [List.length_map] at h1
  have h3 : (presentSymbols freq).length * (2 ^ 32 - 1) ≤ 256 * (2 ^ 32 - 1) := Nat.mul_le_mul_right _ h2
  omega

/-- No tie-break sum wraps: 256 symbols below 256 add to less than 2^16 (42_tree_builder.md R142). -/
theorem symbolSum_lt (freq : Vector Word 256) : symbolSum freq < 2 ^ 16 := by
  have h1 : symbolSum freq ≤ ((presentSymbols freq).map fun x => x.toNat).length * 255 := by
    apply sum_le_length_mul
    intro y hy
    obtain ⟨x, -, rfl⟩ := List.mem_map.mp hy
    have := x.isLt
    omega
  have h2 := presentCount_le freq
  rw [List.length_map] at h1
  have h3 : (presentSymbols freq).length * 255 ≤ 256 * 255 := Nat.mul_le_mul_right _ h2
  omega

/-! ### The seed -/

theorem seed_weight_lt (freq : Vector Word 256) (x : Byte) :
    (seed freq).weight x.toNat = (freqAt freq x).setWidth 40 := by
  have hx : x.toNat < 256 := x.isLt
  rw [Build.weight, seed, padTable_getElem? _ _ (by omega)]
  simp [List.getD_eq_getElem?_getD, hx, freqAt]

theorem seed_tie_lt (freq : Vector Word 256) (x : Byte) :
    (seed freq).tie x.toNat = if present freq x then x.setWidth 16 else 0#16 := by
  have hx : x.toNat < 256 := x.isLt
  rw [Build.tie, seed, padTable_getElem? _ _ (by omega)]
  simp only [List.getD_eq_getElem?_getD, List.getElem?_map, List.getElem?_zipIdx, Vector.getElem?_toList,
    Vector.getElem?_eq_getElem hx, Option.map_some, Option.getD_some, Nat.zero_add]
  rw [present, freqAt]
  by_cases h : freq[x.toNat] = 0#32
  · simp [h]
  · simp [h]

theorem mem_seed_queue (freq : Vector Word 256) (n : Nat) :
    n ∈ (seed freq).queue ↔ n < 256 ∧ present freq (BitVec.ofNat 8 n) = true := by
  rw [Build.mem_queue, seed]
  by_cases h : n < 511
  · rw [padTable_getElem? _ _ h]
    by_cases h' : n < 256
    · simp [List.getD_eq_getElem?_getD, h', present, freqAt, Nat.mod_eq_of_lt h']
    · simp [List.getD_eq_getElem?_getD, h']
  · rw [Vector.getElem?_eq_none (by omega)]
    simp
    omega

theorem seed_queue (freq : Vector Word 256) : (seed freq).queue.Perm ((presentSymbols freq).map BitVec.toNat) := by
  rw [List.perm_ext_iff_of_nodup (Build.queue_nodup _)
    ((presentSymbols_nodup freq).map fun x y h => BitVec.eq_of_toNat_eq h)]
  intro n
  rw [mem_seed_queue, List.mem_map]
  constructor
  · rintro ⟨h, hp⟩
    exact ⟨BitVec.ofNat 8 n, mem_presentSymbols.mpr hp, by simp [Nat.mod_eq_of_lt h]⟩
  · rintro ⟨x, hx, rfl⟩
    exact ⟨x.isLt, by simpa using mem_presentSymbols.mp hx⟩

theorem seed_good {freq : Vector Word 256} (h : 1 ≤ presentCount freq) : (seed freq).Good freq where
  size := by
    have := (seed_queue freq).length_eq
    rw [List.length_map] at this
    simpa [presentCount, seed] using this
  pos := by
    have := (seed_queue freq).length_eq
    rw [List.length_map] at this
    rw [this]
    exact h
  mem := by
    intro n
    rw [mem_seed_queue]
    simp [Build.Entry, inUse, seed]
  leafW := seed_weight_lt freq
  leafT := seed_tie_lt freq
  pass := by intro j hj; simp [seed] at hj
  zeroNode := by
    intro n hn
    have hk : (seed freq).k = 0 := rfl
    rw [hk] at hn
    constructor
    · rw [Build.weight, seed]
      by_cases h : n < 511
      · rw [padTable_getElem? _ _ h]
        have : ¬ n < 256 := by omega
        simp [List.getD_eq_getElem?_getD, this]
      · rw [Vector.getElem?_eq_none (by omega)]; rfl
    · rw [Build.tie, seed]
      by_cases h : n < 511
      · rw [padTable_getElem? _ _ h, List.getD_eq_default _ _ (by simp; omega)]; rfl
      · rw [Vector.getElem?_eq_none (by omega)]; rfl
  zeroChild := by
    intro j _
    constructor
    · by_cases h : j < 255 <;> simp [Build.lc, seed, h]
    · by_cases h : j < 255 <;> simp [Build.rc, seed, h]
  sumW := by
    rw [Build.sumW, ((seed_queue freq).map _).sum_eq, List.map_map, freqSum]
    congr 1
    apply List.map_congr_left
    intro x _
    have := (freqAt freq x).isLt
    simp only [Function.comp, seed_weight_lt, BitVec.toNat_setWidth]
    omega
  sumT := by
    rw [Build.sumT, ((seed_queue freq).map _).sum_eq, List.map_map, symbolSum]
    congr 1
    apply List.map_congr_left
    intro x hx
    have := x.isLt
    simp only [Function.comp, seed_tie_lt, mem_presentSymbols.mp hx, if_true, BitVec.toNat_setWidth]
    omega

/-! ### A pass -/

namespace Build.Good

variable {freq : Vector Word 256} {b : Build}

theorem entry_lt {j n : Nat} (h : b.Entry freq j n) : n < 256 + j := by
  obtain ⟨h | h, -⟩ := h <;> omega

theorem sum_erase_two {l : List Nat} {f : Nat → Nat} {a c : Nat} (ha : a ∈ l) (hc : c ∈ l.erase a) :
    (l.map f).sum = f a + (f c + (((l.erase a).erase c).map f).sum) := by
  rw [((List.perm_cons_erase ha).map f).sum_eq, List.map_cons, List.sum_cons,
    ((List.perm_cons_erase hc).map f).sum_eq, List.map_cons, List.sum_cons]

/-- One pass of the merge loop keeps its invariant. -/
theorem mergeTwo (g : b.Good freq) (h : 1 < b.queue.length) : b.mergeTwo.Good freq := by
  obtain ⟨a, c, ha, hc, hac, hmin, hmin', e⟩ := mergeTwo_spec h
  have hcard := presentCount_le freq
  have hsize := g.size
  have hk : b.k < 255 := by omega
  have hm : 256 + b.k < 511 := by omega
  have hca : c ∈ b.queue.erase a := (b.queue_nodup.mem_erase_iff).mpr ⟨Ne.symm hac, hc⟩
  have alt : a < 256 + b.k := entry_lt ((g.mem a).mp ha)
  have clt : c < 256 + b.k := entry_lt ((g.mem c).mp hc)
  have hnew : 256 + b.k ∉ ((b.remove a).remove c).queue := by
    intro hx
    rw [mem_queue_remove, mem_queue_remove] at hx
    have := entry_lt ((g.mem _).mp hx.1.1)
    omega
  have hperm : b.mergeTwo.queue.Perm ((256 + b.k) :: (b.queue.erase a).erase c) := by
    rw [e]
    refine (queue_join_perm (b := (b.remove a).remove c) hm hnew).trans (List.Perm.cons _ ?_)
    exact queue_remove_perm.trans (queue_remove_perm.erase c)
  have hlen : b.mergeTwo.queue.length + 1 = b.queue.length := by
    rw [hperm.length_eq, List.length_cons, List.length_erase_of_mem hca, List.length_erase_of_mem ha]
    omega
  have kk : b.mergeTwo.k = b.k + 1 := by rw [e]; rfl
  have lcv : ∀ j, b.mergeTwo.lc j = if j = b.k then c else b.lc j := by
    intro j
    have := join_l (b := (b.remove a).remove c) (a := a) (c := c) (j := j) hk
    rw [lc, e, this]
    split
    · rename_i hj
      have hj' : j = b.k := hj
      simp only [hj', if_true, BitVec.toNat_ofNat]
      omega
    · rename_i hj
      have hj' : j ≠ b.k := hj
      simp [hj', lc]
  have rcv : ∀ j, b.mergeTwo.rc j = if j = b.k then a else b.rc j := by
    intro j
    have := join_r (b := (b.remove a).remove c) (a := a) (c := c) (j := j) hk
    rw [rc, e, this]
    split
    · rename_i hj
      have hj' : j = b.k := hj
      simp only [hj', if_true, BitVec.toNat_ofNat]
      omega
    · rename_i hj
      have hj' : j ≠ b.k := hj
      simp [hj', rc]
  have wv : ∀ n, b.mergeTwo.weight n = if n = 256 + b.k then b.weight a + b.weight c else b.weight n := by
    intro n; rw [e]; exact join_weight (b := (b.remove a).remove c) hm
  have tv : ∀ n, b.mergeTwo.tie n = if n = 256 + b.k then b.tie a + b.tie c else b.tie n := by
    intro n; rw [e]; exact join_tie (b := (b.remove a).remove c) hm
  have old : ∀ j ≤ b.k, ∀ n, b.mergeTwo.Entry freq j n ↔ b.Entry freq j n := by
    intro j hj n
    refine and_congr_right fun _ => forall₂_congr fun i hi => ?_
    have : i ≠ b.k := by omega
    simp [lcv, rcv, this]
  have bef : ∀ m n, m < 256 + b.k → n < 256 + b.k → b.mergeTwo.before m n = b.before m n := by
    intro m n h1 h2
    have n1 : m ≠ 256 + b.k := by omega
    have n2 : n ≠ 256 + b.k := by omega
    rw [Bool.eq_iff_iff, before_iff, before_iff]
    simp only [key, wv, tv, n1, n2, if_false]
  have wsum := g.sumW
  have tsum := g.sumT
  rw [Build.sumW, sum_erase_two ha hca] at wsum
  rw [Build.sumT, sum_erase_two ha hca] at tsum
  have wlt := freqSum_lt freq
  have tlt := symbolSum_lt freq
  have wadd : (b.weight a + b.weight c).toNat = (b.weight a).toNat + (b.weight c).toNat := by
    rw [BitVec.toNat_add, Nat.mod_eq_of_lt (by omega)]
  have tadd : (b.tie a + b.tie c).toNat = (b.tie a).toNat + (b.tie c).toNat := by
    rw [BitVec.toNat_add, Nat.mod_eq_of_lt (by omega)]
  have memErase : ∀ n, n ∈ (b.queue.erase a).erase c ↔ n ∈ b.queue ∧ n ≠ a ∧ n ≠ c := by
    intro n
    rw [(b.queue_nodup.erase a).mem_erase_iff, b.queue_nodup.mem_erase_iff]
    tauto
  refine ⟨by rw [kk]; omega, by omega, ?_, ?_, ?_, ?_, ?_, ?_, ?_, ?_⟩
  · intro n
    rw [hperm.mem_iff, List.mem_cons, memErase, kk, g.mem n]
    have split_last : b.mergeTwo.Entry freq (b.k + 1) n ↔
        (n = 256 + b.k ∨ inUse freq b.k n) ∧ (∀ i < b.k, b.lc i ≠ n ∧ b.rc i ≠ n) ∧ c ≠ n ∧ a ≠ n := by
      simp only [Entry, Nat.lt_succ_iff_lt_or_eq, or_imp, forall_and, forall_eq]
      have hu : inUse freq (b.k + 1) n ↔ n = 256 + b.k ∨ inUse freq b.k n := by
        have hr : 256 ≤ n ∧ n < 256 + (b.k + 1) ↔ n = 256 + b.k ∨ (256 ≤ n ∧ n < 256 + b.k) := by omega
        simp only [inUse, hr]
        tauto
      rw [hu]
      have : ∀ i < b.k, i ≠ b.k := fun i hi => by omega
      constructor
      · rintro ⟨h1, ⟨h2, h3⟩, h4, h5⟩
        refine ⟨h1, ⟨fun i hi => ?_, fun i hi => ?_⟩, ?_, ?_⟩
        · simpa [lcv, this i hi] using h2 i hi
        · simpa [rcv, this i hi] using h4 i hi
        · simpa [lcv] using h3
        · simpa [rcv] using h5
      · rintro ⟨h1, ⟨h2, h4⟩, h3, h5⟩
        refine ⟨h1, ⟨fun i hi => ?_, ?_⟩, fun i hi => ?_, ?_⟩
        · simpa [lcv, this i hi] using h2 i hi
        · simpa [lcv] using h3
        · simpa [rcv, this i hi] using h4 i hi
        · simpa [rcv] using h5
    rw [split_last]
    have fresh : n = 256 + b.k → (∀ i < b.k, b.lc i ≠ n ∧ b.rc i ≠ n) ∧ c ≠ n ∧ a ≠ n := by
      rintro rfl
      refine ⟨fun i hi => ?_, by omega, by omega⟩
      have p := g.pass i hi
      have h1 := entry_lt p.1
      have h2 := entry_lt p.2.1
      omega
    constructor
    · rintro (h1 | ⟨h1, h2, h3⟩)
      · exact ⟨Or.inl h1, fresh h1⟩
      · exact ⟨Or.inr h1.1, h1.2, Ne.symm h3, Ne.symm h2⟩
    · rintro ⟨h1 | h1, h2, h3, h4⟩
      · exact Or.inl h1
      · exact Or.inr ⟨⟨h1, h2⟩, Ne.symm h4, Ne.symm h3⟩
  · intro x
    have := x.isLt
    rw [wv, if_neg (by omega)]; exact g.leafW x
  · intro x
    have := x.isLt
    rw [tv, if_neg (by omega)]; exact g.leafT x
  · intro j hj
    rw [kk] at hj
    rcases Nat.lt_succ_iff_lt_or_eq.mp hj with hj | rfl
    · obtain ⟨p1, p2, p3, p4, p5, p6, p7⟩ := g.pass j hj
      have r1 := entry_lt p1
      have r2 := entry_lt p2
      have n1 : j ≠ b.k := by omega
      simp only [Pass, rcv, lcv, n1, if_false]
      refine ⟨(old j (by omega) _).mpr p1, (old j (by omega) _).mpr p2, p3, fun n hn h1 => ?_, fun n hn h1 h2 => ?_, ?_, ?_⟩
      · have hn' := (old j (by omega) n).mp hn
        rw [bef _ _ (by omega) (by have := entry_lt hn'; omega)]
        exact p4 n hn' h1
      · have hn' := (old j (by omega) n).mp hn
        rw [bef _ _ (by omega) (by have := entry_lt hn'; omega)]
        exact p5 n hn' h1 h2
      · rw [wv, wv, wv, if_neg (by omega), if_neg (by omega), if_neg (by omega)]; exact p6
      · rw [tv, tv, tv, if_neg (by omega), if_neg (by omega), if_neg (by omega)]; exact p7
    · simp only [Pass, rcv, lcv, if_true]
      have o := old b.k le_rfl
      refine ⟨(o _).mpr ((g.mem a).mp ha), (o _).mpr ((g.mem c).mp hc), hac, fun n hn h1 => ?_, fun n hn h1 h2 => ?_, ?_, ?_⟩
      · have hn' := (o n).mp hn
        rw [bef _ _ alt (entry_lt hn')]
        exact hmin n ((g.mem n).mpr hn') h1
      · have hn' := (o n).mp hn
        rw [bef _ _ clt (entry_lt hn')]
        exact hmin' n ((g.mem n).mpr hn') h1 h2
      · rw [wv, wv, wv, if_pos rfl, if_neg (by omega), if_neg (by omega)]; exact wadd
      · rw [tv, tv, tv, if_pos rfl, if_neg (by omega), if_neg (by omega)]; exact tadd
  · intro n hn
    rw [kk] at hn
    rw [wv, tv, if_neg (by omega), if_neg (by omega)]
    exact g.zeroNode n (by omega)
  · intro j hj
    rw [kk] at hj
    rw [lcv, rcv, if_neg (by omega), if_neg (by omega)]
    exact g.zeroChild j (by omega)
  · rw [Build.sumW, (hperm.map _).sum_eq, List.map_cons, List.sum_cons, wv, if_pos rfl, wadd, ← wsum,
      Nat.add_assoc]
    congr 2
    apply congrArg List.sum
    apply List.map_congr_left
    intro n hn
    have := entry_lt ((g.mem n).mp ((memErase n).mp hn).1)
    rw [wv, if_neg (by omega)]
  · rw [Build.sumT, (hperm.map _).sum_eq, List.map_cons, List.sum_cons, tv, if_pos rfl, tadd, ← tsum,
      Nat.add_assoc]
    congr 2
    apply congrArg List.sum
    apply List.map_congr_left
    intro n hn
    have := entry_lt ((g.mem n).mp ((memErase n).mp hn).1)
    rw [tv, if_neg (by omega)]

/-- The loop keeps the invariant, and with enough passes it ends with one entry (42_tree_builder.md R146). -/
theorem mergeAll (g : b.Good freq) (f : Nat) :
    (b.mergeAll f).Good freq ∧ (b.mergeAll f).queue.length ≤ max 1 (b.queue.length - f) := by
  induction f generalizing b with
  | zero => exact ⟨g, by simp [Build.mergeAll]⟩
  | succ f ih =>
    rw [Build.mergeAll]
    by_cases h : b.queue.length > 1
    · rw [if_pos h]
      have g' := g.mergeTwo h
      obtain ⟨h1, h2⟩ := ih g'
      have hs := g.size
      have hs' := g'.size
      have kk : b.mergeTwo.k = b.k + 1 := by
        obtain ⟨a, c, -, -, -, -, -, e⟩ := mergeTwo_spec h
        rw [e]; rfl
      refine ⟨h1, ?_⟩
      omega
    · rw [if_neg h]
      exact ⟨g, by omega⟩

end Build.Good

/-- After the loop of TBBUILD on a table that is not empty: one entry is left (42_tree_builder.md R146). -/
theorem merged_good {freq : Vector Word 256} (h : 1 ≤ presentCount freq) :
    (merged freq).Good freq ∧ (merged freq).queue.length = 1 ∧ (merged freq).k + 1 = presentCount freq := by
  have g := seed_good h
  obtain ⟨h1, h2⟩ := g.mergeAll 255
  have hp := h1.pos
  have hs := h1.size
  have hs' := g.size
  have hk : (seed freq).k = 0 := rfl
  have hc := presentCount_le freq
  have : (merged freq).queue.length = 1 := by rw [merged]; omega
  refine ⟨h1, this, ?_⟩
  rw [merged] at *
  omega

end Sys2Proof.Machine
end

