-- ==== Sys2Proof/Laws/Tbbuild.lean ====
section
/-! SUPPORT. What TBBUILD leaves (42_tree_builder.md R145, R146): it always finds a root on a table that is not empty,
the queue ends empty, and the node table is the one of the merges. -/

namespace Sys2Proof.Machine

/-- The entry of node `256 + j` in NODE_L or NODE_R. -/
theorem childAt_internal (t : Vector NodeId 255) {j : Nat} (hj : j < 256) :
    childAt t (BitVec.ofNat 9 (256 + j)) = t[j]?.getD 0#9 := by
  have e : (BitVec.ofNat 9 (256 + j)).toNat = 256 + j := by simp; omega
  rw [childAt, e, if_pos (by omega), Nat.add_sub_cancel_left]

theorem childAt_leaf (t : Vector NodeId 255) {n : NodeId} (h : n.toNat < 256) : childAt t n = 0#9 := by
  rw [childAt, if_neg (by omega)]

namespace Build

theorem nodeAt_w (b : Build) (n : NodeId) : nodeAt b.w n = b.weight n.toNat := rfl

theorem nodeAt_t (b : Build) (n : NodeId) : nodeAt b.t n = b.tie n.toNat := rfl

theorem childAt_l (b : Build) {j : Nat} (hj : j < 256) : (childAt b.l (BitVec.ofNat 9 (256 + j))).toNat = b.lc j := by
  rw [childAt_internal _ hj, lc]

theorem childAt_r (b : Build) {j : Nat} (hj : j < 256) : (childAt b.r (BitVec.ofNat 9 (256 + j))).toNat = b.rc j := by
  rw [childAt_internal _ hj, rc]

theorem queued_iff {freq : Vector Word 256} (b : Build) {j n : Nat} (hj : j ≤ 255) :
    queued freq b.l b.r j n ↔ b.Entry freq j n := by
  refine and_congr_right fun _ => ⟨fun h i hi => ?_, fun h m h1 h2 => ?_⟩
  · have := h (256 + i) (by omega) (by omega)
    rw [isChild, childAt_l b (by omega), childAt_r b (by omega)] at this
    exact not_or.mp this
  · obtain ⟨i, rfl⟩ := Nat.exists_eq_add_of_le h1
    rw [isChild, childAt_l b (by omega), childAt_r b (by omega)]
    exact not_or.mpr (h i (by omega))

theorem nodeBefore_iff (b : Build) (m n : NodeId) :
    nodeBefore b.w b.t m n ↔ b.before m.toNat n.toNat = true := by
  rw [before_iff]; rfl

/-- The node table of a build that has the invariant of the loop is the one its merges make. -/
theorem Good.treeLaw {freq : Vector Word 256} {b : Build} (g : b.Good freq) : TreeLaw freq b.k b.w b.t b.l b.r := by
  have hc := presentCount_le freq
  have hs := g.size
  have hp := g.pos
  have toNat_lt : ∀ n : NodeId, n.toNat < 512 := fun n => n.isLt
  have leafId : ∀ x : Byte, (x.setWidth 9).toNat = x.toNat := fun x => by
    have := x.isLt
    rw [BitVec.toNat_setWidth, Nat.mod_eq_of_lt (by omega)]
  refine ⟨fun x => ?_, fun x => ?_, fun j hj => ?_, fun n hn => ?_⟩
  · rw [nodeAt_w, leafId]; exact g.leafW x
  · rw [nodeAt_t, leafId]; exact g.leafT x
  · obtain ⟨p1, p2, p3, p4, p5, p6, p7⟩ := g.pass j hj
    have em : (BitVec.ofNat 9 (256 + j)).toNat = 256 + j := by simp; omega
    have er := childAt_r b (j := j) (by omega)
    have el := childAt_l b (j := j) (by omega)
    refine ⟨?_, ?_, ?_, ?_, ?_, ?_, ?_⟩
    · rw [queued_iff b (by omega), er]; exact p1
    · rw [queued_iff b (by omega), el]; exact p2
    · intro h; apply p3; rw [← er, ← el, h]
    · intro n hn hne
      rw [queued_iff b (by omega)] at hn
      rw [nodeBefore_iff, er]
      exact p4 _ hn fun h => hne (BitVec.eq_of_toNat_eq (by rw [h, er]))
    · intro n hn hne hne'
      rw [queued_iff b (by omega)] at hn
      rw [nodeBefore_iff, el]
      exact p5 _ hn (fun h => hne (BitVec.eq_of_toNat_eq (by rw [h, er])))
        fun h => hne' (BitVec.eq_of_toNat_eq (by rw [h, el]))
    · rw [nodeAt_w, nodeAt_w, nodeAt_w, em, er, el]; exact p6
    · rw [nodeAt_t, nodeAt_t, nodeAt_t, em, er, el]; exact p7
  · have := g.zeroNode n.toNat hn
    obtain ⟨j, hj⟩ := Nat.exists_eq_add_of_le (show 256 ≤ n.toNat by omega)
    have hjlt : j < 256 := by have := toNat_lt n; omega
    have en : n = BitVec.ofNat 9 (256 + j) := BitVec.eq_of_toNat_eq (by simp; omega)
    have z := g.zeroChild j (by omega)
    refine ⟨this.1, this.2, BitVec.eq_of_toNat_eq ?_, BitVec.eq_of_toNat_eq ?_⟩
    · rw [en, childAt_l b hjlt]; exact z.1
    · rw [en, childAt_r b hjlt]; exact z.2

theorem inq_eq_of_queue_nil {b : Build} (h : b.queue = []) : b.inq = Vector.replicate 511 false := by
  apply Vector.ext
  intro i hi
  have : i ∉ b.queue := by rw [h]; simp
  rw [mem_queue, Vector.getElem?_eq_getElem hi] at this
  simpa using this

end Build

/-- All that the loop and the last Pop of TBBUILD leave on a table with present symbols (42_tree_builder.md R145, R146):
one entry, the root, taken out; the queue empty; `DISTINCT - 1` merges. -/
theorem merged_pop {freq : Vector Word 256} (h : 1 ≤ presentCount freq) :
    ∃ root, (merged freq).pop = some (root, (merged freq).remove root) ∧
      (merged freq).Good freq ∧ (merged freq).k + 1 = presentCount freq ∧
      (∀ n, (merged freq).Entry freq (merged freq).k n ↔ n = root) ∧
      ((merged freq).remove root).inq = Vector.replicate 511 false ∧
      root < 256 + (merged freq).k ∧
      (1 ≤ (merged freq).k → root = 255 + (merged freq).k) ∧
      ((merged freq).k = 0 → presentSymbols freq = [BitVec.ofNat 8 root] ∧ root < 256) := by
  obtain ⟨g, hl, hk⟩ := merged_good h
  obtain ⟨root, hq⟩ := List.length_eq_one_iff.mp hl
  obtain ⟨n, hp⟩ := Build.exists_pop (b := merged freq) (by rw [hq]; simp)
  have hn : n = root := by
    have := (Build.pop_spec hp).1
    rw [hq] at this
    simpa using this
  subst hn
  have ent : ∀ m, (merged freq).Entry freq (merged freq).k m ↔ m = n := by
    intro m
    rw [← g.mem, hq, List.mem_singleton]
  have hlt := Build.Good.entry_lt ((ent n).mpr rfl)
  refine ⟨n, hp, g, hk, ent, ?_, hlt, ?_, ?_⟩
  · apply Build.inq_eq_of_queue_nil
    rw [List.eq_nil_iff_forall_not_mem]
    intro m hm
    rw [Build.mem_queue_remove, hq, List.mem_singleton] at hm
    exact hm.2 hm.1
  · intro h1
    refine ((ent _).mp ⟨Or.inr ⟨by omega, by omega⟩, fun i hi => ?_⟩).symm
    have p := g.pass i hi
    have h1 := Build.Good.entry_lt p.1
    have h2 := Build.Good.entry_lt p.2.1
    omega
  · intro h0
    rw [h0] at hlt
    have hc : (presentSymbols freq).length = 1 := by
      have : presentCount freq = 1 := by omega
      exact this
    obtain ⟨x, hx⟩ := List.length_eq_one_iff.mp hc
    have hxp : present freq x = true := mem_presentSymbols.mp (by rw [hx]; simp)
    have : x.toNat = n := (ent _).mp ⟨Or.inl ⟨x.isLt, by simpa using hxp⟩, by rw [h0]; intro i hi; omega⟩
    refine ⟨?_, hlt⟩
    rw [hx, ← this]
    simp

/-- TBBUILD completes on a table with present symbols (42_tree_builder.md R145): its whole effect. -/
theorem tbbuildBody_go {s : State} (hf : s.ftv = true) (hd : s.distinct ≠ 0#9) (hc : 1 ≤ presentCount s.freq) :
    ∃ root, (merged s.freq).pop = some (root, (merged s.freq).remove root) ∧
      tbbuildBody s = .go { s with
        nodeW := (merged s.freq).w, nodeT := (merged s.freq).t, nodeL := (merged s.freq).l, nodeR := (merged s.freq).r
        inq := Vector.replicate 511 false
        root := BitVec.ofNat 9 root, nint := BitVec.ofNat 9 (merged s.freq).k, trv := true, cdv := false } := by
  obtain ⟨root, hp, -, -, -, hq, -⟩ := merged_pop hc
  refine ⟨root, hp, ?_⟩
  simp [tbbuildBody, hf, hd, hp, hq]

end Sys2Proof.Machine
end

