-- ==== Sys2Proof/Laws/Codes.lean ====
section
/-! SUPPORT. The code table: bit strings in CODE_BITS, paths in the node table, what the walk of CGDERIVE records
(43_code_table.md R160 to R165). -/

namespace Sys2Proof.Machine

/-! ### Bit strings in a register -/

theorem placeBits_getLsbD {p : List Bool} (hp : p.length ≤ 256) {i : Nat} (hi : i < 256) :
    (placeBits p).getLsbD (255 - i) = p.getD i false := by
  rw [placeBits, BitVec.getLsbD_shiftLeft, BitVec.getLsbD_setWidth, BitVec.getLsbD_ofBoolListBE]
  by_cases h : i < p.length
  · have h1 : 255 - i < 256 := by omega
    have h2 : ¬ 255 - i < 256 - p.length := by omega
    have h3 : 255 - i - (256 - p.length) < 256 := by omega
    have h4 : 255 - i - (256 - p.length) < p.length := by omega
    have h5 : p.length - 1 - (255 - i - (256 - p.length)) = i := by omega
    simp only [h1, h2, h3, h4, h5, decide_true, decide_false, Bool.true_and, Bool.not_false]
  · have h2 : 255 - i < 256 - p.length := by omega
    simp only [h2, decide_true, Bool.not_true, Bool.and_false, Bool.false_and]
    rw [List.getD_eq_default _ _ (by omega)]

/-- The code read back from CODE_LEN and CODE_BITS is the bit string that was recorded (10_state.md R30). -/
theorem codeOf_recorded {len : Vector (BitVec 8) 256} {bits : Vector CodeWord 256} {x : Byte} {p : List Bool}
    (hp : p.length ≤ 255) (hl : len[x.toNat]'(x.isLt) = BitVec.ofNat 8 p.length)
    (hb : bits[x.toNat]'(x.isLt) = placeBits p) : codeOf len bits x = p := by
  rw [codeOf, hl, hb]
  have e : (BitVec.ofNat 8 p.length).toNat = p.length := by simp; omega
  rw [e]
  apply List.ext_getElem
  · simp
  · intro i h1 h2
    simp only [List.length_map, List.length_range] at h1
    simp only [List.getElem_map, List.getElem_range]
    rw [placeBits_getLsbD (by omega) (by omega), List.getD_eq_getElem _ _ h2]

/-! ### Paths -/

theorem isPath_nil {l r : Vector NodeId 255} {n : NodeId} {x : Byte} : isPath l r n [] x ↔ n = x.setWidth 9 := by
  constructor
  · exact fun h => h.1
  · intro h
    refine ⟨h, fun q hq hne => absurd (List.prefix_nil.mp hq) hne⟩

theorem isPath_cons {l r : Vector NodeId 255} {n : NodeId} {b : Bool} {p : List Bool} {x : Byte} :
    isPath l r n (b :: p) x ↔ 256 ≤ n.toNat ∧ isPath l r (if b then childAt r n else childAt l n) p x := by
  constructor
  · rintro ⟨h1, h2⟩
    refine ⟨h2 [] (List.nil_prefix) (by simp), h1, fun q hq hne => ?_⟩
    exact h2 (b :: q) (List.cons_prefix_cons.mpr ⟨rfl, hq⟩) (by simpa using hne)
  · rintro ⟨h0, h1, h2⟩
    refine ⟨h1, fun q hq hne => ?_⟩
    match q with
    | [] => exact h0
    | c :: q =>
      obtain ⟨rfl, hq'⟩ := List.cons_prefix_cons.mp hq
      exact h2 q hq' (by simpa using hne)

theorem isPath_of_leaf {l r : Vector NodeId 255} {n : NodeId} {p : List Bool} {x : Byte} (hn : n.toNat < 256)
    (h : isPath l r n p x) : p = [] ∧ n = x.setWidth 9 := by
  cases p with
  | nil => exact ⟨rfl, isPath_nil.mp h⟩
  | cons b p => exact absurd (isPath_cons.mp h).1 (by omega)

theorem setWidth9_inj {x y : Byte} (h : x.setWidth 9 = y.setWidth 9) : x = y := by
  have h1 := x.isLt
  have h2 := y.isLt
  have := congrArg BitVec.toNat h
  rw [BitVec.toNat_setWidth, BitVec.toNat_setWidth, Nat.mod_eq_of_lt (by omega), Nat.mod_eq_of_lt (by omega)] at this
  exact BitVec.eq_of_toNat_eq this

/-- A path that is the beginning of another from the same node is the same path to the same leaf: a leaf has no
children (43_code_table.md R163). -/
theorem isPath_prefix {l r : Vector NodeId 255} {n : NodeId} {p q : List Bool} {x y : Byte} (hp : isPath l r n p x)
    (hq : isPath l r n q y) (h : p <+: q) : p = q ∧ x = y := by
  by_cases e : p = q
  · subst e
    exact ⟨rfl, setWidth9_inj (hp.1.symm.trans hq.1)⟩
  · have h1 := hq.2 p h e
    rw [hp.1, BitVec.toNat_setWidth] at h1
    have := x.isLt
    omega

/-- In a node table whose children have smaller ids than their node, every node down to a leaf lies on a path of at
most `n - 255` bits. -/
theorem isPath_length {l r : Vector NodeId 255} {m : Nat} (hlt : ∀ n : NodeId, 256 ≤ n.toNat → n.toNat < m →
    (childAt l n).toNat < n.toNat ∧ (childAt r n).toNat < n.toNat) {p : List Bool} {x : Byte} {n : NodeId}
    (hn : n.toNat < m) (h : isPath l r n p x) : p.length ≤ n.toNat - 255 := by
  induction p generalizing n with
  | nil => exact Nat.zero_le _
  | cons b p ih =>
    obtain ⟨h0, h1⟩ := isPath_cons.mp h
    obtain ⟨c1, c2⟩ := hlt n h0 hn
    have hc : (if b then childAt r n else childAt l n).toNat < n.toNat := by
      cases b
      · exact c1
      · exact c2
    have hi := ih (by omega) h1
    rw [List.length_cons]
    cases p with
    | nil => rw [List.length_nil]; omega
    | cons c p =>
      have := (isPath_cons.mp h1).1
      omega

/-! ### The walk -/

@[simp] theorem record_len (c : Codes) (n : NodeId) (p : List Bool) (x : Byte) :
    (c.record n p).len[x.toNat]'(x.isLt) =
      if n = x.setWidth 9 then BitVec.ofNat 8 p.length else c.len[x.toNat]'(x.isLt) := by
  have hx := x.isLt
  have e : n.toNat = x.toNat ↔ n = x.setWidth 9 := by
    constructor
    · intro h
      apply BitVec.eq_of_toNat_eq
      rw [BitVec.toNat_setWidth, Nat.mod_eq_of_lt (by omega), h]
    · rintro rfl
      rw [BitVec.toNat_setWidth, Nat.mod_eq_of_lt (by omega)]
  simp only [Codes.record, Vector.getElem_setIfInBounds, e]

@[simp] theorem record_bits (c : Codes) (n : NodeId) (p : List Bool) (x : Byte) :
    (c.record n p).bits[x.toNat]'(x.isLt) =
      if n = x.setWidth 9 then placeBits p else c.bits[x.toNat]'(x.isLt) := by
  have hx := x.isLt
  have e : n.toNat = x.toNat ↔ n = x.setWidth 9 := by
    constructor
    · intro h
      apply BitVec.eq_of_toNat_eq
      rw [BitVec.toNat_setWidth, Nat.mod_eq_of_lt (by omega), h]
    · rintro rfl
      rw [BitVec.toNat_setWidth, Nat.mod_eq_of_lt (by omega)]
  simp only [Codes.record, Vector.getElem_setIfInBounds, e]

/-- All that the walk does (43_code_table.md R162): a leaf that a path leads to has that path recorded behind the
prefix, every other entry stays. -/
theorem walk_spec {l r : Vector NodeId 255} {f : Nat} {n : NodeId} {p : List Bool} {c c' : Codes}
    (h : walk l r f n p c = some c') (x : Byte) :
    (∃ q, isPath l r n q x ∧ c'.len[x.toNat]'(x.isLt) = BitVec.ofNat 8 (p ++ q).length ∧
      c'.bits[x.toNat]'(x.isLt) = placeBits (p ++ q)) ∨
    ((∀ q, ¬ isPath l r n q x) ∧ c'.len[x.toNat]'(x.isLt) = c.len[x.toNat]'(x.isLt) ∧
      c'.bits[x.toNat]'(x.isLt) = c.bits[x.toNat]'(x.isLt)) := by
  induction f generalizing n p c c' with
  | zero => simp [walk] at h
  | succ f ih =>
    rw [walk] at h
    by_cases hn : n.toNat < 256
    · rw [if_pos hn, Option.some.injEq] at h
      subst h
      by_cases e : n = x.setWidth 9
      · left
        exact ⟨[], isPath_nil.mpr e, by simp [e], by simp [e]⟩
      · right
        exact ⟨fun q hq => e (isPath_of_leaf hn hq).2, by simp [e], by simp [e]⟩
    · rw [if_neg hn] at h
      have hn' : 256 ≤ n.toNat := by omega
      cases h1 : walk l r f (childAt l n) (p ++ [false]) c with
      | none => rw [h1] at h; exact absurd h (by simp)
      | some c1 =>
        rw [h1] at h
        rcases ih h with ⟨q, hq, e1, e2⟩ | ⟨hno, e1, e2⟩
        · left
          exact ⟨true :: q, isPath_cons.mpr ⟨hn', by simpa using hq⟩, by simpa using e1, by simpa using e2⟩
        · rcases ih h1 with ⟨q, hq, e3, e4⟩ | ⟨hno', e3, e4⟩
          · left
            exact ⟨false :: q, isPath_cons.mpr ⟨hn', by simpa using hq⟩, by rw [e1, e3]; simp, by rw [e2, e4]; simp⟩
          · right
            refine ⟨fun q hq => ?_, by rw [e1, e3], by rw [e2, e4]⟩
            cases q with
            | nil =>
              have := isPath_nil.mp hq
              have hx := x.isLt
              rw [this, BitVec.toNat_setWidth] at hn'
              omega
            | cons b q =>
              obtain ⟨-, hq⟩ := isPath_cons.mp hq
              cases b
              · exact hno' q (by simpa using hq)
              · exact hno q (by simpa using hq)

/-- In a node table whose children have smaller ids than their node the walk does not run out of depth
(43_code_table.md R162: "Depth is bounded by NINT ≤ 255"). -/
theorem walk_succeeds {l r : Vector NodeId 255} {m : Nat} (hlt : ∀ n : NodeId, 256 ≤ n.toNat → n.toNat < m →
    (childAt l n).toNat < n.toNat ∧ (childAt r n).toNat < n.toNat) (f : Nat) (n : NodeId) (p : List Bool) (c : Codes)
    (hn : n.toNat < 256 ∨ n.toNat < m) (hf : n.toNat < 255 + f) (h1 : 1 ≤ f) : ∃ c', walk l r f n p c = some c' := by
  induction f generalizing n p c with
  | zero => omega
  | succ f ih =>
    rw [walk]
    by_cases h : n.toNat < 256
    · rw [if_pos h]; exact ⟨_, rfl⟩
    · rw [if_neg h]
      obtain ⟨c1, c2⟩ := hlt n (by omega) (by omega)
      obtain ⟨d, hd⟩ := ih (childAt l n) (p ++ [false]) c (by omega) (by omega) (by omega)
      rw [hd]
      exact ih (childAt r n) (p ++ [true]) d (by omega) (by omega) (by omega)

/-! ### The code table of a built tree -/

namespace Build.Good

variable {freq : Vector Word 256} {b : Build}

/-- Children have smaller ids than their node (42_tree_builder.md R146). -/
theorem child_lt (g : b.Good freq) {n : NodeId} (h : 256 ≤ n.toNat) (h' : n.toNat < 256 + b.k) :
    (childAt b.l n).toNat < n.toNat ∧ (childAt b.r n).toNat < n.toNat := by
  obtain ⟨j, hj⟩ := Nat.exists_eq_add_of_le h
  have hn := n.isLt
  have e : n = BitVec.ofNat 9 (256 + j) := BitVec.eq_of_toNat_eq (by simp; omega)
  have p := g.pass j (by omega)
  have h1 := entry_lt p.1
  have h2 := entry_lt p.2.1
  rw [hj, e, childAt_l b (by omega), childAt_r b (by omega)]
  exact ⟨h2, h1⟩

/-- Every child of a node in use is in use. -/
theorem child_inUse (g : b.Good freq) {n : NodeId} (h : 256 ≤ n.toNat) (h' : n.toNat < 256 + b.k) (d : Bool) :
    inUse freq b.k (if d then childAt b.r n else childAt b.l n).toNat := by
  obtain ⟨j, hj⟩ := Nat.exists_eq_add_of_le h
  have hn := n.isLt
  have e : n = BitVec.ofNat 9 (256 + j) := BitVec.eq_of_toNat_eq (by simp; omega)
  have p := g.pass j (by omega)
  have mono : ∀ i, inUse freq j i → inUse freq b.k i := by
    rintro i (hi | hi)
    · exact Or.inl hi
    · exact Or.inr ⟨hi.1, by omega⟩
  cases d
  · rw [if_neg (by simp), e, childAt_l b (by omega)]; exact mono _ p.2.1.1
  · rw [if_pos rfl, e, childAt_r b (by omega)]; exact mono _ p.1.1

end Build.Good

theorem follow_append (l r : Vector NodeId 255) (n : NodeId) (p q : List Bool) :
    follow l r n (p ++ q) = follow l r (follow l r n p) q := by
  induction p generalizing n with
  | nil => rfl
  | cons b p ih => exact ih _

/-- Every node in use lies below the root: there is a path to it whose nodes before the end are internal
(43_code_table.md R160). -/
theorem exists_path {freq : Vector Word 256} {b : Build} (g : b.Good freq) {root : Nat}
    (hroot : ∀ n, b.Entry freq b.k n ↔ n = root) {n : Nat} (hn : inUse freq b.k n) :
    ∃ p, follow b.l b.r (BitVec.ofNat 9 root) p = BitVec.ofNat 9 n ∧
      ∀ q, q <+: p → q ≠ p → 256 ≤ (follow b.l b.r (BitVec.ofNat 9 root) q).toNat := by
  have hc := presentCount_le freq
  have hs := g.size
  have hp := g.pos
  have bound : n < 256 + b.k := by rcases hn with h | h <;> omega
  obtain ⟨d, hd⟩ : ∃ d, d = 511 - n := ⟨_, rfl⟩
  induction d using Nat.strongRecOn generalizing n with
  | _ d ih =>
    by_cases e : n = root
    · subst e
      exact ⟨[], rfl, fun q hq hne => absurd (List.prefix_nil.mp hq) hne⟩
    · have hne : ¬ b.Entry freq b.k n := fun h => e ((hroot n).mp h)
      have : ∃ i, i < b.k ∧ (b.lc i = n ∨ b.rc i = n) := by
        by_contra hno
        exact hne ⟨hn, fun i hi => not_or.mp fun h => hno ⟨i, hi, h⟩⟩
      obtain ⟨i, hi, hcase⟩ := this
      have pi := g.pass i hi
      have l1 := Build.Good.entry_lt pi.1
      have l2 := Build.Good.entry_lt pi.2.1
      have hlt : n < 256 + i := by rcases hcase with h | h <;> omega
      obtain ⟨q, hq1, hq2⟩ := ih (511 - (256 + i)) (by omega) (n := 256 + i) (Or.inr ⟨by omega, by omega⟩) (by omega) rfl
      have step : ∃ dir : Bool, (if dir then childAt b.r (BitVec.ofNat 9 (256 + i)) else
          childAt b.l (BitVec.ofNat 9 (256 + i))) = BitVec.ofNat 9 n := by
        rcases hcase with h | h
        · refine ⟨false, BitVec.eq_of_toNat_eq ?_⟩
          rw [if_neg (by simp), Build.childAt_l b (by omega), h]
          simp; omega
        · refine ⟨true, BitVec.eq_of_toNat_eq ?_⟩
          rw [if_pos rfl, Build.childAt_r b (by omega), h]
          simp; omega
      obtain ⟨dir, hdir⟩ := step
      refine ⟨q ++ [dir], ?_, ?_⟩
      · rw [follow_append, hq1]; exact hdir
      · intro q' hq' hne'
        rcases List.prefix_concat_iff.mp hq' with h | h
        · exact absurd h hne'
        · by_cases e' : q' = q
          · subst e'
            rw [hq1]
            simp; omega
          · exact hq2 q' h e'

/-- CGDERIVE completes on a tree that TBBUILD built, and the code of every present symbol is its path from ROOT
(43_code_table.md R160 to R162, R165). -/
theorem deriveCodes_built {freq : Vector Word 256} (h : 1 ≤ presentCount freq) {root : Nat} {b : Build}
    (hpop : (merged freq).pop = some (root, b)) :
    ∃ c, deriveCodes b.l b.r (BitVec.ofNat 9 root) = some c ∧
      (∀ x, present freq x = true → ∃ p, isPath b.l b.r (BitVec.ofNat 9 root) p x ∧ p.length ≤ b.k ∧
        c.len[x.toNat]'(x.isLt) = BitVec.ofNat 8 p.length ∧ c.bits[x.toNat]'(x.isLt) = placeBits p) ∧
      (∀ x, present freq x = false → c.len[x.toNat]'(x.isLt) = 0#8 ∧ c.bits[x.toNat]'(x.isLt) = 0#256) := by
  obtain ⟨root', hp', g, hk, hent, -, hlt, hr1, hr0⟩ := merged_pop h
  rw [hp'] at hpop
  simp only [Option.some.injEq, Prod.mk.injEq] at hpop
  obtain ⟨rfl, rfl⟩ := hpop
  simp only [Build.remove_l, Build.remove_r, Build.remove_k]
  have hc := presentCount_le freq
  have er : (BitVec.ofNat 9 root').toNat = root' := by simp; omega
  obtain ⟨c, hcw⟩ := walk_succeeds (l := (merged freq).l) (r := (merged freq).r) (m := 256 + (merged freq).k)
    (fun n h1 h2 => g.child_lt h1 h2) (maxLen + 1) (BitVec.ofNat 9 root') [] Codes.zero
    (by right; rw [er]; exact hlt) (by rw [er, maxLen]; omega) (by decide)
  refine ⟨c, hcw, fun x hx => ?_, fun x hx => ?_⟩
  · have hxu : inUse freq (merged freq).k x.toNat := Or.inl ⟨x.isLt, by simpa using hx⟩
    obtain ⟨p0, hp1, hp2⟩ := exists_path g hent hxu
    have hpx : isPath (merged freq).l (merged freq).r (BitVec.ofNat 9 root') p0 x := by
      refine ⟨hp1.trans (BitVec.eq_of_toNat_eq ?_), hp2⟩
      simp
    rcases walk_spec hcw x with ⟨q, hq, e1, e2⟩ | ⟨hno, -⟩
    · refine ⟨q, hq, ?_, by simpa using e1, by simpa using e2⟩
      have := isPath_length (m := 256 + (merged freq).k) (fun n h1 h2 => g.child_lt h1 h2) (by rw [er]; exact hlt) hq
      rw [er] at this
      omega
    · exact absurd hpx (hno p0)
  · rcases walk_spec hcw x with ⟨q, hq, -, -⟩ | ⟨-, e1, e2⟩
    · exfalso
      have key : ∀ (q : List Bool) (n : NodeId), inUse freq (merged freq).k n.toNat →
          isPath (merged freq).l (merged freq).r n q x → present freq x = true := by
        intro q
        induction q with
        | nil =>
          intro n hn hq
          have := isPath_nil.mp hq
          have hx8 := x.isLt
          have e : n.toNat = x.toNat := by
            rw [this, BitVec.toNat_setWidth, Nat.mod_eq_of_lt (by omega)]
          rcases hn with h | h
          · have := h.2
            rw [e] at this
            simpa using this
          · omega
        | cons d q ih =>
          intro n hn hq
          obtain ⟨h0, h1⟩ := isPath_cons.mp hq
          refine ih _ (g.child_inUse h0 ?_ d) h1
          rcases hn with h | h <;> omega
      have hru : inUse freq (merged freq).k (BitVec.ofNat 9 root').toNat := by
        rw [er]; exact ((hent root').mpr rfl).1
      exact absurd (key q _ hru hq) (by simp [hx])
    · rw [e1, e2]
      simp [Codes.zero]

end Sys2Proof.Machine
end

