-- ==== Sys2Proof/Laws/Header.lean ====
section
/-! SUPPORT. The header: what HFEMIT's loop writes and where it overflows (45_header_framer.md R191), what HFPARSE reads
and which fault it meets first (R195 to R202). -/

namespace Sys2Proof.Machine

/-! ### Writing -/

@[simp] theorem length_pairBytes (pairs : List (Byte × Word)) : (pairBytes pairs).length = 5 * pairs.length := by
  induction pairs with
  | nil => rfl
  | cons p pairs ih =>
    have e : pairBytes (p :: pairs) = p.1 :: be32Bytes p.2 ++ pairBytes pairs := rfl
    rw [e, List.length_append, ih, List.length_cons, length_be32Bytes, List.length_cons]
    omega

theorem pairBytes_cons (p : Byte × Word) (pairs : List (Byte × Word)) :
    pairBytes (p :: pairs) = p.1 :: be32Bytes p.2 ++ pairBytes pairs := rfl

theorem pairBytes_append (p q : List (Byte × Word)) : pairBytes (p ++ q) = pairBytes p ++ pairBytes q := by
  simp [pairBytes]

/-- The loop of HFEMIT when its pairs fit. -/
theorem emitPairs_fits {ss : List Byte} {s : State} (h : s.snk.length + 5 * ss.length ≤ s.cfg.snkCap.toNat) :
    emitPairs ss s = .go { s with
      snk := s.snk.appendAll (pairBytes (ss.map fun b => (b, freqAt s.freq b))) } := by
  induction ss generalizing s with
  | nil => rfl
  | cons b ss ih =>
    rw [List.length_cons] at h
    rw [emitPairs, memWrite_fits (by simp only [List.length_singleton]; omega), Flow.bind_go, memWrite4, memWrite_fits,
      Flow.bind_go, ih]
    · rw [List.map_cons, pairBytes_cons, Memory.appendAll_append]
      rfl
    · simp only [Memory.length_appendAll, List.length_singleton, length_be32Bytes]; omega
    · simp only [Memory.length_appendAll, List.length_singleton, length_be32Bytes]; omega

/-- The loop of HFEMIT when its pairs do not fit: SnkOverflow with SNK_LEN at the append that does not fit. -/
theorem emitPairs_overflow {ss : List Byte} {s : State} (hle : s.snk.length ≤ s.cfg.snkCap.toNat)
    (h : s.cfg.snkCap.toNat < s.snk.length + 5 * ss.length) :
    ∃ e, emitPairs ss s = .raised (enterFault .snkOverflow (BitVec.ofNat 32 e) s) ∧ e ≤ s.cfg.snkCap.toNat ∧
      ∃ k < ss.length, (e = s.snk.length + 5 * k ∧ s.cfg.snkCap.toNat < e + 1) ∨
        (e = s.snk.length + 1 + 5 * k ∧ s.cfg.snkCap.toNat < e + 4) := by
  induction ss generalizing s with
  | nil => simp at h; omega
  | cons b ss ih =>
    rw [List.length_cons] at h
    by_cases h1 : s.snk.length + 1 ≤ s.cfg.snkCap.toNat
    · rw [emitPairs, memWrite_fits (by simpa using h1), Flow.bind_go]
      by_cases h5 : s.snk.length + 5 ≤ s.cfg.snkCap.toNat
      · rw [memWrite4, memWrite_fits, Flow.bind_go]
        · obtain ⟨e, he, hec, k, hk, hkk⟩ := ih
            (s := { s with snk := (s.snk.appendAll [b]).appendAll (be32Bytes (freqAt s.freq b)) })
            (by simp only [Memory.length_appendAll, List.length_singleton, length_be32Bytes]; omega)
            (by simp only [Memory.length_appendAll, List.length_singleton, length_be32Bytes]; omega)
          refine ⟨e, he, hec, k + 1, by simpa using hk, ?_⟩
          simp only [Memory.length_appendAll, List.length_singleton, length_be32Bytes] at hkk
          omega
        · simp only [Memory.length_appendAll, List.length_singleton, length_be32Bytes]; omega
      · refine ⟨s.snk.length + 1, ?_, h1, 0, by simp, Or.inr ⟨by omega, by omega⟩⟩
        rw [memWrite4, memWrite_overflow]
        · have : State.snkLen { s with snk := s.snk.appendAll [b] } = BitVec.ofNat 32 (s.snk.length + 1) := by
            simp [State.snkLen]
          rw [this]
          rfl
        · simp only [Memory.length_appendAll, List.length_singleton, length_be32Bytes]; omega
    · refine ⟨s.snk.length, ?_, hle, 0, by simp, Or.inl ⟨by omega, by omega⟩⟩
      rw [emitPairs, memWrite_overflow (by simp only [List.length_singleton]; omega)]
      rfl

/-! ### Reading -/

/-- Bytes that stand at an address of a canonical buffer are what a read gives. -/
theorem read_of_drop {m : Memory} (hw : m.wf = true) {p : Nat} {bs rest : List Byte}
    (h : (Memory.bytes m).drop p = bs ++ rest) {k : Nat} (hk : k < bs.length) : m.read (p + k) = some bs[k] := by
  rw [Memory.read_eq hw, ← List.getElem?_drop, h, List.getElem?_append_left hk, List.getElem?_eq_getElem hk]

theorem memRead4_of_drop {s : State} (hw : s.src.wf = true) {p : Nat} {v : Word} {rest : List Byte}
    (h : s.src.bytes.drop p = be32Bytes v ++ rest) : memRead4 s p = some v := by
  have r0 := read_of_drop hw h (k := 0) (by simp)
  have r1 := read_of_drop hw h (k := 1) (by simp)
  have r2 := read_of_drop hw h (k := 2) (by simp)
  have r3 := read_of_drop hw h (k := 3) (by simp)
  simp only [Nat.add_zero] at r0
  simp only [memRead4, r0, r1, r2, r3]
  exact congrArg some (be32_be32Bytes v)

/-- Four bytes are the bytes of their big-endian value (20_memory.md R66). -/
theorem be32Bytes_be32 (b0 b1 b2 b3 : Byte) : be32Bytes (be32 b0 b1 b2 b3) = [b0, b1, b2, b3] := by
  have ap : ∀ {w : Nat} (x : BitVec w) (y : Byte), (x ++ y).toNat = x.toNat * 2 ^ 8 + y.toNat := by
    intro w x y
    rw [BitVec.toNat_append, Nat.shiftLeft_eq, Nat.mul_comm, Nat.two_pow_add_eq_or_of_lt y.isLt]
  have h0 := b0.isLt
  have h1 := b1.isLt
  have h2 := b2.isLt
  have h3 := b3.isLt
  have hv : (be32 b0 b1 b2 b3).toNat = b0.toNat * 2 ^ 24 + b1.toNat * 2 ^ 16 + b2.toNat * 2 ^ 8 + b3.toNat := by
    simp only [be32, ap]; omega
  have sl : ∀ k (b : Byte), (be32 b0 b1 b2 b3).toNat / 2 ^ k % 256 = b.toNat →
      (be32 b0 b1 b2 b3).extractLsb' k 8 = b := by
    intro k b h
    apply BitVec.eq_of_toNat_eq
    rw [BitVec.extractLsb'_toNat, Nat.shiftRight_eq_div_pow]
    exact h
  rw [be32Bytes, sl 24 b0, sl 16 b1, sl 8 b2, sl 0 b3] <;> rw [hv] <;> omega

/-- Four bytes or more begin with the bytes of a u32. -/
theorem exists_be32Bytes {l : List Byte} (h : 4 ≤ l.length) : ∃ v rest, l = be32Bytes v ++ rest := by
  match l, h with
  | b0 :: b1 :: b2 :: b3 :: rest, _ =>
    exact ⟨be32 b0 b1 b2 b3, rest, by rw [be32Bytes_be32]; rfl⟩

/-- One pair of HFPARSE whose five bytes are there. -/
theorem parsePair_reads {s : State} (hw : s.src.wf = true) {x : Byte} {f : Word} {rest : List Byte}
    (h : s.src.bytes.drop s.srcPos.toNat = x :: be32Bytes f ++ rest) : parsePair s =
      if f = 0#32 then raiseFault .headerZeroFrequency s.srcPos s
      else if present s.freq x then raiseFault .headerDuplicateSymbol s.srcPos s
      else .go { s with freq := freqSet s.freq x f, srcPos := s.srcPos + 5#32 } := by
  have hlen := congrArg List.length h
  rw [List.length_drop, Memory.length_bytes, List.cons_append, List.length_cons, List.length_append,
    length_be32Bytes] at hlen
  have r0 : s.src.read s.srcPos.toNat = some x := by
    have := read_of_drop hw (bs := [x]) (rest := be32Bytes f ++ rest) h (k := 0) (by simp)
    simpa using this
  have r4 : memRead4 s (s.srcPos.toNat + 1) = some f := by
    apply memRead4_of_drop hw (rest := rest)
    rw [← List.drop_drop, h]
    rfl
  rw [parsePair, if_neg (by omega), memRead1, r0, r4]

theorem parsePair_truncated {s : State} (h : s.src.length < s.srcPos.toNat + 5) :
    parsePair s = raiseFault .headerTruncated s.srcLen s := by
  rw [parsePair, if_pos (by omega)]

/-- A table after the pairs of a header, in the order they come. -/
def addPairs (t : Vector Word 256) (pairs : List (Byte × Word)) : Vector Word 256 :=
  pairs.foldl (fun t p => freqSet t p.1 p.2) t

theorem freqAt_addPairs_of_not_mem {pairs : List (Byte × Word)} {t : Vector Word 256} {x : Byte}
    (h : x ∉ pairs.map Prod.fst) : freqAt (addPairs t pairs) x = freqAt t x := by
  induction pairs generalizing t with
  | nil => rfl
  | cons p pairs ih =>
    rw [List.map_cons, List.mem_cons, not_or] at h
    show freqAt (addPairs (freqSet t p.1 p.2) pairs) x = _
    rw [ih h.2, freqAt_freqSet_ne _ _ (Ne.symm h.1)]

/-- The count of each symbol after the pairs of a header that gives no symbol twice. -/
theorem freqAt_addPairs {pairs : List (Byte × Word)} (hn : (pairs.map Prod.fst).Nodup) (x : Byte) :
    freqAt (addPairs (Vector.replicate 256 0#32) pairs) x = pairCount pairs x := by
  have main : ∀ (pairs : List (Byte × Word)) (t : Vector Word 256), (pairs.map Prod.fst).Nodup →
      (∀ y ∈ pairs.map Prod.fst, freqAt t y = 0#32) →
      freqAt (addPairs t pairs) x = if x ∈ pairs.map Prod.fst then pairCount pairs x else freqAt t x := by
    intro pairs
    induction pairs with
    | nil => intro t _ _; rfl
    | cons p pairs ih =>
      intro t hn hz
      rw [List.map_cons, List.nodup_cons] at hn
      show freqAt (addPairs (freqSet t p.1 p.2) pairs) x = _
      by_cases hx : x = p.1
      · subst hx
        rw [freqAt_addPairs_of_not_mem hn.1, freqAt_freqSet_self, if_pos (by simp)]
        simp [pairCount]
      · have hz' : ∀ y ∈ pairs.map Prod.fst, freqAt (freqSet t p.1 p.2) y = 0#32 := by
          intro y hy
          rw [freqAt_freqSet_ne]
          · exact hz y (by simp [hy])
          · rintro rfl; exact hn.1 hy
        have hne : ¬ p.1 = x := fun e => hx e.symm
        rw [ih _ hn.2 hz', freqAt_freqSet_ne _ _ hne]
        simp [hx, pairCount, hne]
  rw [main pairs _ hn (by simp)]
  split
  · rfl
  · rename_i h
    have : pairs.find? (fun p => p.1 == x) = none := by
      rw [List.find?_eq_none]
      intro p hp
      simp only [beq_iff_eq]
      rintro rfl
      exact h (List.mem_map_of_mem hp)
    simp [pairCount, this]

/-- The pairs of a header that HFPARSE accepts one after another: what the loop does over them. -/
theorem parsePairs_reads {pairs : List (Byte × Word)} {s : State} {rest : List Byte} (n : Nat)
    (hw : s.src.wf = true) (hlt : s.src.length < 2 ^ 32)
    (h : s.src.bytes.drop s.srcPos.toNat = pairBytes pairs ++ rest) (hn : (pairs.map Prod.fst).Nodup)
    (hz : ∀ p ∈ pairs, p.2 ≠ 0#32) (hf : ∀ p ∈ pairs, present s.freq p.1 = false) :
    parsePairs (pairs.length + n) s = parsePairs n { s with
      freq := addPairs s.freq pairs, srcPos := s.srcPos + BitVec.ofNat 32 (5 * pairs.length) } := by
  induction pairs generalizing s with
  | nil => simp [addPairs]
  | cons p pairs ih =>
    have hlen := congrArg List.length h
    rw [List.length_drop, Memory.length_bytes, List.length_append, length_pairBytes, List.length_cons] at hlen
    rw [List.map_cons, List.nodup_cons] at hn
    have e : (p :: pairs).length + n = (pairs.length + n) + 1 := by rw [List.length_cons]; omega
    rw [pairBytes_cons, List.cons_append, List.cons_append, List.append_assoc] at h
    have h' : s.src.bytes.drop s.srcPos.toNat = p.1 :: be32Bytes p.2 ++ (pairBytes pairs ++ rest) := by
      rw [h, List.cons_append]
    have e5 : (s.srcPos + 5#32).toNat = s.srcPos.toNat + 5 := by
      rw [BitVec.toNat_add]
      exact Nat.mod_eq_of_lt (by show s.srcPos.toNat + 5 < 2 ^ 32; omega)
    rw [e, parsePairs, parsePair_reads hw h', if_neg (hz p (by simp)), if_neg (by rw [hf p (by simp)]; simp),
      Flow.bind_go, ih]
    · congr 1
      have : 5#32 + BitVec.ofNat 32 (5 * pairs.length) = BitVec.ofNat 32 (5 * (p :: pairs).length) := by
        rw [List.length_cons, Nat.mul_succ, Nat.add_comm, BitVec.ofNat_add]
      rw [← this, ← BitVec.add_assoc]
      rfl
    · exact hw
    · exact hlt
    · show s.src.bytes.drop (s.srcPos + 5#32).toNat = _
      rw [e5, ← List.drop_drop, h']
      rfl
    · exact hn.2
    · exact fun q hq => hz q (by simp [hq])
    · intro q hq
      have : p.1 ≠ q.1 := fun e => hn.1 (e ▸ List.mem_map_of_mem hq)
      simpa [present, freqAt_freqSet_ne _ _ this] using hf q (by simp [hq])

/-- All that the loop of HFPARSE can do: read its pairs, or raise at the first one that fails (45_header_framer.md
R201). -/
theorem parsePairs_cases (d : Nat) {s : State} (hw : s.src.wf = true) (hlt : s.src.length < 2 ^ 32)
    (hp : s.srcPos.toNat ≤ s.src.length) :
    (∃ pairs rest, pairs.length = d ∧ s.src.bytes.drop s.srcPos.toNat = pairBytes pairs ++ rest ∧
      (pairs.map Prod.fst).Nodup ∧ (∀ p ∈ pairs, p.2 ≠ 0#32) ∧ (∀ p ∈ pairs, present s.freq p.1 = false) ∧
      parsePairs d s = .go { s with
        freq := addPairs s.freq pairs, srcPos := s.srcPos + BitVec.ofNat 32 (5 * pairs.length) }) ∨
    ∃ c i, parsePairs d s = .raised (enterFault c i s) := by
  induction d generalizing s with
  | zero =>
    left
    refine ⟨[], _, rfl, rfl, by simp, by simp, by simp, ?_⟩
    simp [parsePairs, addPairs]
  | succ n ih =>
    by_cases h5 : s.src.length < s.srcPos.toNat + 5
    · right
      rw [parsePairs, parsePair_truncated h5]
      exact ⟨_, _, rfl⟩
    · obtain ⟨x, l, hl⟩ : ∃ x l, s.src.bytes.drop s.srcPos.toNat = x :: l := by
        cases hd : s.src.bytes.drop s.srcPos.toNat with
        | nil =>
          have := congrArg List.length hd
          rw [List.length_drop, Memory.length_bytes, List.length_nil] at this
          omega
        | cons x l => exact ⟨x, l, rfl⟩
      have hlen := congrArg List.length hl
      rw [List.length_drop, Memory.length_bytes, List.length_cons] at hlen
      obtain ⟨f, rest, rfl⟩ := exists_be32Bytes (l := l) (by omega)
      have e5 : (s.srcPos + 5#32).toNat = s.srcPos.toNat + 5 := by
        rw [BitVec.toNat_add]
        exact Nat.mod_eq_of_lt (by show s.srcPos.toNat + 5 < 2 ^ 32; omega)
      rw [parsePairs, parsePair_reads hw (by rw [hl, List.cons_append])]
      by_cases hf : f = 0#32
      · right
        rw [if_pos hf]
        exact ⟨_, _, rfl⟩
      · by_cases hx : present s.freq x = true
        · right
          rw [if_neg hf, if_pos hx]
          exact ⟨_, _, rfl⟩
        · rw [if_neg hf, if_neg hx, Flow.bind_go]
          have hd : s.src.bytes.drop (s.srcPos + 5#32).toNat = rest := by
            rw [e5, ← List.drop_drop, hl]; rfl
          rcases ih (s := { s with freq := freqSet s.freq x f, srcPos := s.srcPos + 5#32 }) hw hlt
            (by show (s.srcPos + 5#32).toNat ≤ s.src.length; omega) with
            ⟨pairs, rest', h1, h2, h3, h4, h5', h6⟩ | ⟨c, i, h⟩
          · left
            have hxn : ∀ p ∈ pairs, x ≠ p.1 := by
              rintro p hp rfl
              have := h5' p hp
              simp [present, hf] at this
            refine ⟨(x, f) :: pairs, rest', by simp [h1], ?_, ?_, ?_, ?_, ?_⟩
            · have h2' : rest = pairBytes pairs ++ rest' := hd.symm.trans h2
              rw [hl, h2', pairBytes_cons]
              simp
            · rw [List.map_cons, List.nodup_cons]
              refine ⟨fun hm => ?_, h3⟩
              obtain ⟨p, hp, e⟩ := List.mem_map.mp hm
              exact hxn p hp e.symm
            · intro p hp
              rcases List.mem_cons.mp hp with rfl | hp
              · exact hf
              · exact h4 p hp
            · intro p hp
              rcases List.mem_cons.mp hp with rfl | hp
              · simpa using hx
              · have := h5' p hp
                simpa [present, freqAt_freqSet_ne _ _ (hxn p hp)] using this
            · rw [h6]
              congr 1
              have : 5#32 + BitVec.ofNat 32 (5 * pairs.length) = BitVec.ofNat 32 (5 * ((x, f) :: pairs).length) := by
                rw [List.length_cons, Nat.mul_succ, Nat.add_comm, BitVec.ofNat_add]
              rw [← this, ← BitVec.add_assoc]
              rfl
          · right
            exact ⟨c, i, h⟩

/-! ### HFPARSE -/

/-- The empty frame (45_header_framer.md R202). -/
theorem hfparseBody_empty {s : State} (h : s.src.length = 0) : hfparseBody s = .go { s with
    freq := Vector.replicate 256 0#32, total := 0#32, distinct := 0#9, srcPos := 0#32
    ftv := true, trv := false, cdv := false, hpv := true, empty := true } := by
  simp only [hfparseBody]
  rw [if_pos (show (parseStart s).src.length = 0 from h)]
  rfl

theorem hfparseBody_short {s : State} (h : 1 ≤ s.src.length) (h' : s.src.length < 8) :
    hfparseBody s = .raised (enterFault .headerTruncated s.srcLen s) := by
  simp only [hfparseBody]
  rw [if_neg (show ¬ (parseStart s).src.length = 0 by show ¬ s.src.length = 0; omega),
    if_pos (show (parseStart s).src.length < 8 from h')]
  rfl

/-- HFPARSE on a source that holds the two counts. -/
theorem hfparseBody_counts {s : State} (hw : s.src.wf = true) {t d : Word} {rest : List Byte}
    (h : s.src.bytes = be32Bytes t ++ be32Bytes d ++ rest) : hfparseBody s =
      if d.toNat > 256 then .raised (enterFault .headerDistinctRange d s)
      else (parsePairs d.toNat { parseStart s with srcPos := 8#32 }).bind fun u =>
        if d = 0#32 ∧ t ≠ 0#32 then raiseFault .headerEmptyTable t u
        else .go { u with total := t, distinct := d.setWidth 9, ftv := true, hpv := true } := by
  have hlen := congrArg List.length h
  rw [Memory.length_bytes, List.length_append, List.length_append, length_be32Bytes, length_be32Bytes] at hlen
  have r0 : memRead4 (parseStart s) 0 = some t := by
    apply memRead4_of_drop hw (rest := be32Bytes d ++ rest)
    show s.src.bytes.drop 0 = _
    rw [h, List.drop_zero, List.append_assoc]
  have r4 : memRead4 (parseStart s) 4 = some d := by
    apply memRead4_of_drop hw (rest := rest)
    show s.src.bytes.drop 4 = _
    rw [h]
    rfl
  simp only [hfparseBody]
  rw [if_neg (show ¬ (parseStart s).src.length = 0 by show ¬ s.src.length = 0; omega),
    if_neg (show ¬ (parseStart s).src.length < 8 by show ¬ s.src.length < 8; omega), r0, r4]
  rfl

theorem drop_counts {l rest : List Byte} {t d : Word} (h : l = be32Bytes t ++ be32Bytes d ++ rest) :
    l.drop 8 = rest := by rw [h]; rfl

theorem headerBytes_eq (t : Word) (pairs : List (Byte × Word)) (rest : List Byte) : headerBytes t pairs ++ rest =
    be32Bytes t ++ be32Bytes (BitVec.ofNat 32 pairs.length) ++ (pairBytes pairs ++ rest) := by
  rw [headerBytes, List.append_assoc, List.append_assoc]

/-- The pairs of a header that begin as a table's do, and the loop behind them. -/
theorem hfparseBody_pairs {s : State} (hw : s.src.wf = true) (hlt : s.src.length < 2 ^ 32) {t d : Word}
    {pairs : List (Byte × Word)} {rest : List Byte}
    (h : s.src.bytes = be32Bytes t ++ be32Bytes d ++ pairBytes pairs ++ rest) (hd : d.toNat ≤ 256)
    (hok : pairsOk pairs) (hle : pairs.length ≤ d.toNat) : hfparseBody s =
      (parsePairs (d.toNat - pairs.length) { parseStart s with
        freq := addPairs (Vector.replicate 256 0#32) pairs, srcPos := BitVec.ofNat 32 (8 + 5 * pairs.length) }).bind
        fun u => if d = 0#32 ∧ t ≠ 0#32 then raiseFault .headerEmptyTable t u
          else .go { u with total := t, distinct := d.setWidth 9, ftv := true, hpv := true } := by
  rw [List.append_assoc (be32Bytes t ++ be32Bytes d)] at h
  rw [hfparseBody_counts hw h, if_neg (by omega)]
  have e : d.toNat = pairs.length + (d.toNat - pairs.length) := by omega
  have := parsePairs_reads (s := { parseStart s with srcPos := 8#32 }) (rest := rest) (d.toNat - pairs.length) hw hlt
    (drop_counts h) hok.1 hok.2.1 (fun p _ => by simp [parseStart, present])
  rw [← e] at this
  rw [this]
  congr 2
  rw [BitVec.ofNat_add]
  rfl

/-- HFPARSE completes on every header whose pairs could be a table's. -/
theorem hfparseBody_reads {s : State} (hw : s.src.wf = true) (hlt : s.src.length < 2 ^ 32) {t : Word}
    {pairs : List (Byte × Word)} {rest : List Byte} (h : s.src.bytes = headerBytes t pairs ++ rest)
    (hok : pairsOk pairs) (he : pairs = [] → t = 0#32) : hfparseBody s = .go { s with
      freq := addPairs (Vector.replicate 256 0#32) pairs, total := t, distinct := BitVec.ofNat 9 pairs.length
      srcPos := BitVec.ofNat 32 (8 + 5 * pairs.length)
      ftv := true, trv := false, cdv := false, hpv := true, empty := false } := by
  have hp := hok.2.2
  have ed : (BitVec.ofNat 32 pairs.length).toNat = pairs.length := by
    rw [BitVec.toNat_ofNat, Nat.mod_eq_of_lt (by omega)]
  rw [headerBytes_eq, ← List.append_assoc] at h
  rw [hfparseBody_pairs hw hlt h (by omega) hok (by omega), ed, Nat.sub_self, parsePairs, Flow.bind_go, if_neg]
  · congr 2
    apply BitVec.eq_of_toNat_eq
    simp
  · rintro ⟨h0, h1⟩
    apply h1
    apply he
    have := congrArg BitVec.toNat h0
    rw [ed] at this
    exact List.eq_nil_of_length_eq_zero this

/-- All that HFPARSE can do (45_header_framer.md R195): the empty frame, a header in order, or a fault. -/
theorem hfparseBody_cases {s : State} (hw : s.src.wf = true) (hlt : s.src.length < 2 ^ 32) :
    s.src.length = 0 ∨
    (∃ t pairs rest, s.src.bytes = headerBytes t pairs ++ rest ∧ pairsOk pairs ∧ (pairs = [] → t = 0#32)) ∨
    ∃ c i, hfparseBody s = .raised (enterFault c i s) := by
  by_cases h0 : s.src.length = 0
  · exact Or.inl h0
  right
  by_cases h8 : s.src.length < 8
  · right
    exact ⟨_, _, hfparseBody_short (by omega) h8⟩
  obtain ⟨t, l, hl⟩ := exists_be32Bytes (l := s.src.bytes) (by rw [Memory.length_bytes]; omega)
  have hlen := congrArg List.length hl
  rw [Memory.length_bytes, List.length_append, length_be32Bytes] at hlen
  obtain ⟨d, rest, rfl⟩ := exists_be32Bytes (l := l) (by omega)
  rw [← List.append_assoc] at hl
  have hb := hfparseBody_counts hw hl
  by_cases hd : d.toNat > 256
  · right
    rw [hb, if_pos hd]
    exact ⟨_, _, rfl⟩
  rw [if_neg hd] at hb
  rcases parsePairs_cases d.toNat (s := { parseStart s with srcPos := 8#32 }) hw hlt
    (by show 8 ≤ s.src.length; omega) with ⟨pairs, rest', h1, h2, h3, h4, h5, h6⟩ | ⟨c, i, h⟩
  · by_cases he : d = 0#32 ∧ t ≠ 0#32
    · right
      rw [hb, h6, Flow.bind_go, if_pos he]
      exact ⟨_, _, rfl⟩
    · left
      have e : rest = pairBytes pairs ++ rest' := (drop_counts hl).symm.trans h2
      have ed : BitVec.ofNat 32 pairs.length = d := by rw [h1]; simp
      refine ⟨t, pairs, rest', ?_, ⟨h3, h4, by omega⟩, ?_⟩
      · rw [hl, e, headerBytes_eq, ed]
      · rintro rfl
        by_contra hne
        exact he ⟨by rw [← ed]; rfl, hne⟩
  · right
    rw [hb, h]
    exact ⟨c, i, rfl⟩

/-- The number of present symbols of the table a header gives. -/
theorem presentCount_addPairs {pairs : List (Byte × Word)} (h : pairsOk pairs) :
    presentCount (addPairs (Vector.replicate 256 0#32) pairs) = pairs.length := by
  have perm : (presentSymbols (addPairs (Vector.replicate 256 0#32) pairs)).Perm (pairs.map Prod.fst) := by
    rw [List.perm_ext_iff_of_nodup (presentSymbols_nodup _) h.1]
    intro x
    rw [mem_presentSymbols, present_iff, freqAt_addPairs h.1]
    constructor
    · intro hx
      by_contra hn
      apply hx
      have : pairs.find? (fun p => p.1 == x) = none := by
        rw [List.find?_eq_none]
        intro p hp
        simp only [beq_iff_eq]
        rintro rfl
        exact hn (List.mem_map_of_mem hp)
      simp [pairCount, this]
    · intro hx
      obtain ⟨p, hp, rfl⟩ := List.mem_map.mp hx
      cases hf : pairs.find? (fun q => q.1 == p.1) with
      | none =>
        have := List.find?_eq_none.mp hf p hp
        simp at this
      | some q =>
        simp only [pairCount, hf]
        exact h.2.1 q (List.mem_of_find?_eq_some hf)
  rw [presentCount, perm.length_eq, List.length_map]

/-- A table read from the pairs of a table is that table (45_header_framer.md R204). -/
theorem addPairs_tablePairs (t : Vector Word 256) : addPairs (Vector.replicate 256 0#32) (tablePairs t) = t := by
  apply freq_ext
  intro x
  have hm : (tablePairs t).map Prod.fst = presentSymbols t := by
    rw [tablePairs, List.map_map]
    exact List.map_id _
  rw [freqAt_addPairs (by rw [hm]; exact presentSymbols_nodup t)]
  cases hf : (tablePairs t).find? (fun q => q.1 == x) with
  | none =>
    simp only [pairCount, hf]
    by_contra hne
    have hx : x ∈ presentSymbols t := mem_presentSymbols.mpr (present_iff.mpr (Ne.symm hne))
    have := List.find?_eq_none.mp hf (x, freqAt t x) (List.mem_map.mpr ⟨x, hx, rfl⟩)
    simp at this
  | some q =>
    simp only [pairCount, hf]
    have h1 := List.find?_some hf
    obtain ⟨y, hy, rfl⟩ := List.mem_map.mp (List.mem_of_find?_eq_some hf)
    simp at h1
    rw [h1]

theorem tablePairs_ok (t : Vector Word 256) : pairsOk (tablePairs t) := by
  have hm : (tablePairs t).map Prod.fst = presentSymbols t := by
    rw [tablePairs, List.map_map]
    exact List.map_id _
  refine ⟨by rw [hm]; exact presentSymbols_nodup t, fun p hp => ?_, ?_⟩
  · obtain ⟨y, hy, rfl⟩ := List.mem_map.mp hp
    exact present_iff.mp (mem_presentSymbols.mp hy)
  · rw [tablePairs, List.length_map]
    exact presentCount_le t

@[simp] theorem length_tablePairs (t : Vector Word 256) : (tablePairs t).length = presentCount t := by
  rw [tablePairs, List.length_map]; rfl

/-! ### HFEMIT -/

/-- HFEMIT on a table that is not empty and whose header fits (45_header_framer.md R191). -/
theorem hfemitBody_fits {s : State} (hf : s.ftv = true) (hd : s.distinct ≠ 0#9)
    (hc : s.distinct.toNat = presentCount s.freq) (h : 8 + 5 * s.distinct.toNat ≤ s.cfg.snkCap.toNat) :
    hfemitBody s = .go { s with snk := Memory.ofBytes (headerBytes s.total (tablePairs s.freq)) } := by
  have e : BitVec.ofNat 32 (tablePairs s.freq).length = s.distinct.setWidth 32 := by
    rw [length_tablePairs, ← hc]
    apply BitVec.eq_of_toNat_eq
    simp
  rw [hfemitBody, if_neg (by simp [hf])]
  dsimp only
  rw [if_neg hd, memWrite4, memWrite_fits, Flow.bind_go]
  · dsimp only
    rw [memWrite4, memWrite_fits, Flow.bind_go, emitPairs_fits]
    · rw [headerBytes, Memory.ofBytes, Memory.appendAll_append, Memory.appendAll_append, e]
      rfl
    · simp only [Memory.length_appendAll, length_be32Bytes, List.length_nil]
      rw [← presentCount, ← hc]
      omega
    · simp only [Memory.length_appendAll, length_be32Bytes, List.length_nil]
      omega
  · simp only [length_be32Bytes, List.length_nil]
    omega

end Sys2Proof.Machine
end

