-- ==== Sys2Proof/Laws/Symbols.lean ====
section
/-! SUPPORT. Sums and counts over all 256 symbols, and the present symbols as a sublist of them. -/

namespace Sys2Proof.Machine

/-- The symbols 0 .. 255 in order. -/
def allSymbols : List Byte := (List.range 256).map (BitVec.ofNat 8)

theorem mem_allSymbols (x : Byte) : x ∈ allSymbols :=
  List.mem_map.mpr ⟨x.toNat, List.mem_range.mpr x.isLt, by simp⟩

theorem allSymbols_sorted : allSymbols.Pairwise (fun x y => x.toNat < y.toNat) := by
  rw [allSymbols, List.pairwise_map]
  refine List.Pairwise.imp_of_mem ?_ List.pairwise_lt_range
  intro a b ha hb hab
  rw [List.mem_range] at ha hb
  simpa [Nat.mod_eq_of_lt ha, Nat.mod_eq_of_lt hb] using hab

/-- The present symbols are those of 0 .. 255 whose count is not 0. -/
theorem presentSymbols_eq_filter (t : Vector Word 256) : presentSymbols t = allSymbols.filter (present t) := by
  have nd : (allSymbols.filter (present t)).Nodup :=
    (allSymbols_sorted.imp fun h e => by subst e; omega : allSymbols.Nodup).filter _
  have perm : (presentSymbols t).Perm (allSymbols.filter (present t)) := by
    rw [List.perm_ext_iff_of_nodup (presentSymbols_nodup t) nd]
    intro x
    simp [mem_presentSymbols, mem_allSymbols]
  refine perm.eq_of_pairwise (le := fun x y => x.toNat < y.toNat) ?_ (presentSymbols_sorted t)
    (allSymbols_sorted.filter _)
  intro a b _ _ h1 h2
  omega

theorem distinctOf_eq (t : Vector Word 256) : distinctOf t = presentCount t := by
  rw [presentCount, presentSymbols_eq_filter, ← List.countP_eq_length_filter, allSymbols, List.countP_map]
  rfl

theorem sumSymbols_eq (g : Byte → Nat) : sumSymbols g = (allSymbols.map g).sum := by
  rw [allSymbols, List.map_map]; rfl

/-- A sum over all symbols that gives absent ones 0 is a sum over the present ones. -/
theorem sumSymbols_present {t : Vector Word 256} {g : Byte → Nat} (h : ∀ x, present t x = false → g x = 0) :
    sumSymbols g = ((presentSymbols t).map g).sum := by
  rw [sumSymbols_eq, presentSymbols_eq_filter]
  generalize allSymbols = l
  induction l with
  | nil => rfl
  | cons x l ih =>
    by_cases hx : present t x = true
    · rw [List.filter_cons_of_pos hx]; simp [ih]
    · have hx' : present t x = false := by simpa using hx
      rw [List.filter_cons_of_neg (by simpa using hx)]
      simp [h x hx', ih]

theorem sumSymbols_add (g g' : Byte → Nat) : sumSymbols (fun x => g x + g' x) = sumSymbols g + sumSymbols g' := by
  rw [sumSymbols_eq, sumSymbols_eq, sumSymbols_eq]
  generalize allSymbols = l
  induction l with
  | nil => rfl
  | cons x l ih => simp only [List.map_cons, List.sum_cons, ih]; omega

theorem allSymbols_nodup : allSymbols.Nodup := allSymbols_sorted.imp fun h e => by subst e; omega

theorem sumSymbols_one (b : Byte) : sumSymbols (fun x => if b = x then 1 else 0) = 1 := by
  have key : ∀ l : List Byte, (l.map fun x => if b = x then 1 else 0).sum = l.count b := by
    intro l
    induction l with
    | nil => rfl
    | cons x l ih =>
      rw [List.map_cons, List.sum_cons, ih, List.count_cons]
      by_cases h : b = x
      · subst h; simp; omega
      · have h' : ¬ x = b := fun e => h e.symm
        simp [h, h']
  rw [sumSymbols_eq, key]
  exact List.count_eq_one_of_mem allSymbols_nodup (mem_allSymbols b)

/-- The counts of the bytes of a sequence add up to its length (10_state.md R22). -/
theorem sumSymbols_count (bs : List Byte) : sumSymbols (fun x => bs.count x) = bs.length := by
  induction bs with
  | nil => rw [sumSymbols_eq]; simp
  | cons b bs ih =>
    have e : (fun x => (b :: bs).count x) = fun x => bs.count x + if b = x then 1 else 0 := by
      funext x
      rw [List.count_cons]
      simp
    rw [e, sumSymbols_add, ih, sumSymbols_one, List.length_cons]

theorem pairBytes_tablePairs (t : Vector Word 256) : pairBytes (tablePairs t) =
    allSymbols.flatMap fun x => if freqAt t x = 0#32 then [] else x :: be32Bytes (freqAt t x) := by
  rw [tablePairs, presentSymbols_eq_filter, pairBytes, List.flatMap_map]
  generalize allSymbols = l
  induction l with
  | nil => rfl
  | cons x l ih =>
    by_cases hx : present t x = true
    · have h0 : freqAt t x ≠ 0#32 := present_iff.mp hx
      rw [List.filter_cons_of_pos hx]
      simp [ih, h0]
    · have h0 : freqAt t x = 0#32 := by simpa [present] using hx
      rw [List.filter_cons_of_neg (by simpa using hx)]
      simp [ih, h0]

end Sys2Proof.Machine
end

