-- ==== Sys2Proof/Laws/Invariant.lean ====
section
/-! SUPPORT. What the invariant says in the terms of the laws: the tree of the present FREQ, its codes, the table of the
present SRC. -/

namespace Sys2Proof.Machine

/-- The tables `l`, `r`, the root and `k` merges are the tree of FREQ (42_tree_builder.md R145, R146). -/
structure Built (freq : Vector Word 256) (l r : Vector NodeId 255) (root : NodeId) (k : Nat) : Prop where
  l_eq : l = (merged freq).l
  r_eq : r = (merged freq).r
  k_eq : k = (merged freq).k
  good : (merged freq).Good freq
  count : k + 1 = presentCount freq
  rootEntry : ∀ n, (merged freq).Entry freq k n ↔ n = root.toNat
  root_lt : root.toNat < 256 + k
  root_internal : 1 ≤ k → root.toNat = 255 + k
  root_leaf : k = 0 → presentSymbols freq = [root.setWidth 8] ∧ root.toNat < 256
  pop : (merged freq).pop = some (root.toNat, (merged freq).remove root.toNat)

namespace Built

theorem k_lt {freq : Vector Word 256} {l r : Vector NodeId 255} {root : NodeId} {k : Nat}
    (h : Built freq l r root k) : k < 256 := by
  have := presentCount_le freq
  have := h.count
  omega

/-- A child of an internal node in use is in use, and has a smaller id (42_tree_builder.md R146). -/
theorem child {freq : Vector Word 256} {l r : Vector NodeId 255} {root n : NodeId} {k : Nat}
    (h : Built freq l r root k) (h1 : 256 ≤ n.toNat) (h2 : n.toNat < 256 + k) (d : Bool) :
    inUse freq k (if d then childAt r n else childAt l n).toNat ∧
      (if d then childAt r n else childAt l n).toNat < n.toNat := by
  have e := h.k_eq
  subst e
  rw [h.l_eq, h.r_eq]
  refine ⟨h.good.child_inUse h1 h2 d, ?_⟩
  have := h.good.child_lt h1 h2
  cases d
  · exact this.1
  · exact this.2

theorem root_inUse {freq : Vector Word 256} {l r : Vector NodeId 255} {root : NodeId} {k : Nat}
    (h : Built freq l r root k) : inUse freq k root.toNat := ((h.rootEntry _).mpr rfl).1

/-- A step of a walk leads from an internal node in use to a node in use. -/
theorem follow_inUse {freq : Vector Word 256} {l r : Vector NodeId 255} {root : NodeId} {k : Nat}
    (h : Built freq l r root k) {p : List Bool} {n : NodeId} (hn : inUse freq k n.toNat)
    (hp : ∀ q, q <+: p → q ≠ p → 256 ≤ (follow l r n q).toNat) : inUse freq k (follow l r n p).toNat := by
  induction p generalizing n with
  | nil => exact hn
  | cons b p ih =>
    have h0 : 256 ≤ n.toNat := hp [] (List.nil_prefix) (by simp)
    have h1 : n.toNat < 256 + k := by rcases hn with h | h <;> omega
    refine ih (h.child h0 h1 b).1 fun q hq hne => ?_
    exact hp (b :: q) (List.cons_prefix_cons.mpr ⟨rfl, hq⟩) (by simpa using hne)

/-- A node in use is a child of at most one internal node in use, on one side (42_tree_builder.md R146). -/
theorem child_inj {freq : Vector Word 256} {l r : Vector NodeId 255} {root m n : NodeId} {k : Nat}
    (h : Built freq l r root k) (hm : 256 ≤ m.toNat ∧ m.toNat < 256 + k) (hn : 256 ≤ n.toNat ∧ n.toNat < 256 + k)
    {b c : Bool} (e : (if b then childAt r m else childAt l m) = (if c then childAt r n else childAt l n)) :
    m = n ∧ b = c := by
  have hk := h.k_lt
  obtain ⟨i, hi⟩ : ∃ i, m.toNat = 256 + i := ⟨m.toNat - 256, by omega⟩
  obtain ⟨j, hj⟩ : ∃ j, n.toNat = 256 + j := ⟨n.toNat - 256, by omega⟩
  have em : m = BitVec.ofNat 9 (256 + i) := by rw [← hi]; simp
  have en : n = BitVec.ofNat 9 (256 + j) := by rw [← hj]; simp
  have ek := h.k_eq
  have pi := h.good.pass i (by omega)
  have pj := h.good.pass j (by omega)
  have e' := congrArg BitVec.toNat e
  rw [em, en, h.l_eq, h.r_eq] at e'
  have side : ∀ (d : Bool) (q : Nat), q < 256 → (if d then childAt (merged freq).r (BitVec.ofNat 9 (256 + q)) else
      childAt (merged freq).l (BitVec.ofNat 9 (256 + q))).toNat = if d then (merged freq).rc q else (merged freq).lc q := by
    intro d q hq
    cases d
    · exact Build.childAt_l _ hq
    · exact Build.childAt_r _ hq
  rw [side b i (by omega), side c j (by omega)] at e'
  have ij : i = j := by
    by_contra hne
    rcases Nat.lt_or_gt_of_ne hne with hlt | hlt
    · have t1 := pj.1.2 i hlt
      have t2 := pj.2.1.2 i hlt
      cases b <;> cases c <;> simp_all
    · have t1 := pi.1.2 j hlt
      have t2 := pi.2.1.2 j hlt
      cases b <;> cases c <;> simp_all
  subst ij
  refine ⟨em.trans en.symm, ?_⟩
  have := pi.2.2.1
  cases b <;> cases c <;> simp_all

/-- ROOT is no child (42_tree_builder.md R146). -/
theorem child_ne_root {freq : Vector Word 256} {l r : Vector NodeId 255} {root m : NodeId} {k : Nat}
    (h : Built freq l r root k) (hm : 256 ≤ m.toNat ∧ m.toNat < 256 + k) (b : Bool) :
    (if b then childAt r m else childAt l m) ≠ root := by
  have hk := h.k_lt
  obtain ⟨i, hi⟩ : ∃ i, m.toNat = 256 + i := ⟨m.toNat - 256, by omega⟩
  have em : m = BitVec.ofNat 9 (256 + i) := by rw [← hi]; simp
  have t := ((h.rootEntry _).mpr rfl).2 i (by omega)
  intro e
  have e' := congrArg BitVec.toNat e
  rw [em, h.l_eq, h.r_eq] at e'
  cases b
  · rw [if_neg (by simp), Build.childAt_l _ (by omega)] at e'; exact t.1 e'
  · rw [if_pos rfl, Build.childAt_r _ (by omega)] at e'; exact t.2 e'

/-- Two strings that lead from ROOT through internal nodes to one node are equal. -/
theorem follow_inj {freq : Vector Word 256} {l r : Vector NodeId 255} {root : NodeId} {k : Nat}
    (h : Built freq l r root k) (p q : List Bool)
    (hp : ∀ p', p' <+: p → p' ≠ p → 256 ≤ (follow l r root p').toNat)
    (hq : ∀ q', q' <+: q → q' ≠ q → 256 ≤ (follow l r root q').toNat)
    (e : follow l r root p = follow l r root q) : p = q := by
  have inner : ∀ (p : List Bool) (b : Bool), (∀ p', p' <+: p ++ [b] → p' ≠ p ++ [b] →
      256 ≤ (follow l r root p').toNat) → (∀ p', p' <+: p → p' ≠ p → 256 ≤ (follow l r root p').toNat) ∧
      (256 ≤ (follow l r root p).toNat ∧ (follow l r root p).toNat < 256 + k) := by
    intro p b hp
    have h1 : ∀ p', p' <+: p → p' ≠ p → 256 ≤ (follow l r root p').toNat := fun p' h1 h2 =>
      hp p' (h1.trans (List.prefix_append _ _)) fun e => by
        have := h1.length_le
        rw [e, List.length_append] at this
        simp at this
    have h2 := hp p (List.prefix_append _ _) (by simp)
    refine ⟨h1, h2, ?_⟩
    rcases h.follow_inUse h.root_inUse h1 with h3 | h3
    · omega
    · exact h3.2
  have last : ∀ (p : List Bool) (b : Bool), follow l r root (p ++ [b]) =
      if b then childAt r (follow l r root p) else childAt l (follow l r root p) := fun p b => by
    rw [follow_append]; rfl
  induction p using List.reverseRecOn generalizing q with
  | nil =>
    rcases List.eq_nil_or_concat q with rfl | ⟨q', c, rfl⟩
    · rfl
    · rw [List.concat_eq_append] at hq e ⊢
      obtain ⟨-, h2⟩ := inner q' c hq
      rw [last] at e
      exact absurd e.symm (h.child_ne_root h2 c)
  | append_singleton p b ih =>
    obtain ⟨h1, h2⟩ := inner p b hp
    rcases List.eq_nil_or_concat q with rfl | ⟨q', c, rfl⟩
    · rw [last] at e
      exact absurd e (h.child_ne_root h2 b)
    · rw [List.concat_eq_append] at hq e ⊢
      obtain ⟨h3, h4⟩ := inner q' c hq
      rw [last, last] at e
      obtain ⟨e1, e2⟩ := h.child_inj h2 h4 e
      rw [ih q' h1 h3 e1, e2]

/-- The one path of a present symbol, and its length (43_code_table.md R160, R165). -/
theorem path {freq : Vector Word 256} {l r : Vector NodeId 255} {root : NodeId} {k : Nat}
    (h : Built freq l r root k) {x : Byte} (hx : present freq x = true) :
    ∃ p, isPath l r root p x ∧ p.length ≤ k ∧ ∀ q, isPath l r root q x ↔ q = p := by
  have hk := h.k_lt
  have hc := h.count
  obtain ⟨c, -, hp, -⟩ := deriveCodes_built (by omega) h.pop
  obtain ⟨p, hp1, hp2, -⟩ := hp x hx
  have e : BitVec.ofNat 9 root.toNat = root := by simp
  rw [e, Build.remove_l, Build.remove_r, ← h.l_eq, ← h.r_eq] at hp1
  rw [Build.remove_k, ← h.k_eq] at hp2
  refine ⟨p, hp1, hp2, fun q => ⟨fun hq => ?_, fun hq => hq ▸ hp1⟩⟩
  exact h.follow_inj q p hq.2 hp1.2 (hq.1.trans hp1.1.symm)

end Built

/-- The tree that TBBUILD builds from a table with a symbol (42_tree_builder.md R145, R146). -/
theorem merged_built {freq : Vector Word 256} (h : 1 ≤ presentCount freq) :
    ∃ root, Built freq (merged freq).l (merged freq).r root (merged freq).k := by
  obtain ⟨root, hp, g, hk, hent, -, hlt, hr1, hr0⟩ := merged_pop h
  have hc := presentCount_le freq
  have e : (BitVec.ofNat 9 root).toNat = root := by simp; omega
  refine ⟨BitVec.ofNat 9 root, rfl, rfl, rfl, g, hk, by rw [e]; exact hent, by rw [e]; exact hlt, by rw [e]; exact hr1,
    ?_, by rw [e]; exact hp⟩
  intro h0
  obtain ⟨h1, h2⟩ := hr0 h0
  refine ⟨?_, by rw [e]; exact h2⟩
  rw [h1]
  congr 1
  apply BitVec.eq_of_toNat_eq
  simp

/-- The tree of a table with a symbol is one value. -/
theorem Built.pop_eq {freq : Vector Word 256} {l r : Vector NodeId 255} {root : NodeId} {k : Nat}
    (h : Built freq l r root k) {n : Nat} {b : Build} (hp : (merged freq).pop = some (n, b)) :
    n = root.toNat ∧ b = (merged freq).remove root.toNat := by
  have := h.pop.symm.trans hp
  simp only [Option.some.injEq, Prod.mk.injEq] at this
  exact ⟨this.1.symm, this.2.symm⟩

/-- The codes that CGDERIVE derives from a built tree are the paths of its leaves (43_code_table.md R160 to R162). -/
theorem Built.codes {freq : Vector Word 256} {l r : Vector NodeId 255} {root : NodeId} {k : Nat}
    (h : Built freq l r root k) : ∃ c, deriveCodes l r root = some c ∧
      (∀ x, present freq x = true → ∃ p, (∀ q, isPath l r root q x ↔ q = p) ∧ p.length ≤ k ∧
        c.len[x.toNat]'(x.isLt) = BitVec.ofNat 8 p.length ∧ c.bits[x.toNat]'(x.isLt) = placeBits p) ∧
      (∀ x, present freq x = false → c.len[x.toNat]'(x.isLt) = 0#8 ∧ c.bits[x.toNat]'(x.isLt) = 0#256) := by
  have hc := h.count
  obtain ⟨c, h1, h2, h3⟩ := deriveCodes_built (by omega) h.pop
  have e : BitVec.ofNat 9 root.toNat = root := by simp
  rw [e, Build.remove_l, Build.remove_r, ← h.l_eq, ← h.r_eq] at h1
  refine ⟨c, h1, fun x hx => ?_, h3⟩
  obtain ⟨p, hp1, -, hp3⟩ := h2 x hx
  rw [e, Build.remove_l, Build.remove_r, ← h.l_eq, ← h.r_eq] at hp1
  obtain ⟨p', -, q2, q3⟩ := h.path hx
  have := (q3 p).mp hp1
  subst this
  exact ⟨p, q3, q2, hp3⟩

namespace Inv

theorem srcLt {s : State} (h : Inv s) : s.src.length < 2 ^ 32 := by
  have := s.cfg.srcCap.isLt
  have := h.srcFits
  omega

theorem snkLt {s : State} (h : Inv s) : s.snk.length < 2 ^ 32 := by
  have := s.cfg.snkCap.isLt
  have := h.snkFits
  omega

theorem srcLen_toNat {s : State} (h : Inv s) : s.srcLen.toNat = s.src.length := by
  rw [State.srcLen, BitVec.toNat_ofNat, Nat.mod_eq_of_lt h.srcLt]

/-- With TRV the tables are the tree of FREQ (10_state.md R39). -/
theorem built {s : State} (h : Inv s) (ht : s.trv = true) : Built s.freq s.nodeL s.nodeR s.root s.nint.toNat := by
  have h1 := h.nint ht
  have h2 := h.distinct (h.trvFtv ht)
  have ht := h.tree ht
  obtain ⟨root, hb⟩ := merged_built (freq := s.freq) (by omega)
  have hk := hb.k_lt
  rw [treeCurrent, hb.pop] at ht
  obtain ⟨-, -, e1, e2, e3, e4⟩ := of_decide_eq_true ht
  have e5 : s.root = root := by rw [e3]; simp
  have e6 : s.nint.toNat = (merged s.freq).k := by rw [e4]; simp; omega
  rw [e1, e2, e5, e6]
  exact hb

/-- With CDV the code of a present symbol is its path (43_code_table.md R161). -/
theorem code_path {s : State} (h : Inv s) (hc : s.cdv = true) {x : Byte} (hx : present s.freq x = true) :
    (∀ q, isPath s.nodeL s.nodeR s.root q x ↔ q = codeOf s.codeLen s.codeBits x) ∧
      (codeOf s.codeLen s.codeBits x).length = (s.codeLen[x.toNat]'(x.isLt)).toNat ∧
      (codeOf s.codeLen s.codeBits x).length ≤ s.nint.toNat := by
  have hb := h.built (h.cdvTrv hc)
  have hk := hb.k_lt
  obtain ⟨c, h1, h2, -⟩ := hb.codes
  have e := (h.codes hc).symm.trans h1
  simp only [Option.some.injEq] at e
  subst e
  obtain ⟨p, p1, p2, p3, p4⟩ := h2 x hx
  have := codeOf_recorded (len := s.codeLen) (bits := s.codeBits) (by omega) p3 p4
  rw [this]
  refine ⟨p1, ?_, p2⟩
  have p3' : s.codeLen[x.toNat]'(x.isLt) = BitVec.ofNat 8 p.length := p3
  rw [p3', BitVec.toNat_ofNat, Nat.mod_eq_of_lt (by omega)]

/-- With HPV the table is that of the header at the start of SRC (10_state.md R39). -/
theorem header {s : State} (h : Inv s) (hp : s.hpv = true) :
    (s.src.length = 0 ∧ s.freq = Vector.replicate 256 0#32 ∧ s.total = 0#32 ∧ s.distinct = 0#9) ∨
    ∃ pairs rest, s.src.bytes = headerBytes s.total pairs ++ rest ∧ pairsOk pairs ∧ (pairs = [] → s.total = 0#32) ∧
      s.freq = addPairs (Vector.replicate 256 0#32) pairs ∧ s.distinct.toNat = pairs.length ∧
      8 + 5 * s.distinct.toNat + rest.length = s.src.length := by
  have hc := h.parsed hp
  rcases hfparseBody_cases h.src h.srcLt with h0 | ⟨t, pairs, rest, hb, hok, hz⟩ | ⟨c, i, hr⟩
  · left
    rw [headerCurrent, hfparseBody_empty h0] at hc
    obtain ⟨e1, e2, e3⟩ := of_decide_eq_true hc
    exact ⟨h0, e1.symm, e2.symm, e3.symm⟩
  · right
    rw [headerCurrent, hfparseBody_reads h.src h.srcLt hb hok hz] at hc
    obtain ⟨e1, e2, e3⟩ := of_decide_eq_true hc
    dsimp only at e1 e2 e3
    have el : s.distinct.toNat = pairs.length := by
      have := hok.2.2
      rw [← e3, BitVec.toNat_ofNat, Nat.mod_eq_of_lt (by omega)]
    refine ⟨pairs, rest, e2 ▸ hb, hok, fun h => e2 ▸ hz h, e1.symm, el, ?_⟩
    have := congrArg List.length hb
    rw [Memory.length_bytes, headerBytes] at this
    simp only [List.length_append, length_be32Bytes, length_pairBytes] at this
    omega
  · rw [headerCurrent, hr] at hc
    cases hc

/-- With HPV and a symbol the header lies inside SRC. -/
theorem header_le {s : State} (h : Inv s) (hp : s.hpv = true) (hd : s.distinct ≠ 0#9) :
    8 + 5 * s.distinct.toNat ≤ s.src.length := by
  rcases h.header hp with ⟨-, -, -, h0⟩ | ⟨pairs, rest, -, -, -, -, -, h1⟩
  · exact absurd h0 hd
  · omega

end Inv

end Sys2Proof.Machine
end

