-- ==== Sys2Proof/Laws/Unpack.lean ====
section
/-! SUPPORT. The bit unpacker and the walk (44_bit_io.md R174, R178 to R183): where the cursor stands after `c` bits, what
one symbol's path does, what a string of paths does, and how the walk can end. -/

namespace Sys2Proof.Machine

/-! ### The bits of SRC -/

theorem length_bitString (bs : List Byte) : (bitString bs).length = 8 * bs.length := by
  induction bs with
  | nil => rfl
  | cons b bs ih =>
    have e : bitString (b :: bs) = byteBits b ++ bitString bs := rfl
    rw [e, List.length_append, ih, List.length_cons]
    simp [byteBits]
    omega

/-- Bit `8j + i` of a byte string is bit `7 - i` of byte `j` (20_memory.md R65). -/
theorem bitString_getElem? (bs : List Byte) (j : Nat) {i : Nat} (hi : i < 8) :
    (bitString bs)[8 * j + i]? = bs[j]?.map fun b => b.getLsbD (7 - i) := by
  induction bs generalizing j with
  | nil => simp [bitString]
  | cons b bs ih =>
    have e : bitString (b :: bs) = byteBits b ++ bitString bs := rfl
    rw [e]
    have hl : (byteBits b).length = 8 := rfl
    cases j with
    | zero =>
      rw [List.getElem?_append_left (by omega)]
      rcases i with _ | _ | _ | _ | _ | _ | _ | _ | i <;> first | rfl | omega
    | succ j =>
      rw [List.getElem?_append_right (by omega), hl, show 8 * (j + 1) + i - 8 = 8 * j + i by omega, ih]
      rfl

/-- A bit string is the beginning of the bits of its packed bytes (44_bit_io.md R173). -/
theorem prefix_bitString_pack (q : List Bool) : q <+: bitString (pack q) := by
  have hl : q.length ≤ (bitString (pack q)).length := by
    rw [length_bitString, length_pack]
    omega
  refine List.prefix_iff_eq_take.mpr (List.ext_getElem? fun i => ?_)
  rw [List.getElem?_take]
  split
  · next h =>
    obtain ⟨j, k, hk, rfl⟩ : ∃ j k, k < 8 ∧ i = 8 * j + k := ⟨i / 8, i % 8, by omega, by omega⟩
    have hj : j < (q.length + 7) / 8 := by omega
    rw [bitString_getElem? _ _ hk, pack, List.getElem?_map, List.getElem?_range hj]
    simp only [Option.map_some]
    rw [packedByte_getLsbD q j hk, List.getD_eq_getElem?_getD, List.getElem?_eq_getElem h]
    rfl
  · next h => rw [List.getElem?_eq_none (Nat.not_lt.mp h)]

/-! ### The cursor -/

/-- `s` with the bit cursor `c` bits after address `a` (44_bit_io.md R174). -/
def atBit (a c : Nat) (s : State) : State :=
  { s with
    srcPos := BitVec.ofNat 32 (a + (c + 7) / 8)
    buN := BitVec.ofNat 4 ((8 - c % 8) % 8)
    buCur := if c = 0 then s.buCur else s.src.bytes.getD (a + (c - 1) / 8) 0#8 }

theorem drop_getElem? {l : List Byte} (a j : Nat) : (l.drop a)[j]? = l[a + j]? := by
  rw [List.getElem?_drop]

/-- NextBit delivers bit `c` and moves the cursor by one. -/
theorem nextBit_at {s : State} (hw : s.src.wf = true) (hlt : s.src.length < 2 ^ 32) {a c : Nat} {b : Bool}
    (h : (bitString (s.src.bytes.drop a))[c]? = some b) (k : Bool → State → Flow) :
    nextBit (atBit a c s) k = k b (atBit a (c + 1) s) := by
  obtain ⟨j, i, hi, rfl⟩ : ∃ j i, i < 8 ∧ c = 8 * j + i := ⟨c / 8, c % 8, by omega, by omega⟩
  rw [bitString_getElem? _ _ hi, List.getElem?_drop] at h
  obtain ⟨x, hx, rfl⟩ := Option.map_eq_some_iff.mp h
  have hlen : a + j < s.src.length := by
    have := (List.getElem?_eq_some_iff.mp hx).1
    rwa [Memory.length_bytes] at this
  have hcur : s.src.bytes.getD (a + j) 0#8 = x := by rw [List.getD_eq_getElem?_getD, hx]; rfl
  have hm : (8 * j + i) % 8 = i := by omega
  have hd : (8 * j + i + 1 - 1) / 8 = j := by omega
  have e1 : (atBit a (8 * j + i + 1) s).buCur = x := by
    simp only [atBit]; rw [if_neg (by omega), hd, hcur]
  by_cases h0 : i = 0
  · subst h0
    have f : fetchByte (atBit a (8 * j + 0) s) = .go { atBit a (8 * j + 0) s with
        buCur := x, srcPos := BitVec.ofNat 32 (a + j) + 1#32, buN := 8#4 } := by
      have ep : (atBit a (8 * j + 0) s).srcPos = BitVec.ofNat 32 (a + j) := by
        simp only [atBit]; congr 1; omega
      have en : (atBit a (8 * j + 0) s).buN = 0#4 := by simp [atBit]
      have et : (BitVec.ofNat 32 (a + j)).toNat = a + j := by
        rw [BitVec.toNat_ofNat, Nat.mod_eq_of_lt (by omega)]
      have el : (atBit a (8 * j + 0) s).srcLen = BitVec.ofNat 32 s.src.length := rfl
      have er : memRead1 (atBit a (8 * j + 0) s) (a + j) = some x := by
        show s.src.read (a + j) = some x
        rw [Memory.read_eq hw, hx]
      rw [fetchByte, if_pos en, ep, el, if_neg, et, er]
      intro e
      have := congrArg BitVec.toNat e
      rw [et, BitVec.toNat_ofNat, Nat.mod_eq_of_lt hlt] at this
      omega
    rw [nextBit, f, Flow.bind_go]
    simp only [atBit]
    have e2 : BitVec.ofNat 32 (a + j) + 1#32 = BitVec.ofNat 32 (a + (8 * j + 0 + 1 + 7) / 8) := by
      rw [show (8 * j + 0 + 1 + 7) / 8 = j + 1 by omega, ← Nat.add_assoc]
      exact (BitVec.ofNat_add (a + j) 1).symm
    have e3 : BitVec.ofNat 4 ((8 - (8 * j + 0 + 1) % 8) % 8) = 7#4 := by
      rw [show (8 * j + 0 + 1) % 8 = 1 by omega]
    rw [e2, e3, if_neg (show ¬ 8 * j + 0 + 1 = 0 by omega), hd, hcur]
    rfl
  · have en : (atBit a (8 * j + i) s).buN = BitVec.ofNat 4 (8 - i) := by
      simp only [atBit, hm]; rw [Nat.mod_eq_of_lt (by omega)]
    have ne : ¬ BitVec.ofNat 4 (8 - i) = 0#4 := by
      intro e
      have := congrArg BitVec.toNat e
      simp at this
      omega
    have ec : (atBit a (8 * j + i) s).buCur = x := by
      simp only [atBit]; rw [if_neg (by omega), show (8 * j + i - 1) / 8 = j by omega, hcur]
    have es : BitVec.ofNat 4 (8 - i) - 1#4 = BitVec.ofNat 4 (7 - i) := by
      apply BitVec.eq_of_toNat_eq
      simp
      omega
    have et : (BitVec.ofNat 4 (7 - i)).toNat = 7 - i := by simp; omega
    rw [nextBit, fetchByte, en, if_neg ne, Flow.bind_go]
    dsimp only
    rw [en, es, et, ec]
    congr 1
    simp only [atBit]
    have e2 : (8 - (8 * j + i + 1) % 8) % 8 = 7 - i := by omega
    rw [if_neg (show ¬ 8 * j + i + 1 = 0 by omega), hd, hcur, e2,
      show (8 * j + i + 1 + 7) / 8 = (8 * j + i + 7) / 8 by omega]

/-- NextBit at the end of SRC. -/
theorem nextBit_end {s : State} {a c : Nat} (ha : a ≤ s.src.length)
    (hc : c = 8 * (s.src.length - a)) (k : Bool → State → Flow) :
    nextBit (atBit a c s) k = .raised (enterFault .bitstreamUnderrun s.srcLen s) := by
  have ep : (atBit a c s).srcPos = s.srcLen := by
    simp only [atBit, State.srcLen]
    congr 1
    omega
  have en : (atBit a c s).buN = 0#4 := by simp only [atBit, hc]; simp
  have el : (atBit a c s).srcLen = s.srcLen := rfl
  rw [nextBit, fetchByte, if_pos en, ep, el, if_pos rfl]
  rfl

/-! ### The walk -/

/-- A path in a tree of two or more leaves has a step (44_bit_io.md R180). -/
theorem Built.path_ne_nil {freq : Vector Word 256} {l r : Vector NodeId 255} {root : NodeId} {k : Nat}
    (h : Built freq l r root k) (hk : 1 ≤ k) {p : List Bool} {x : Byte} (hp : isPath l r root p x) : p ≠ [] := by
  rintro rfl
  have hr := h.root_internal hk
  have hx := x.isLt
  rw [isPath_nil.mp hp, BitVec.toNat_setWidth, Nat.mod_eq_of_lt (by omega)] at hr
  omega

/-- Any bit string begins with a path, or stays on internal nodes to its end. -/
theorem path_or_inner (l r : Vector NodeId 255) (q : List Bool) (n : NodeId) :
    (∃ p x rest, q = p ++ rest ∧ isPath l r n p x) ∨ ∀ q', q' <+: q → 256 ≤ (follow l r n q').toNat := by
  by_cases hn : n.toNat < 256
  · refine .inl ⟨[], n.setWidth 8, q, rfl, isPath_nil.mpr ?_⟩
    apply BitVec.eq_of_toNat_eq
    simp
    omega
  · induction q generalizing n with
    | nil =>
      refine .inr fun q' h => ?_
      rw [List.prefix_nil.mp h]
      exact Nat.not_lt.mp hn
    | cons b q ih =>
      have hn' := Nat.not_lt.mp hn
      have step : (∃ p x rest, q = p ++ rest ∧ isPath l r (if b then childAt r n else childAt l n) p x) ∨
          ∀ q', q' <+: q → 256 ≤ (follow l r (if b then childAt r n else childAt l n) q').toNat := by
        by_cases hc : (if b then childAt r n else childAt l n).toNat < 256
        · refine .inl ⟨[], (if b then childAt r n else childAt l n).setWidth 8, q, rfl, isPath_nil.mpr ?_⟩
          apply BitVec.eq_of_toNat_eq
          simp
          omega
        · exact ih _ hc
      rcases step with ⟨p, x, rest, h1, h2⟩ | h
      · exact .inl ⟨b :: p, x, rest, by rw [h1]; rfl, isPath_cons.mpr ⟨hn', h2⟩⟩
      · refine .inr fun q' hq => ?_
        cases q' with
        | nil => exact hn'
        | cons d q' =>
          obtain ⟨rfl, h3⟩ := List.cons_prefix_cons.mp hq
          exact h q' h3

/-- Any bit string is a string of paths and a rest that stays on internal nodes (44_bit_io.md R181). -/
theorem exists_paths {freq : Vector Word 256} {l r : Vector NodeId 255} {root : NodeId} {k : Nat}
    (hb : Built freq l r root k) (hk : 1 ≤ k) (q : List Bool) : ∃ (ds : List (Byte × List Bool)) (tail : List Bool),
      q = ds.flatMap Prod.snd ++ tail ∧ (∀ d ∈ ds, isPath l r root d.2 d.1) ∧
      ∀ q', q' <+: tail → 256 ≤ (follow l r root q').toNat := by
  obtain ⟨n, hn⟩ : ∃ n, n = q.length := ⟨_, rfl⟩
  induction n using Nat.strongRecOn generalizing q with
  | _ n ih =>
    rcases path_or_inner l r q root with ⟨p, x, rest, rfl, hp⟩ | h
    · have hne := hb.path_ne_nil hk hp
      have : 0 < p.length := List.length_pos_iff.mpr hne
      rw [List.length_append] at hn
      obtain ⟨ds, tail, h1, h2, h3⟩ := ih rest.length (by omega) rest rfl
      refine ⟨(x, p) :: ds, tail, ?_, ?_, h3⟩
      · rw [List.flatMap_cons, List.append_assoc, ← h1]
      · intro d hd
        rcases List.mem_cons.mp hd with rfl | h
        · exact hp
        · exact h2 d h
    · exact ⟨[], q, rfl, by simp, h⟩

section Walk

variable {s : State} {a : Nat}

/-- The state of the walk: at node `n`, `e` symbols written, SNK `m`, `c` bits read after address `a`. -/
def walkAt (a : Nat) (s : State) (n : NodeId) (e : Nat) (m : Memory) (c : Nat) : State :=
  atBit a c { s with walk := n, emit := BitVec.ofNat 32 e, snk := m }

/-- A step from an internal node in use. -/
theorem walkBit_step {t : State} {b : Bool} (h1 : 256 ≤ t.walk.toNat) (h2 : t.walk.toNat < 256 + t.nint.toNat) :
    walkBit b t =
      if (if b then childAt t.nodeR t.walk else childAt t.nodeL t.walk).toNat < 256 then
        (snkAppend ((if b then childAt t.nodeR t.walk else childAt t.nodeL t.walk).setWidth 8)
          { t with walk := if b then childAt t.nodeR t.walk else childAt t.nodeL t.walk }).bind fun s =>
            .go { s with emit := s.emit + 1#32, walk := s.root }
      else .go { t with walk := if b then childAt t.nodeR t.walk else childAt t.nodeL t.walk } := by
  rw [walkBit, if_neg (by omega)]

/-- One pass of the loop on the bit `b`. -/
theorem unpackLoop_bit (hw : s.src.wf = true) (hlt : s.src.length < 2 ^ 32) {n : NodeId} {e c f : Nat} {m : Memory}
    {b : Bool} (he : e < s.total.toNat) (hb : (bitString (s.src.bytes.drop a))[c]? = some b)
    (h1 : 256 ≤ n.toNat) (h2 : n.toNat < 256 + s.nint.toNat) :
    unpackLoop (f + 1) (walkAt a s n e m c) =
      if (if b then childAt s.nodeR n else childAt s.nodeL n).toNat < 256 then
        (snkAppend ((if b then childAt s.nodeR n else childAt s.nodeL n).setWidth 8)
          (walkAt a s (if b then childAt s.nodeR n else childAt s.nodeL n) e m (c + 1))).bind fun t =>
            unpackLoop f { t with emit := t.emit + 1#32, walk := t.root }
      else unpackLoop f (walkAt a s (if b then childAt s.nodeR n else childAt s.nodeL n) e m (c + 1)) := by
  have htot := s.total.isLt
  have hcond : (walkAt a s n e m c).emit.toNat < (walkAt a s n e m c).total.toNat := by
    show (BitVec.ofNat 32 e).toNat < s.total.toNat
    rw [BitVec.toNat_ofNat, Nat.mod_eq_of_lt (by omega)]
    exact he
  rw [unpackLoop, if_pos hcond, walkAt,
    nextBit_at (s := { s with walk := n, emit := BitVec.ofNat 32 e, snk := m }) hw hlt hb]
  rw [walkBit_step h1 h2]
  show Flow.bind (if (if b then childAt s.nodeR n else childAt s.nodeL n).toNat < 256 then
    (snkAppend ((if b then childAt s.nodeR n else childAt s.nodeL n).setWidth 8)
      (walkAt a s (if b then childAt s.nodeR n else childAt s.nodeL n) e m (c + 1))).bind fun s =>
        .go { s with emit := s.emit + 1#32, walk := s.root } else
    .go (walkAt a s (if b then childAt s.nodeR n else childAt s.nodeL n) e m (c + 1))) (unpackLoop f) = _
  by_cases hc : (if b then childAt s.nodeR n else childAt s.nodeL n).toNat < 256
  · rw [if_pos hc, if_pos hc, Flow.bind_assoc]
    rfl
  · rw [if_neg hc, if_neg hc, Flow.bind_go]

/-- A path read from an internal node: its symbol is written and the walk is back at ROOT. -/
theorem unpackLoop_path (hw : s.src.wf = true) (hlt : s.src.length < 2 ^ 32)
    (hb : Built s.freq s.nodeL s.nodeR s.root s.nint.toNat) {x : Byte} {e f : Nat} {m : Memory}
    (he : e < s.total.toNat) (p : List Bool) (hne : p ≠ []) (n : NodeId) (hn : inUse s.freq s.nint.toNat n.toNat)
    (hp : isPath s.nodeL s.nodeR n p x) (c : Nat) (hbits : p <+: (bitString (s.src.bytes.drop a)).drop c) :
    unpackLoop (f + p.length) (walkAt a s n e m c) =
      (snkAppend x (walkAt a s (x.setWidth 9) e m (c + p.length))).bind fun t =>
        unpackLoop f { t with emit := t.emit + 1#32, walk := t.root } := by
  induction p generalizing n c with
  | nil => exact absurd rfl hne
  | cons b p ih =>
    obtain ⟨h1, h2⟩ := isPath_cons.mp hp
    have hlt' : n.toNat < 256 + s.nint.toNat := by rcases hn with h | h <;> omega
    obtain ⟨tail, htail⟩ := hbits
    have hbit : (bitString (s.src.bytes.drop a))[c]? = some b := by
      have := congrArg (fun l => l[0]?) htail
      simpa using this.symm
    have hrest : p <+: (bitString (s.src.bytes.drop a)).drop (c + 1) := by
      refine ⟨tail, ?_⟩
      have := congrArg (List.drop 1) htail
      simpa [List.drop_drop, Nat.add_comm] using this
    have hx8 := x.isLt
    rw [List.length_cons, ← Nat.add_assoc, unpackLoop_bit hw hlt he hbit h1 hlt']
    by_cases hp0 : p = []
    · subst hp0
      have ex := isPath_nil.mp h2
      have e8 : (x.setWidth 9).setWidth 8 = x := by
        apply BitVec.eq_of_toNat_eq
        simp
      rw [ex, if_pos (by rw [BitVec.toNat_setWidth, Nat.mod_eq_of_lt (by omega)]; omega), e8]
      rfl
    · have hin := h2.2 [] (List.nil_prefix) (Ne.symm hp0)
      rw [if_neg (by exact Nat.not_lt.mpr hin), ih hp0 _ (hb.child h1 hlt' b).1 h2 (c + 1) hrest,
        show c + 1 + p.length = c + (p.length + 1) by omega]

/-- A string of paths that fits: its symbols are written, one after another. -/
theorem unpackLoop_paths (hw : s.src.wf = true) (hlt : s.src.length < 2 ^ 32)
    (hb : Built s.freq s.nodeL s.nodeR s.root s.nint.toNat) (hk : 1 ≤ s.nint.toNat) (ds : List (Byte × List Bool))
    (hds : ∀ d ∈ ds, isPath s.nodeL s.nodeR s.root d.2 d.1) (e f c : Nat) (m : Memory)
    (he : e + ds.length ≤ s.total.toNat) (hm : m.length + ds.length ≤ s.cfg.snkCap.toNat)
    (hbits : ds.flatMap Prod.snd <+: (bitString (s.src.bytes.drop a)).drop c) :
    unpackLoop (f + (ds.flatMap Prod.snd).length) (walkAt a s s.root e m c) =
      unpackLoop f (walkAt a s s.root (e + ds.length) (m.appendAll (ds.map Prod.fst))
        (c + (ds.flatMap Prod.snd).length)) := by
  induction ds generalizing e c m with
  | nil => rfl
  | cons d ds ih =>
    have hd := hds d (by simp)
    have hne := hb.path_ne_nil hk hd
    rw [List.flatMap_cons] at hbits ⊢
    rw [List.length_cons] at he hm
    have h1 : d.2 <+: (bitString (s.src.bytes.drop a)).drop c := (List.prefix_append _ _).trans hbits
    have h2 : ds.flatMap Prod.snd <+: (bitString (s.src.bytes.drop a)).drop (c + d.2.length) := by
      obtain ⟨tail, htail⟩ := hbits
      refine ⟨tail, ?_⟩
      have := congrArg (List.drop d.2.length) htail
      simpa [List.drop_drop, Nat.add_comm, List.append_assoc] using this
    rw [List.length_append, Nat.add_comm d.2.length, ← Nat.add_assoc,
      unpackLoop_path hw hlt hb (by omega) d.2 hne s.root hb.root_inUse hd c h1, snkAppend,
      memWrite_fits (by show m.length + 1 ≤ s.cfg.snkCap.toNat; omega), Flow.bind_go]
    rw [List.map_cons, Memory.appendAll_cons, List.length_cons,
      show c + ((ds.flatMap Prod.snd).length + d.2.length) = c + d.2.length + (ds.flatMap Prod.snd).length by omega,
      show e + (ds.length + 1) = e + 1 + ds.length by omega]
    refine Eq.trans (congrArg (unpackLoop _) ?_) (ih (fun d' h => hds d' (by simp [h])) (e + 1) (c + d.2.length)
      (m.append d.1) (by omega) (by rw [Memory.length_append]; omega) h2)
    simp only [walkAt, atBit, BitVec.ofNat_add]
    rfl

/-- One symbol more than SNK holds. -/
theorem unpackLoop_overflow (hw : s.src.wf = true) (hlt : s.src.length < 2 ^ 32)
    (hb : Built s.freq s.nodeL s.nodeR s.root s.nint.toNat) (hk : 1 ≤ s.nint.toNat) (d : Byte × List Bool)
    (hd : isPath s.nodeL s.nodeR s.root d.2 d.1) (e f c : Nat) (m : Memory) (he : e < s.total.toNat)
    (hm : m.length = s.cfg.snkCap.toNat) (hbits : d.2 <+: (bitString (s.src.bytes.drop a)).drop c) :
    unpackLoop (f + d.2.length) (walkAt a s s.root e m c) = .raised (enterFault .snkOverflow s.cfg.snkCap s) := by
  rw [unpackLoop_path hw hlt hb he d.2 (hb.path_ne_nil hk hd) s.root hb.root_inUse hd c hbits, snkAppend,
    memWrite_overflow (by show s.cfg.snkCap.toNat < m.length + 1; omega)]
  have e1 : (walkAt a s (d.1.setWidth 9) e m (c + d.2.length)).snkLen = s.cfg.snkCap := by
    show BitVec.ofNat 32 m.length = _
    rw [hm]; simp
  rw [e1]
  rfl

/-- The bits end inside a path. -/
theorem unpackLoop_underrun (hw : s.src.wf = true) (hlt : s.src.length < 2 ^ 32)
    (hb : Built s.freq s.nodeL s.nodeR s.root s.nint.toNat) (ha : a ≤ s.src.length) {e f : Nat} {m : Memory}
    (he : e < s.total.toNat) (q : List Bool) (n : NodeId) (hn : inUse s.freq s.nint.toNat n.toNat)
    (hq : ∀ q', q' <+: q → 256 ≤ (follow s.nodeL s.nodeR n q').toNat) (c : Nat)
    (hc : c ≤ (bitString (s.src.bytes.drop a)).length) (hbits : (bitString (s.src.bytes.drop a)).drop c = q) :
    unpackLoop (f + q.length + 1) (walkAt a s n e m c) = .raised (enterFault .bitstreamUnderrun s.srcLen s) := by
  have htot := s.total.isLt
  have hlen : (bitString (s.src.bytes.drop a)).length = 8 * (s.src.length - a) := by
    rw [length_bitString, List.length_drop, Memory.length_bytes]
  induction q generalizing n c f with
  | nil =>
    have hce : c = 8 * (s.src.length - a) := by
      have := congrArg List.length hbits
      rw [List.length_drop, List.length_nil] at this
      omega
    have hcond : (walkAt a s n e m c).emit.toNat < (walkAt a s n e m c).total.toNat := by
      show (BitVec.ofNat 32 e).toNat < s.total.toNat
      rw [BitVec.toNat_ofNat, Nat.mod_eq_of_lt (by omega)]
      exact he
    rw [unpackLoop, if_pos hcond, walkAt,
      nextBit_end (s := { s with walk := n, emit := BitVec.ofNat 32 e, snk := m }) ha hce]
    rfl
  | cons b q ih =>
    have h1 : 256 ≤ n.toNat := hq [] List.nil_prefix
    have h2 : n.toNat < 256 + s.nint.toNat := by rcases hn with h | h <;> omega
    have hbit : (bitString (s.src.bytes.drop a))[c]? = some b := by
      have := congrArg (fun l => l[0]?) hbits
      simpa using this
    have hrest : (bitString (s.src.bytes.drop a)).drop (c + 1) = q := by
      have := congrArg (List.drop 1) hbits
      simpa [List.drop_drop, Nat.add_comm] using this
    have hlt' : c < (bitString (s.src.bytes.drop a)).length := (List.getElem?_eq_some_iff.mp hbit).1
    have hin := hq [b] (List.prefix_iff_eq_take.mpr (by simp))
    rw [List.length_cons, ← Nat.add_assoc, unpackLoop_bit hw hlt he hbit h1 h2,
      if_neg (by exact Nat.not_lt.mpr hin)]
    exact ih _ (hb.child h1 h2 b).1 (fun q' h => hq (b :: q') (List.cons_prefix_cons.mpr ⟨rfl, h⟩)) (c + 1) hlt' hrest

end Walk

/-! ### BUUNPACK -/

/-- BUUNPACK on a tree of two or more leaves is the walk from the end of the header (44_bit_io.md R178). -/
theorem buunpackBody_walk {s : State} (hp : s.hpv = true) (ht : s.trv = true) (hd : 2 ≤ s.distinct.toNat)
    (hne : s.src.length ≠ 0) : buunpackBody s =
      unpackLoop (8 * s.src.length + 1) (walkAt (8 + 5 * s.distinct.toNat) s s.root 0 [] 0) := by
  have h0 : ¬ s.distinct = 0#9 := fun h => by rw [h] at hd; simp at hd
  have h1 : ¬ s.distinct = 1#9 := fun h => by rw [h] at hd; simp at hd
  rw [buunpackBody, if_neg (by simp [hp]), if_neg (by simp [ht])]
  dsimp only
  rw [if_neg h0, if_neg h1, headerEnd, if_neg hne]
  rfl

/-- The walk completes when the bits begin with TOTAL paths and the symbols fit. -/
theorem buunpackBody_paths {s : State} (hp : s.hpv = true) (ht : s.trv = true) (hd : 2 ≤ s.distinct.toNat)
    (hw : s.src.wf = true) (hlt : s.src.length < 2 ^ 32) (hne : s.src.length ≠ 0)
    (hb : Built s.freq s.nodeL s.nodeR s.root s.nint.toNat) (hk : 1 ≤ s.nint.toNat) {ds : List (Byte × List Bool)}
    (hds : ∀ d ∈ ds, isPath s.nodeL s.nodeR s.root d.2 d.1) (hn : ds.length = s.total.toNat)
    (hfit : s.total.toNat ≤ s.cfg.snkCap.toNat)
    (hbits : ds.flatMap Prod.snd <+: bitString (s.src.bytes.drop (8 + 5 * s.distinct.toNat))) :
    buunpackBody s = .go { s with
      snk := Memory.ofBytes (ds.map Prod.fst), walk := s.root, emit := s.total
      srcPos := BitVec.ofNat 32 (8 + 5 * s.distinct.toNat + ((ds.flatMap Prod.snd).length + 7) / 8)
      buN := BitVec.ofNat 4 ((8 - (ds.flatMap Prod.snd).length % 8) % 8)
      buCur := if (ds.flatMap Prod.snd).length = 0 then s.buCur
        else s.src.bytes.getD (8 + 5 * s.distinct.toNat + ((ds.flatMap Prod.snd).length - 1) / 8) 0#8 } := by
  have hle := hbits.length_le
  rw [length_bitString, List.length_drop, Memory.length_bytes] at hle
  obtain ⟨f, hf⟩ : ∃ f, 8 * s.src.length + 1 = f + 1 + (ds.flatMap Prod.snd).length :=
    ⟨8 * s.src.length - (ds.flatMap Prod.snd).length, by omega⟩
  have key := unpackLoop_paths (a := 8 + 5 * s.distinct.toNat) hw hlt hb hk ds hds 0 (f + 1) 0 [] (by omega)
    (by simp; omega) (by simpa using hbits)
  rw [buunpackBody_walk hp ht hd hne, hf, key, unpackLoop, if_neg]
  · simp only [walkAt, atBit, Nat.zero_add, hn, Memory.ofBytes, BitVec.ofNat_toNat, BitVec.setWidth_eq]
  · show ¬ (BitVec.ofNat 32 (0 + ds.length)).toNat < s.total.toNat
    have := s.total.isLt
    rw [BitVec.toNat_ofNat, Nat.mod_eq_of_lt (by omega)]
    omega

/-- The walk overflows at the first symbol SNK has no room for. -/
theorem buunpackBody_overflow {s : State} (hp : s.hpv = true) (ht : s.trv = true) (hd : 2 ≤ s.distinct.toNat)
    (hw : s.src.wf = true) (hlt : s.src.length < 2 ^ 32) (hne : s.src.length ≠ 0)
    (hb : Built s.freq s.nodeL s.nodeR s.root s.nint.toNat) (hk : 1 ≤ s.nint.toNat) {ds : List (Byte × List Bool)}
    (hds : ∀ d ∈ ds, isPath s.nodeL s.nodeR s.root d.2 d.1) (hn : ds.length ≤ s.total.toNat)
    (hfull : ds.length = s.cfg.snkCap.toNat + 1)
    (hbits : ds.flatMap Prod.snd <+: bitString (s.src.bytes.drop (8 + 5 * s.distinct.toNat))) :
    buunpackBody s = .raised (enterFault .snkOverflow s.cfg.snkCap s) := by
  obtain ⟨es, d, rfl⟩ : ∃ es d, ds = es ++ [d] := by
    rcases List.eq_nil_or_concat ds with rfl | ⟨es, d, h⟩
    · simp at hfull
    · exact ⟨es, d, by rw [h, List.concat_eq_append]⟩
  rw [List.length_append, List.length_singleton] at hn hfull
  have efl : (es ++ [d]).flatMap Prod.snd = es.flatMap Prod.snd ++ d.2 := by simp
  rw [efl] at hbits
  have hle := hbits.length_le
  rw [length_bitString, List.length_drop, Memory.length_bytes, List.length_append] at hle
  obtain ⟨f, hf⟩ : ∃ f, 8 * s.src.length + 1 = f + d.2.length + (es.flatMap Prod.snd).length :=
    ⟨8 * s.src.length + 1 - d.2.length - (es.flatMap Prod.snd).length, by omega⟩
  have key := unpackLoop_paths (a := 8 + 5 * s.distinct.toNat) hw hlt hb hk es (fun x h => hds x (by simp [h])) 0
    (f + d.2.length) 0 [] (by omega) (by simp; omega)
    (by simpa using (List.prefix_append _ _).trans hbits)
  rw [buunpackBody_walk hp ht hd hne, hf, key]
  refine unpackLoop_overflow hw hlt hb hk d (hds d (by simp)) _ f _ _ (by omega)
    (by rw [Memory.length_appendAll, List.length_map]; simp; omega) ?_
  obtain ⟨tail, htail⟩ := hbits
  refine ⟨tail, ?_⟩
  rw [← htail, Nat.zero_add, List.append_assoc, List.drop_left]

/-- The walk underruns when the bits end inside a path before TOTAL symbols. -/
theorem buunpackBody_underrun {s : State} (hp : s.hpv = true) (ht : s.trv = true) (hd : 2 ≤ s.distinct.toNat)
    (hw : s.src.wf = true) (hlt : s.src.length < 2 ^ 32) (hle : 8 + 5 * s.distinct.toNat ≤ s.src.length)
    (hb : Built s.freq s.nodeL s.nodeR s.root s.nint.toNat) (hk : 1 ≤ s.nint.toNat) {ds : List (Byte × List Bool)}
    {tail : List Bool} (hds : ∀ d ∈ ds, isPath s.nodeL s.nodeR s.root d.2 d.1) (hn : ds.length < s.total.toNat)
    (hfit : ds.length ≤ s.cfg.snkCap.toNat)
    (hbits : bitString (s.src.bytes.drop (8 + 5 * s.distinct.toNat)) = ds.flatMap Prod.snd ++ tail)
    (hq : ∀ q', q' <+: tail → 256 ≤ (follow s.nodeL s.nodeR s.root q').toNat) :
    buunpackBody s = .raised (enterFault .bitstreamUnderrun s.srcLen s) := by
  have hl := congrArg List.length hbits
  rw [length_bitString, List.length_drop, Memory.length_bytes, List.length_append] at hl
  obtain ⟨f, hf⟩ : ∃ f, 8 * s.src.length + 1 = f + tail.length + 1 + (ds.flatMap Prod.snd).length :=
    ⟨8 * s.src.length - tail.length - (ds.flatMap Prod.snd).length, by omega⟩
  have key := unpackLoop_paths (a := 8 + 5 * s.distinct.toNat) hw hlt hb hk ds hds 0
    (f + tail.length + 1) 0 [] (by omega) (by simp; omega) (by rw [hbits]; exact ⟨tail, rfl⟩)
  rw [buunpackBody_walk hp ht hd (by omega), hf, key]
  refine unpackLoop_underrun hw hlt hb hle (by omega) tail s.root hb.root_inUse hq _ ?_ ?_
  · rw [hbits, List.length_append]; omega
  · rw [hbits, Nat.zero_add, List.drop_left]

/-- How the walk can end: it completes, or SNK is full, or SRC runs out; nothing else, whatever the bits are
(44_bit_io.md R181, 70_reset_and_hazards.md R263). -/
theorem buunpackBody_walk_cases {s : State} (hp : s.hpv = true) (ht : s.trv = true) (hd : 2 ≤ s.distinct.toNat)
    (hw : s.src.wf = true) (hlt : s.src.length < 2 ^ 32) (hle : 8 + 5 * s.distinct.toNat ≤ s.src.length)
    (hb : Built s.freq s.nodeL s.nodeR s.root s.nint.toNat) (hk : 1 ≤ s.nint.toNat) :
    (∃ ds : List (Byte × List Bool), (∀ d ∈ ds, isPath s.nodeL s.nodeR s.root d.2 d.1) ∧
      ds.length = s.total.toNat ∧ s.total.toNat ≤ s.cfg.snkCap.toNat ∧
      ds.flatMap Prod.snd <+: bitString (s.src.bytes.drop (8 + 5 * s.distinct.toNat))) ∨
    buunpackBody s = .raised (enterFault .snkOverflow s.cfg.snkCap s) ∨
    buunpackBody s = .raised (enterFault .bitstreamUnderrun s.srcLen s) := by
  obtain ⟨ds, tail, h1, h2, h3⟩ :=
    exists_paths hb hk (bitString (s.src.bytes.drop (8 + 5 * s.distinct.toNat)))
  have pre : ∀ n, (ds.take n).flatMap Prod.snd <+: bitString (s.src.bytes.drop (8 + 5 * s.distinct.toNat)) := by
    intro n
    rw [h1]
    refine ⟨(ds.drop n).flatMap Prod.snd ++ tail, ?_⟩
    rw [← List.append_assoc, ← List.flatMap_append, List.take_append_drop]
  have mem : ∀ n, ∀ d ∈ ds.take n, isPath s.nodeL s.nodeR s.root d.2 d.1 := fun n d h => h2 d (List.mem_of_mem_take h)
  by_cases c1 : s.total.toNat ≤ ds.length
  · by_cases c2 : s.total.toNat ≤ s.cfg.snkCap.toNat
    · exact .inl ⟨ds.take s.total.toNat, mem _, by rw [List.length_take]; omega, c2, pre _⟩
    · exact .inr (.inl (buunpackBody_overflow hp ht hd hw hlt (by omega) hb hk (mem (s.cfg.snkCap.toNat + 1))
        (by rw [List.length_take]; omega) (by rw [List.length_take]; omega) (pre _)))
  · by_cases c2 : ds.length ≤ s.cfg.snkCap.toNat
    · exact .inr (.inr (buunpackBody_underrun hp ht hd hw hlt hle hb hk h2 (by omega) c2 h1 h3))
    · exact .inr (.inl (buunpackBody_overflow hp ht hd hw hlt (by omega) hb hk (mem (s.cfg.snkCap.toNat + 1))
        (by rw [List.length_take]; omega) (by rw [List.length_take]; omega) (pre _)))

/-- The single symbol, TOTAL times (44_bit_io.md R179). -/
theorem appendRun_fits {b : Byte} (n : Nat) {s : State} (h : s.snk.length + n ≤ s.cfg.snkCap.toNat) :
    appendRun n b s = .go { s with snk := s.snk.appendAll (List.replicate n b) } := by
  induction n generalizing s with
  | zero => rfl
  | succ n ih =>
    rw [appendRun, snkAppend, memWrite_fits (by simp; omega), Flow.bind_go,
      ih (by dsimp only; rw [Memory.length_appendAll, List.length_singleton]; omega)]
    rfl

theorem appendRun_overflow {b : Byte} (n : Nat) {s : State} (hle : s.snk.length ≤ s.cfg.snkCap.toNat)
    (h : s.cfg.snkCap.toNat < s.snk.length + n) :
    appendRun n b s = .raised (enterFault .snkOverflow s.cfg.snkCap s) := by
  induction n generalizing s with
  | zero => omega
  | succ n ih =>
    rw [appendRun, snkAppend]
    by_cases hfull : s.cfg.snkCap.toNat < s.snk.length + 1
    · have e : s.snkLen = s.cfg.snkCap := by
        rw [State.snkLen, show s.snk.length = s.cfg.snkCap.toNat by omega]; simp
      rw [memWrite_overflow (by exact hfull), e]
      rfl
    · rw [memWrite_fits (by simp; omega), Flow.bind_go,
        ih (by dsimp only; rw [Memory.length_appendAll, List.length_singleton]; omega)
          (by dsimp only; rw [Memory.length_appendAll, List.length_singleton]; omega)]
      rfl

end Sys2Proof.Machine
end

