-- ==== Sys2Proof/Laws/Codec.lean ====
section
/-! SUPPORT. The bodies of ENCODE and DECODE in terms of the tables they leave (46_codec_sequences.md R210, R212). -/

namespace Sys2Proof.Machine

/-! ### The bodies that ENCODE ends with -/

/-- Pushing a bit string behind the bits `r` and flushing appends the packed bytes of both. -/
theorem pushBits_flush {r : List Bool} {s : State} (h : Holds r s) (q : List Bool)
    (hfit : s.snk.length + ((r ++ q).length + 7) / 8 ≤ s.cfg.snkCap.toNat) :
    (pushBits q s).bind flush = .go { s with snk := s.snk.appendAll (pack (r ++ q)), bpAcc := 0#8, bpN := 0#3 } := by
  have hd : (r ++ q).length / 8 + (if restBits (r ++ q) = [] then 0 else 1) = ((r ++ q).length + 7) / 8 := by
    have := congrArg List.length (pack_eq (r ++ q))
    rw [length_pack] at this
    rw [this, List.length_append (as := fullBytes _), length_fullBytes]
    congr 1
    split <;> rfl
  rw [pushBits_fits h q (by omega), Flow.bind_go, flush_holds (r := restBits (r ++ q))]
  · rw [pack_eq, Memory.appendAll_append]
  · refine ⟨rfl, rfl, ?_⟩
    rw [length_restBits]
    omega
  · simp only [Memory.length_appendAll, length_fullBytes]
    omega

/-- Pushing a bit string behind the bits `r` and flushing overflows when the padded bytes do not fit. -/
theorem pushBits_flush_overflow {r : List Bool} {s : State} (h : Holds r s) (q : List Bool)
    (hle : s.snk.length ≤ s.cfg.snkCap.toNat)
    (hover : s.cfg.snkCap.toNat < s.snk.length + ((r ++ q).length + 7) / 8) :
    (pushBits q s).bind flush = .raised (enterFault .snkOverflow s.cfg.snkCap s) := by
  by_cases h1 : s.snk.length + (r ++ q).length / 8 ≤ s.cfg.snkCap.toNat
  · rw [pushBits_fits h _ h1, Flow.bind_go, flush_overflow (r := restBits (r ++ q))]
    · rfl
    · refine ⟨rfl, rfl, ?_⟩
      rw [length_restBits]
      omega
    · intro h0
      have := congrArg List.length h0
      rw [length_restBits, List.length_nil] at this
      omega
    · simp only [Memory.length_appendAll, length_fullBytes]
      omega
  · rw [pushBits_overflow h _ hle (by omega)]
    rfl

theorem holds_empty (s : State) : Holds [] { s with bpAcc := 0#8, bpN := 0#3 } := ⟨rfl, by simp, by simp⟩

/-- BPPACK where every byte has a code is a push and a flush. -/
theorem bppackBody_all {s : State} (hc : s.cdv = true) (h : ∀ b ∈ s.src.bytes, present s.freq b = true) :
    bppackBody s = (pushBits (codeString s.codeLen s.codeBits s.src.bytes) { s with bpAcc := 0#8, bpN := 0#3 }).bind
      flush := by
  rw [bppackBody_codes hc (List.append_nil _).symm h]
  congr 1

/-- HFEMIT where the header does not fit. -/
theorem hfemitBody_overflow {s : State} (hf : s.ftv = true) (hd : s.distinct ≠ 0#9)
    (hc : s.distinct.toNat = presentCount s.freq) (h : s.cfg.snkCap.toNat < 8 + 5 * s.distinct.toNat) :
    ∃ i, hfemitBody s = .raised (enterFault .snkOverflow i s) := by
  rw [hfemitBody, if_neg (by simp [hf])]
  dsimp only
  rw [if_neg hd]
  by_cases h4 : 4 ≤ s.cfg.snkCap.toNat
  · rw [memWrite4, memWrite_fits (by simpa using h4), Flow.bind_go]
    by_cases h8 : 8 ≤ s.cfg.snkCap.toNat
    · dsimp only
      rw [memWrite4, memWrite_fits (by simpa using h8), Flow.bind_go]
      obtain ⟨e, he, -⟩ := emitPairs_overflow (ss := presentSymbols s.freq)
        (s := { s with snk := (Memory.appendAll [] (be32Bytes s.total)).appendAll (be32Bytes (s.distinct.setWidth 32)) })
        (by simpa using h8) (by simp; rw [← presentCount, ← hc]; omega)
      exact ⟨_, he⟩
    · dsimp only
      rw [memWrite4, memWrite_overflow (by simp; omega)]
      exact ⟨_, rfl⟩
  · rw [memWrite4, memWrite_overflow (by simp; omega)]
    exact ⟨_, rfl⟩

/-! ### The tree -/

/-- The state after TBBUILD, for the root it finds. -/
def afterBuild (root : NodeId) (s : State) : State :=
  { s with
    nodeW := (merged s.freq).w, nodeT := (merged s.freq).t, nodeL := (merged s.freq).l, nodeR := (merged s.freq).r
    inq := Vector.replicate 511 false
    root := root, nint := BitVec.ofNat 9 (merged s.freq).k, trv := true, cdv := false }

theorem tbbuildBody_built {s : State} (hf : s.ftv = true) (hd : s.distinct ≠ 0#9) (hc : 1 ≤ presentCount s.freq) :
    ∃ root, tbbuildBody s = .go (afterBuild root s) ∧
      Built s.freq (merged s.freq).l (merged s.freq).r root (merged s.freq).k ∧
      TreeLaw s.freq (merged s.freq).k (merged s.freq).w (merged s.freq).t (merged s.freq).l (merged s.freq).r ∧
      ∀ n : NodeId, queued s.freq (merged s.freq).l (merged s.freq).r (merged s.freq).k n.toNat ↔ n = root := by
  obtain ⟨root, hp, hb⟩ := tbbuildBody_go hf hd hc
  obtain ⟨root', hB⟩ := merged_built hc
  obtain ⟨rfl, -⟩ := hB.pop_eq hp
  have er : BitVec.ofNat 9 root'.toNat = root' := by simp
  have hk := hB.k_lt
  refine ⟨root', ?_, hB, hB.good.treeLaw, fun n => ?_⟩
  · rw [hb, er]
    rfl
  · rw [Build.queued_iff _ (by omega), hB.rootEntry]
    exact ⟨fun h => BitVec.eq_of_toNat_eq h, fun h => by rw [h]⟩

theorem nint_afterBuild {s : State} {root : NodeId}
    (hB : Built s.freq (merged s.freq).l (merged s.freq).r root (merged s.freq).k) :
    Built (afterBuild root s).freq (afterBuild root s).nodeL (afterBuild root s).nodeR (afterBuild root s).root
      (afterBuild root s).nint.toNat := by
  have hk := hB.k_lt
  have e : (afterBuild root s).nint.toNat = (merged s.freq).k := by
    show (BitVec.ofNat 9 (merged s.freq).k).toNat = _
    simp
    omega
  rw [e]
  exact hB

/-! ### ENCODE -/

/-- The state before HFEMIT in ENCODE. -/
def encodeTables (root : NodeId) (c : Codes) (s : State) : State :=
  { s with
    freq := countBytes s.src.bytes, total := s.srcLen
    distinct := BitVec.ofNat 9 (presentCount (countBytes s.src.bytes)), srcPos := 0#32
    nodeW := (merged (countBytes s.src.bytes)).w, nodeT := (merged (countBytes s.src.bytes)).t
    nodeL := (merged (countBytes s.src.bytes)).l, nodeR := (merged (countBytes s.src.bytes)).r
    inq := Vector.replicate 511 false
    root := root, nint := BitVec.ofNat 9 (merged (countBytes s.src.bytes)).k
    codeLen := c.len, codeBits := c.bits
    ftv := true, trv := true, cdv := true, hpv := false, empty := false }

theorem presentCount_countBytes_pos {bs : List Byte} (h : bs.length < 2 ^ 32) (h0 : bs ≠ []) :
    1 ≤ presentCount (countBytes bs) := by
  obtain ⟨b, l, rfl⟩ := List.exists_cons_of_ne_nil h0
  have hb : b ∈ presentSymbols (countBytes (b :: l)) :=
    mem_presentSymbols.mpr ((present_countBytes h).mpr (List.mem_cons_self ..))
  exact List.length_pos_of_mem hb

/-- ENCODE of a source that is not empty: the tables, then HFEMIT and BPPACK. -/
theorem encodeBody_tables {s : State} (hne : s.src.length ≠ 0) (hlt : s.src.length < 2 ^ 32) :
    ∃ root c, Built (countBytes s.src.bytes) (merged (countBytes s.src.bytes)).l (merged (countBytes s.src.bytes)).r
        root (merged (countBytes s.src.bytes)).k ∧
      TreeLaw (countBytes s.src.bytes) (merged (countBytes s.src.bytes)).k (merged (countBytes s.src.bytes)).w
        (merged (countBytes s.src.bytes)).t (merged (countBytes s.src.bytes)).l (merged (countBytes s.src.bytes)).r ∧
      (∀ n : NodeId, queued (countBytes s.src.bytes) (merged (countBytes s.src.bytes)).l
        (merged (countBytes s.src.bytes)).r (merged (countBytes s.src.bytes)).k n.toNat ↔ n = root) ∧
      deriveCodes (merged (countBytes s.src.bytes)).l (merged (countBytes s.src.bytes)).r root = some c ∧
      encodeBody s = (hfemitBody (encodeTables root c s)).bind bppackBody := by
  have hpos : 1 ≤ presentCount (countBytes s.src.bytes) := presentCount_countBytes_pos
    (by rw [Memory.length_bytes]; exact hlt) (fun h => hne (by rw [← Memory.length_bytes, h]; rfl))
  have hle := presentCount_le (countBytes s.src.bytes)
  have hd : BitVec.ofNat 9 (presentCount (countBytes s.src.bytes)) ≠ 0#9 := by
    intro h
    have := congrArg BitVec.toNat h
    simp at this
    omega
  obtain ⟨t, ht⟩ : ∃ t : State, t = { s with
      freq := countBytes s.src.bytes, total := s.srcLen
      distinct := BitVec.ofNat 9 (presentCount (countBytes s.src.bytes)), srcPos := 0#32
      ftv := true, trv := false, cdv := false, hpv := false, empty := false } := ⟨_, rfl⟩
  have h1 : ftcountBody s = .go t := by
    rw [ftcountBody, ht, decide_eq_false hne]
  have hfreq : t.freq = countBytes s.src.bytes := by rw [ht]
  obtain ⟨root, h2, hB, hT, hq⟩ := tbbuildBody_built (s := t) (by rw [ht]) (by rw [ht]; exact hd)
    (by rw [ht]; exact hpos)
  rw [hfreq] at hB hT hq
  obtain ⟨c, hc, -⟩ := hB.codes
  refine ⟨root, c, hB, hT, hq, hc, ?_⟩
  have h3 : cgderiveBody (afterBuild root t) = .go (encodeTables root c s) := by
    have e : deriveCodes (afterBuild root t).nodeL (afterBuild root t).nodeR (afterBuild root t).root = some c := by
      show deriveCodes (merged t.freq).l (merged t.freq).r root = some c
      rw [hfreq, hc]
    rw [cgderiveBody, if_neg (by simp [afterBuild]), e, ht]
    rfl
  rw [encodeBody, h1, Flow.bind_go, if_neg (by rw [ht]; exact hne), h2, Flow.bind_go, h3, Flow.bind_go]

/-- HFEMIT and BPPACK in ENCODE: the frame, or SnkOverflow. -/
theorem encodeBody_frame {s : State} {root : NodeId} {c : Codes} (hne : s.src.length ≠ 0) (hlt : s.src.length < 2 ^ 32) :
    ((headerBytes s.srcLen (tablePairs (countBytes s.src.bytes)) ++ pack (codeString c.len c.bits s.src.bytes)).length ≤
        s.cfg.snkCap.toNat →
      (hfemitBody (encodeTables root c s)).bind bppackBody = .go { encodeTables root c s with
        snk := Memory.ofBytes (headerBytes s.srcLen (tablePairs (countBytes s.src.bytes)) ++
          pack (codeString c.len c.bits s.src.bytes)), bpAcc := 0#8, bpN := 0#3 }) ∧
    (s.cfg.snkCap.toNat <
        (headerBytes s.srcLen (tablePairs (countBytes s.src.bytes)) ++ pack (codeString c.len c.bits s.src.bytes)).length →
      ∃ i, (hfemitBody (encodeTables root c s)).bind bppackBody = .raised (enterFault .snkOverflow i s)) := by
  have hpos : 1 ≤ presentCount (countBytes s.src.bytes) := presentCount_countBytes_pos
    (by rw [Memory.length_bytes]; exact hlt) (fun h => hne (by rw [← Memory.length_bytes, h]; rfl))
  have hle := presentCount_le (countBytes s.src.bytes)
  have ed : (encodeTables root c s).distinct.toNat = presentCount (countBytes s.src.bytes) := by
    show (BitVec.ofNat 9 (presentCount (countBytes s.src.bytes))).toNat = _
    simp
    omega
  have hd : (encodeTables root c s).distinct ≠ 0#9 := by
    intro h
    have := congrArg BitVec.toNat h
    rw [ed] at this
    simp at this
    omega
  have hlen : (headerBytes s.srcLen (tablePairs (countBytes s.src.bytes))).length =
      8 + 5 * (encodeTables root c s).distinct.toNat := by
    rw [ed, headerBytes]
    simp only [List.length_append, length_be32Bytes, length_pairBytes, length_tablePairs]
  have hpres : ∀ b ∈ s.src.bytes, present (countBytes s.src.bytes) b = true := fun b hb =>
    (present_countBytes (by rw [Memory.length_bytes]; exact hlt)).mpr hb
  rw [List.length_append, hlen, length_pack]
  constructor
  · intro hfit
    rw [hfemitBody_fits rfl hd ed (by show _ ≤ s.cfg.snkCap.toNat; omega), Flow.bind_go,
      bppackBody_all rfl hpres, pushBits_flush (holds_empty _)]
    · have e : Memory.ofBytes (headerBytes s.srcLen (tablePairs (countBytes s.src.bytes)) ++
          pack (codeString c.len c.bits s.src.bytes)) =
          (Memory.ofBytes (headerBytes s.srcLen (tablePairs (countBytes s.src.bytes)))).appendAll
            (pack (codeString c.len c.bits s.src.bytes)) := Memory.appendAll_append [] _ _
      rw [List.nil_append, e]
      rfl
    · dsimp only
      rw [Memory.length_ofBytes]
      show (headerBytes s.srcLen (tablePairs (countBytes s.src.bytes))).length + _ ≤ s.cfg.snkCap.toNat
      rw [hlen, List.nil_append]
      exact hfit
  · intro hover
    by_cases h1 : 8 + 5 * (encodeTables root c s).distinct.toNat ≤ s.cfg.snkCap.toNat
    · rw [hfemitBody_fits rfl hd ed h1, Flow.bind_go, bppackBody_all rfl hpres,
        pushBits_flush_overflow (holds_empty _)]
      · exact ⟨_, rfl⟩
      · dsimp only
        rw [Memory.length_ofBytes]
        show (headerBytes s.srcLen (tablePairs (countBytes s.src.bytes))).length ≤ s.cfg.snkCap.toNat
        omega
      · dsimp only
        rw [Memory.length_ofBytes]
        show s.cfg.snkCap.toNat < (headerBytes s.srcLen (tablePairs (countBytes s.src.bytes))).length + _
        rw [hlen, List.nil_append]
        exact hover
    · obtain ⟨i, hi⟩ := hfemitBody_overflow (s := encodeTables root c s) rfl hd ed (by show s.cfg.snkCap.toNat < _; omega)
      rw [hi]
      exact ⟨i, rfl⟩

/-! ### DECODE -/

/-- The state after HFPARSE of a header with the pairs `pairs`. -/
def afterParse (t : Word) (pairs : List (Byte × Word)) (s : State) : State :=
  { s with
    freq := addPairs (Vector.replicate 256 0#32) pairs, total := t, distinct := BitVec.ofNat 9 pairs.length
    srcPos := BitVec.ofNat 32 (8 + 5 * pairs.length)
    ftv := true, trv := false, cdv := false, hpv := true, empty := false }

theorem distinct_afterParse {t : Word} {pairs : List (Byte × Word)} {s : State} (hok : pairsOk pairs) :
    (afterParse t pairs s).distinct.toNat = pairs.length := by
  have := hok.2.2
  show (BitVec.ofNat 9 pairs.length).toNat = _
  simp
  omega

/-- DECODE of a header in order with two or more pairs: the rebuilt tree, then the walk. -/
theorem decodeBody_tree {s : State} (hw : s.src.wf = true) (hlt : s.src.length < 2 ^ 32) {t : Word}
    {pairs : List (Byte × Word)} {rest : List Byte} (h : s.src.bytes = headerBytes t pairs ++ rest)
    (hok : pairsOk pairs) (h2 : 2 ≤ pairs.length) :
    ∃ root, tbbuildBody (afterParse t pairs s) = .go (afterBuild root (afterParse t pairs s)) ∧
      Built (afterParse t pairs s).freq (merged (afterParse t pairs s).freq).l (merged (afterParse t pairs s).freq).r
        root (merged (afterParse t pairs s).freq).k ∧
      (merged (afterParse t pairs s).freq).k + 1 = pairs.length ∧
      decodeBody s = buunpackBody (afterBuild root (afterParse t pairs s)) := by
  have hp := hfparseBody_reads hw hlt h hok (fun h0 => by rw [h0] at h2; simp at h2)
  have ed := distinct_afterParse (t := t) (s := s) hok
  have hcount := presentCount_addPairs hok
  obtain ⟨root, h1, hB, -⟩ := tbbuildBody_built (s := afterParse t pairs s) rfl
    (fun h0 => by rw [h0] at ed; simp at ed; omega) (by show 1 ≤ presentCount (addPairs _ _); omega)
  refine ⟨root, h1, hB, hB.count.trans hcount, ?_⟩
  have hp' : hfparseBody s = .go (afterParse t pairs s) := hp
  rw [decodeBody, hp', Flow.bind_go, if_pos (by rw [ed]; exact h2), h1, Flow.bind_go]

end Sys2Proof.Machine
end

