-- ==== Sys2Proof/Laws/PerInstr.lean ====
section
/-! SUPPORT. The families of statements made of each command by itself (LAWS.json). -/

namespace Sys2Proof.Laws.Encoding

/-- The encoding of one command (30_encoding.md R80, R82, R84): the term is well formed, its word has RSV = 0 and its
opcode in OPC, and the decoder reads the command back from the opcode and from the whole word. -/
def Statement (i : Instr) : Prop :=
  i.wf = true ∧ rsvField (encode i) = 0#24 ∧ opcField (encode i) = opcode i ∧ ofOpcode (opcode i) = some i ∧
    decodeTableWord 32 (encode i).toNat = some i

theorem nop : Statement .nop := by unfold Statement; decide
theorem srst : Statement .srst := by unfold Statement; decide
theorem srcclr : Statement .srcclr := by unfold Statement; decide
theorem snkclr : Statement .snkclr := by unfold Statement; decide
theorem ftcount : Statement .ftcount := by unfold Statement; decide
theorem tbbuild : Statement .tbbuild := by unfold Statement; decide
theorem cgderive : Statement .cgderive := by unfold Statement; decide
theorem hfemit : Statement .hfemit := by unfold Statement; decide
theorem hfparse : Statement .hfparse := by unfold Statement; decide
theorem bppack : Statement .bppack := by unfold Statement; decide
theorem buunpack : Statement .buunpack := by unfold Statement; decide
theorem encode : Statement .encode := by unfold Statement; decide
theorem decode : Statement .decode := by unfold Statement; decide

end Sys2Proof.Laws.Encoding
end

