-- ==== Sys2Proof/Laws/Port.lean ====
section
/-! SUPPORT. The inversion lemmas of the port: all that a command and a host action can do when they answer a next
state (30_encoding.md R81, 20_memory.md R69, 60_exceptions.md R226, R227). -/

namespace Sys2Proof.Machine

/-- All that a command can answer: SRST the reset state; SRCCLR its own effect; any other command nothing in FAULTED,
and in IDLE a state with the same host state or a fault entry. -/
theorem exec_cases {i : Instr} {s t : State} (h : exec i s = .next t) :
    (i = .srst ∧ t = softReset s) ∨
    (i = .srcclr ∧ s.opstate = .idle ∧ t = clearValidity { s with src := [], srcPos := 0#32 }) ∨
    (i ≠ .srst ∧ s.opstate = .faulted ∧ t = s) ∨
    (i ≠ .srst ∧ i ≠ .srcclr ∧ s.opstate = .idle ∧ (SameHost s t ∨ ∃ c info, t = enterFault c info s)) := by
  have main : ∀ (body : State → Flow) (cs : List Cause), (∀ s, (body s).Within cs s) → i ≠ .srst → i ≠ .srcclr →
      exec i s = command body s →
      (i ≠ .srst ∧ s.opstate = .faulted ∧ t = s) ∨
      (i ≠ .srst ∧ i ≠ .srcclr ∧ s.opstate = .idle ∧ (SameHost s t ∨ ∃ c info, t = enterFault c info s)) := by
    intro body cs hb h1 h2 he
    rw [he] at h
    rcases command_cases hb h with ⟨hs, ht⟩ | ⟨hs, ⟨-, ht⟩ | ⟨c, -, j, ht⟩⟩
    · exact Or.inl ⟨h1, hs, ht⟩
    · exact Or.inr ⟨h1, h2, hs, Or.inl ht⟩
    · exact Or.inr ⟨h1, h2, hs, Or.inr ⟨c, j, ht⟩⟩
  cases i with
  | srst => left; injection h with h; exact ⟨rfl, h.symm⟩
  | srcclr =>
    right
    have h' : command srcclrBody s = .next t := h
    unfold command at h'
    split at h'
    · rename_i hs; injection h' with h'; exact Or.inr (Or.inl ⟨by simp, hs, h'.symm⟩)
    · rename_i hs; injection h' with h'; exact Or.inl ⟨rfl, hs, h'.symm⟩
  | nop => exact Or.inr (Or.inr (main nopBody [] (fun s => .refl s) (by simp) (by simp) rfl))
  | snkclr =>
    refine Or.inr (Or.inr (main snkclrBody [] (fun s => ?_) (by simp) (by simp) rfl))
    exact ⟨rfl, rfl, rfl, rfl, rfl, rfl, rfl, rfl, rfl⟩
  | ftcount => exact Or.inr (Or.inr (main _ _ ftcountBody_within (by simp) (by simp) rfl))
  | tbbuild => exact Or.inr (Or.inr (main _ _ tbbuildBody_within (by simp) (by simp) rfl))
  | cgderive => exact Or.inr (Or.inr (main _ _ cgderiveBody_within (by simp) (by simp) rfl))
  | hfemit => exact Or.inr (Or.inr (main _ _ hfemitBody_within (by simp) (by simp) rfl))
  | hfparse => exact Or.inr (Or.inr (main _ _ hfparseBody_within (by simp) (by simp) rfl))
  | bppack => exact Or.inr (Or.inr (main _ _ bppackBody_within (by simp) (by simp) rfl))
  | buunpack => exact Or.inr (Or.inr (main _ _ buunpackBody_within (by simp) (by simp) rfl))
  | encode => exact Or.inr (Or.inr (main _ _ encodeBody_within (by simp) (by simp) rfl))
  | decode => exact Or.inr (Or.inr (main _ _ decodeBody_within (by simp) (by simp) rfl))

@[simp] theorem ofIndex_index (r : Reg) : Reg.ofIndex r.index = r := by
  cases r with
  | codeB j => revert j; decide
  | _ => decide

theorem ofIndex_eq_cmd {k : RegIndex} (h : Reg.ofIndex k = .cmd) : k = Reg.cmd.index := by revert h; revert k; decide

/-- All that a host action in IDLE can answer. -/
theorem hostAction_idle {a : HostAction} {s t : State} (h : hostAction a s = .next t) (hs : s.opstate = .idle) :
    (∃ d i, a = .write Reg.cmd.index d ∧ decodeWord d = .ok i ∧ exec i s = .next t) ∨
    (∃ d, a = .write Reg.cmd.index d ∧ t = enterFault .illegalCommand d s) ∨
    (∃ k d, Reg.ofIndex k ≠ .cmd ∧ a = .write k d ∧ t = writeReg (Reg.ofIndex k) d s) ∨
    (a = .hardReset ∧ t = softReset s) ∨ ∃ k, a = .read k ∧ t = { s with rdata := readReg (Reg.ofIndex k) s } := by
  match a with
  | .read k => injection h with h; exact Or.inr (Or.inr (Or.inr (Or.inr ⟨k, rfl, h.symm⟩)))
  | .hardReset => injection h with h; exact Or.inr (Or.inr (Or.inr (Or.inl ⟨rfl, h.symm⟩)))
  | .write k d =>
    simp only [hostAction] at h
    split at h
    · rename_i hk
      rw [ofIndex_eq_cmd hk]
      simp only [writeCommand, hs] at h
      cases hd : decodeWord d with
      | ok i => simp only [hd] at h; exact Or.inl ⟨d, i, rfl, hd, h⟩
      | error _ =>
        simp only [hd] at h
        injection h with h
        exact Or.inr (Or.inl ⟨d, rfl, h.symm⟩)
    · rename_i hk
      injection h with h
      exact Or.inr (Or.inr (Or.inl ⟨k, d, hk, rfl, h.symm⟩))

/-- All that a host action in FAULTED can answer. -/
theorem hostAction_faulted {a : HostAction} {s t : State} (h : hostAction a s = .next t) (hs : s.opstate = .faulted) :
    (a = .write Reg.cmd.index 0x00000001#32 ∧ t = softReset s) ∨
    (∃ d, a = .write Reg.cmd.index d ∧ d ≠ 0x00000001#32 ∧ t = s) ∨
    (∃ k d, Reg.ofIndex k ≠ .cmd ∧ a = .write k d ∧ t = writeReg (Reg.ofIndex k) d s) ∨
    (a = .hardReset ∧ t = softReset s) ∨ ∃ k, a = .read k ∧ t = { s with rdata := readReg (Reg.ofIndex k) s } := by
  match a with
  | .read k => injection h with h; exact Or.inr (Or.inr (Or.inr (Or.inr ⟨k, rfl, h.symm⟩)))
  | .hardReset => injection h with h; exact Or.inr (Or.inr (Or.inr (Or.inl ⟨rfl, h.symm⟩)))
  | .write k d =>
    simp only [hostAction] at h
    split at h
    · rename_i hk
      rw [ofIndex_eq_cmd hk]
      simp only [writeCommand, hs] at h
      split at h
      · rename_i hd
        injection h with h
        exact Or.inl ⟨by rw [hd], h.symm⟩
      · rename_i hd
        injection h with h
        exact Or.inr (Or.inl ⟨d, rfl, hd, h.symm⟩)
    · rename_i hk
      injection h with h
      exact Or.inr (Or.inr (Or.inl ⟨k, d, hk, rfl, h.symm⟩))

/-- All that a register write other than that of CMD can do (10_state.md R49, R56 to R58). -/
theorem writeReg_cases (r : Reg) (d : Word) (s : State) :
    writeReg r d s = s ∨ writeReg r d s = { s with sel := d.setWidth 9 } ∨ writeReg r d s = { s with snkAddr := d } ∨
    (s.opstate = .idle ∧ s.srcLen = s.cfg.srcCap ∧ writeReg r d s = enterFault .srcOverflow s.srcLen s) ∨
    (s.opstate = .idle ∧ s.srcLen ≠ s.cfg.srcCap ∧
      writeReg r d s = clearValidity { s with src := s.src.append (d.setWidth 8) }) := by
  cases r with
  | sel => exact Or.inr (Or.inl rfl)
  | snkAddr => exact Or.inr (Or.inr (Or.inl rfl))
  | srcPush =>
    cases hs : s.opstate with
    | faulted => left; simp only [writeReg, srcPush, hs]
    | idle =>
      by_cases hc : s.srcLen = s.cfg.srcCap
      · refine Or.inr (Or.inr (Or.inr (Or.inl ⟨rfl, hc, ?_⟩)))
        simp only [writeReg, srcPush, hs, if_pos hc]
      · refine Or.inr (Or.inr (Or.inr (Or.inr ⟨rfl, hc, ?_⟩)))
        simp only [writeReg, srcPush, hs, if_neg hc]
  | _ => exact Or.inl rfl

end Sys2Proof.Machine
end

