-- ==== Sys2Proof/Laws/Program.lean ====
section
/-! SUPPORT. Host programs: what a list of host actions does, command by command (30_encoding.md R81, R85). -/

namespace Sys2Proof.Machine

/-- The write of a command's word is the command, in IDLE and in FAULTED (30_encoding.md R81). -/
theorem hostAction_command (i : Instr) (s : State) : hostAction (commandAction i) s = exec i s := by
  have hr : Reg.ofIndex Reg.cmd.index = .cmd := ofIndex_index _
  show (if Reg.ofIndex Reg.cmd.index = .cmd then writeCommand (encode i) s
    else .next (writeReg (Reg.ofIndex Reg.cmd.index) (encode i) s)) = _
  rw [if_pos hr, writeCommand]
  have hd : decodeWord (encode i) = .ok i := by cases i <;> rfl
  cases hs : s.opstate with
  | idle => simp only [hd]
  | faulted =>
    dsimp only
    by_cases h : i = .srst
    · subst h; rfl
    · rw [if_neg (by cases i <;> first | decide | exact absurd rfl h)]
      cases i <;> first | exact absurd rfl h | exact (command_faulted hs).symm

theorem runActions_append (as bs : List HostAction) (s : State) : runActions (as ++ bs) s =
    match runActions as s with
    | .next t => runActions bs t
    | .fault r => .fault r
    | .refused r => .refused r := by
  induction as generalizing s with
  | nil => rfl
  | cons a as ih =>
    rw [List.cons_append, runActions, runActions]
    cases hostAction a s with
    | next t => exact ih t
    | fault r => rfl
    | refused r => rfl

theorem runActions_one (a : HostAction) (s : State) : runActions [a] s = hostAction a s := by
  rw [runActions]
  cases hostAction a s <;> rfl

theorem runActions_next {a : HostAction} {as : List HostAction} {s t : State} (h : hostAction a s = .next t) :
    runActions (a :: as) s = runActions as t := by rw [runActions, h]

/-- In FAULTED commands other than SRST do nothing (60_exceptions.md R227). -/
theorem runActions_faulted (is : List Instr) (h : .srst ∉ is) {s : State} (hs : s.opstate = .faulted) :
    runActions (is.map commandAction) s = .next s := by
  induction is with
  | nil => rfl
  | cons i is ih =>
    have hi : i ≠ .srst := fun e => h (by simp [e])
    have e : exec i s = .next s := by cases i <;> first | exact absurd rfl hi | exact command_faulted hs
    rw [List.map_cons, runActions_next ((hostAction_command i s).trans e)]
    exact ih fun e => h (by simp [e])

/-- A command followed by others is its body followed by what they do, fault or no fault. -/
theorem runActions_body {body : State → Flow} {cs : List Cause} {s : State} (hb : (body s).Within cs s)
    (hs : s.opstate = .idle) {i : Instr} (he : exec i s = command body s) (is : List Instr) (h : .srst ∉ is)
    (k : State → Flow)
    (hk : ∀ t, body s = .go t → t.opstate = .idle → runActions (is.map commandAction) t = (k t).outcome) :
    runActions ((i :: is).map commandAction) s = ((body s).bind k).outcome := by
  rw [List.map_cons, runActions, hostAction_command, he, command_idle hs]
  cases hf : body s with
  | go t =>
    have hh : SameHost s t := by rw [hf] at hb; exact hb
    exact hk t hf (hh.opstate.trans hs)
  | raised t =>
    obtain ⟨c, -, i, e⟩ : ∃ c ∈ cs, ∃ i, t = enterFault c i s := by rw [hf] at hb; exact hb
    show runActions (is.map commandAction) t = .next t
    exact runActions_faulted is h (by rw [e]; rfl)
  | stuck r => rfl

/-- A write of SRC_PUSH with room (10_state.md R56). -/
theorem hostAction_push {s : State} (hs : s.opstate = .idle) (b : Byte) (hle : s.src.length < s.cfg.srcCap.toNat) :
    hostAction (.write Reg.srcPush.index (b.setWidth 32)) s = .next (clearValidity { s with src := s.src.append b }) := by
  have hr : Reg.ofIndex Reg.srcPush.index = .srcPush := ofIndex_index _
  have e : (b.setWidth 32).setWidth 8 = b := by
    apply BitVec.eq_of_toNat_eq
    simp
  have hcap := s.cfg.srcCap.isLt
  have hn : s.srcLen ≠ s.cfg.srcCap := by
    intro h
    have := congrArg BitVec.toNat h
    rw [State.srcLen, BitVec.toNat_ofNat, Nat.mod_eq_of_lt (by omega)] at this
    omega
  rw [hostAction, hr, if_neg (by simp), writeReg, srcPush, hs]
  dsimp only
  rw [if_neg hn, e]

/-- PUSH of bytes that fit: they stand behind those SRC holds, and the flags are clear once there is a byte
(40_control_ops.md R114). -/
theorem runActions_push (bs : List Byte) {s : State} (hs : s.opstate = .idle)
    (hfit : s.src.length + bs.length ≤ s.cfg.srcCap.toNat) :
    runActions ((HostLine.push bs).actions 0) s =
      .next (if bs = [] then s else clearValidity { s with src := s.src.appendAll bs }) := by
  induction bs generalizing s with
  | nil => rfl
  | cons b bs ih =>
    rw [List.length_cons] at hfit
    have e : (HostLine.push (b :: bs)).actions 0 =
        .write Reg.srcPush.index (b.setWidth 32) :: (HostLine.push bs).actions 0 := rfl
    rw [e, runActions_next (hostAction_push hs b (by omega)), ih (by exact hs)
      (by show (s.src.append b).length + _ ≤ s.cfg.srcCap.toNat; rw [Memory.length_append]; omega)]
    refine congrArg Host.Outcome.next ?_
    by_cases h : bs = []
    · subst h
      rfl
    · rw [if_neg h, if_neg (List.cons_ne_nil _ _)]
      rfl

/-- SRCCLR and PUSH: SRC is the bytes, everything derived is invalid (70_reset_and_hazards.md R253, R254). -/
theorem runActions_load (bs : List Byte) {s : State} (hs : s.opstate = .idle) (hfit : bs.length ≤ s.cfg.srcCap.toNat) :
    runActions (commandAction .srcclr :: (HostLine.push bs).actions 0) s =
      .next (clearValidity { s with src := Memory.ofBytes bs, srcPos := 0#32 }) := by
  have e : exec .srcclr s = .next (clearValidity { s with src := [], srcPos := 0#32 }) :=
    command_idle (body := srcclrBody) hs
  rw [runActions_next ((hostAction_command _ _).trans e), runActions_push bs (by exact hs)
    (by show 0 + _ ≤ s.cfg.srcCap.toNat; omega)]
  by_cases h : bs = []
  · subst h
    rw [if_pos rfl]
    rfl
  · rw [if_neg h]
    rfl

end Sys2Proof.Machine
end

