-- ==== Sys2Proof/Laws/Sound.lean ====
section
/-! SUPPORT. The invariant of Safety.lean under every part of the machine: no part stops the model from a state that has
it, and every part that goes on leaves it (10_state.md R39, 20_memory.md R73, 70_reset_and_hazards.md R263). -/

namespace Sys2Proof.Machine

/-- `f` does not stop the model, and where it goes on the state has `P`. -/
def Flow.Answers (P : State → Prop) (f : Flow) : Prop :=
  match f with
  | .go t => P t
  | .raised _ => True
  | .stuck _ => False

theorem Flow.Answers.bind {P Q : State → Prop} {f : Flow} {k : State → Flow} (hf : f.Answers P)
    (hk : ∀ t, P t → (k t).Answers Q) : (f.bind k).Answers Q := by
  match f, hf with
  | .go t, h => exact hk t h
  | .raised _, _ => trivial

/-- An IDLE state of the invariant. -/
structure Ready (s : State) : Prop where
  inv : Inv s
  idle : s.opstate = .idle

/-! ### The fields of the invariant that look at the whole state -/

theorem faultShape_idle {s : State} (h1 : s.opstate = .idle) (h2 : s.cause = none) (h3 : s.einfo = 0#32) :
    faultShape s = true := by
  rw [faultShape, h2]
  exact decide_eq_true ⟨h1, h3⟩

theorem faultShape_faulted {s : State} {c : Cause} (h : s.cause = some c) (e : s = enterFault c s.einfo s) :
    faultShape s = true := by
  rw [faultShape, h]
  exact decide_eq_true e

/-- CAUSE and EINFO are 0 in IDLE (10_state.md R43, R44). -/
theorem Ready.noFault {s : State} (h : Ready s) : s.cause = none ∧ s.einfo = 0#32 := by
  have hf := h.inv.fault
  rw [faultShape] at hf
  split at hf
  · rename_i hc
    exact ⟨hc, (of_decide_eq_true hf).2⟩
  · have := congrArg State.opstate (of_decide_eq_true hf)
    rw [h.idle] at this
    cases this

/-- A part that leaves OPSTATE, CAUSE and EINFO leaves the shape of IDLE. -/
theorem Ready.fault {s t : State} (h : Ready s) (h1 : t.opstate = s.opstate) (h2 : t.cause = s.cause)
    (h3 : t.einfo = s.einfo) : faultShape t = true :=
  faultShape_idle (h1.trans h.idle) (h2.trans h.noFault.1) (h3.trans h.noFault.2)

/-- Whether the table is that of the header depends on SRC, FREQ, TOTAL and DISTINCT alone. -/
theorem headerCurrent_congr {s t : State} (hw : s.src.wf = true) (hlt : s.src.length < 2 ^ 32) (e1 : t.src = s.src)
    (e2 : t.freq = s.freq) (e3 : t.total = s.total) (e4 : t.distinct = s.distinct) (h : headerCurrent s = true) :
    headerCurrent t = true := by
  rcases hfparseBody_cases hw hlt with h0 | ⟨t', pairs, rest, hb, hok, hz⟩ | ⟨c, i, hr⟩
  · rw [headerCurrent, hfparseBody_empty h0] at h
    rw [headerCurrent, hfparseBody_empty (s := t) (by rw [e1]; exact h0), e2, e3, e4]
    exact h
  · rw [headerCurrent, hfparseBody_reads hw hlt hb hok hz] at h
    rw [headerCurrent, hfparseBody_reads (s := t) (by rw [e1]; exact hw) (by rw [e1]; exact hlt)
      (by rw [e1]; exact hb) hok hz, e2, e3, e4]
    exact h
  · rw [headerCurrent, hr] at h
    cases h

theorem headerCurrent_empty {t : State} (h : t.src.length = 0) (e2 : t.freq = Vector.replicate 256 0#32)
    (e3 : t.total = 0#32) (e4 : t.distinct = 0#9) : headerCurrent t = true := by
  rw [headerCurrent, hfparseBody_empty h]
  exact decide_eq_true ⟨e2.symm, e3.symm, e4.symm⟩

theorem headerCurrent_reads {t : State} (hw : t.src.wf = true) (hlt : t.src.length < 2 ^ 32)
    {pairs : List (Byte × Word)} {rest : List Byte} (h : t.src.bytes = headerBytes t.total pairs ++ rest)
    (hok : pairsOk pairs) (hz : pairs = [] → t.total = 0#32)
    (e2 : t.freq = addPairs (Vector.replicate 256 0#32) pairs) (e4 : t.distinct = BitVec.ofNat 9 pairs.length) :
    headerCurrent t = true := by
  rw [headerCurrent, hfparseBody_reads hw hlt h hok hz]
  exact decide_eq_true ⟨e2.symm, rfl, e4.symm⟩

theorem Inv.parsed_congr {s t : State} (h : Inv s) (e1 : t.src = s.src) (e2 : t.freq = s.freq)
    (e3 : t.total = s.total) (e4 : t.distinct = s.distinct) (e5 : t.hpv = s.hpv) :
    t.hpv = true → headerCurrent t = true := fun hp =>
  headerCurrent_congr h.src h.srcLt e1 e2 e3 e4 (h.parsed (e5 ▸ hp))

/-- A change of SNK, of the walk's registers and of SRC_POS keeps the invariant. -/
theorem Ready.output {s : State} (h : Ready s) (m : Memory) (n : NodeId) (e p : Word) (c : Byte) (b : BitVec 4)
    (hm : m.wf = true) (hl : m.length ≤ s.cfg.snkCap.toNat) (hp : p.toNat ≤ s.src.length) :
    Ready { s with snk := m, walk := n, emit := e, srcPos := p, buCur := c, buN := b } where
  idle := h.idle
  inv := { h.inv with
    snk := hm
    snkFits := hl
    srcPos := hp
    fault := h.fault rfl rfl rfl
    parsed := h.inv.parsed_congr rfl rfl rfl rfl rfl }

theorem Ready.sink {s : State} (h : Ready s) {m : Memory} (hm : m.wf = true) (hl : m.length ≤ s.cfg.snkCap.toNat) :
    Ready { s with snk := m } := h.output m s.walk s.emit s.srcPos s.buCur s.buN hm hl h.inv.srcPos

/-- The packer, emptied behind what it appended, keeps the invariant. -/
theorem Ready.packed {s : State} (h : Ready s) {m : Memory} (hm : m.wf = true) (hl : m.length ≤ s.cfg.snkCap.toNat) :
    Ready { s with snk := m, bpAcc := 0#8, bpN := 0#3 } where
  idle := h.idle
  inv := { h.inv with
    snk := hm
    snkFits := hl
    packer := ⟨rfl, rfl⟩
    fault := h.fault rfl rfl rfl
    parsed := h.inv.parsed_congr rfl rfl rfl rfl rfl }

/-! ### The bodies -/

theorem toNat_presentCount (t : Vector Word 256) : (BitVec.ofNat 9 (presentCount t)).toNat = presentCount t := by
  have := presentCount_le t
  rw [BitVec.toNat_ofNat, Nat.mod_eq_of_lt (by omega)]

theorem countBytes_none {s : State} (h : Inv s) (h0 : presentCount (countBytes s.src.bytes) = 0) :
    s.src.length = 0 := by
  by_contra hne
  have := presentCount_countBytes_pos (bs := s.src.bytes) (by rw [Memory.length_bytes]; exact h.srcLt)
    fun e => hne (by rw [← Memory.length_bytes, e]; rfl)
  omega

theorem srcLen_eq_zero {s : State} (h : s.src.length = 0) : s.srcLen = 0#32 := by rw [State.srcLen, h]

theorem ftcountBody_answers {s : State} (h : Ready s) : (ftcountBody s).Answers Ready := by
  have e0 : ∀ n : Nat, BitVec.ofNat 9 n = 0#9 → n ≤ 256 → n = 0 := fun n e hn => by
    have := congrArg BitVec.toNat e
    simp at this
    omega
  refine ⟨?_, h.idle⟩
  exact { h.inv with
    srcPos := Nat.zero_le _
    fault := h.fault rfl rfl rfl
    cdvTrv := fun e => nomatch e
    trvFtv := fun _ => rfl
    hpvFtv := fun _ => rfl
    emptyTable := fun e => by
      have h0 := of_decide_eq_true e
      have hn : s.src.bytes = [] := by rw [List.length_eq_zero_iff.mp h0]; rfl
      refine ⟨rfl, srcLen_eq_zero h0, ?_, h0⟩
      show BitVec.ofNat 9 (presentCount (countBytes s.src.bytes)) = 0#9
      rw [hn]
      show BitVec.ofNat 9 (presentCount (Vector.replicate 256 0#32)) = 0#9
      rw [presentCount, presentSymbols_zero]
      rfl
    distinct := fun _ => toNat_presentCount _
    noTotal := fun _ e => srcLen_eq_zero (countBytes_none h.inv (e0 _ e (presentCount_le _)))
    nint := fun e => nomatch e
    counted := fun _ _ => ⟨rfl, rfl⟩
    parsed := fun e => nomatch e
    tree := fun e => nomatch e
    codes := fun e => nomatch e }

theorem distinct_pos {d : BitVec 9} (h : d ≠ 0#9) : 1 ≤ d.toNat := by
  have : d.toNat ≠ 0 := fun e => h (BitVec.eq_of_toNat_eq e)
  omega

theorem afterBuild_ready {s : State} (h : Ready s) (hf : s.ftv = true) {root : NodeId}
    (hB : Built s.freq (merged s.freq).l (merged s.freq).r root (merged s.freq).k) : Ready (afterBuild root s) := by
  have hk := hB.k_lt
  have hd := h.inv.distinct hf
  refine ⟨?_, h.idle⟩
  exact { h.inv with
    fault := h.fault rfl rfl rfl
    cdvTrv := fun e => nomatch e
    trvFtv := fun _ => hf
    nint := fun _ => by
      show (BitVec.ofNat 9 (merged s.freq).k).toNat + 1 = s.distinct.toNat
      rw [BitVec.toNat_ofNat, Nat.mod_eq_of_lt (by omega), hd]
      exact hB.count
    inq := rfl
    parsed := h.inv.parsed_congr rfl rfl rfl rfl rfl
    tree := fun _ => by
      show treeCurrent (afterBuild root s) = true
      have hp : (merged (afterBuild root s).freq).pop =
        some (root.toNat, (merged s.freq).remove root.toNat) := hB.pop
      rw [treeCurrent, hp]
      refine decide_eq_true ⟨rfl, rfl, rfl, rfl, ?_, rfl⟩
      show root = BitVec.ofNat 9 root.toNat
      simp
    codes := fun e => nomatch e }

theorem tbbuildBody_answers {s : State} (h : Ready s) : (tbbuildBody s).Answers Ready := by
  by_cases hf : s.ftv = true
  · by_cases hd : s.distinct = 0#9
    · rw [tbbuildBody, if_neg (by simp [hf]), if_pos hd]
      trivial
    · obtain ⟨root, hb, hB, -⟩ := tbbuildBody_built hf hd (by rw [← h.inv.distinct hf]; exact distinct_pos hd)
      rw [hb]
      exact afterBuild_ready h hf hB
  · rw [tbbuildBody, if_pos (by simpa using hf)]
    trivial

theorem cgderiveBody_answers {s : State} (h : Ready s) : (cgderiveBody s).Answers Ready := by
  by_cases ht : s.trv = true
  · obtain ⟨c, hc, -⟩ := (h.inv.built ht).codes
    rw [cgderiveBody, if_neg (by simp [ht]), hc]
    refine ⟨?_, h.idle⟩
    exact { h.inv with
      fault := h.fault rfl rfl rfl
      cdvTrv := fun _ => ht
      parsed := h.inv.parsed_congr rfl rfl rfl rfl rfl
      codes := fun _ => hc }
  · rw [cgderiveBody, if_pos (by simpa using ht)]
    trivial

theorem length_headerBytes (t : Word) (pairs : List (Byte × Word)) :
    (headerBytes t pairs).length = 8 + 5 * pairs.length := by
  rw [headerBytes]
  simp only [List.length_append, length_be32Bytes, length_pairBytes]

theorem hfemitBody_answers {s : State} (h : Ready s) : (hfemitBody s).Answers Ready := by
  by_cases hf : s.ftv = true
  · by_cases hd : s.distinct = 0#9
    · rw [hfemitBody, if_neg (by simp [hf])]
      dsimp only
      rw [if_pos hd]
      exact h.sink rfl (Nat.zero_le _)
    · have hc := h.inv.distinct hf
      by_cases hfit : 8 + 5 * s.distinct.toNat ≤ s.cfg.snkCap.toNat
      · rw [hfemitBody_fits hf hd hc hfit]
        refine h.sink (Memory.wf_ofBytes _) ?_
        rw [Memory.length_ofBytes, length_headerBytes, length_tablePairs, ← hc]
        exact hfit
      · obtain ⟨i, hi⟩ := hfemitBody_overflow hf hd hc (by omega)
        rw [hi]
        trivial
  · rw [hfemitBody, if_pos (by simpa using hf)]
    trivial

theorem hfparseBody_answers {s : State} (h : Ready s) : (hfparseBody s).Answers Ready := by
  rcases hfparseBody_cases h.inv.src h.inv.srcLt with h0 | ⟨t, pairs, rest, hb, hok, hz⟩ | ⟨c, i, hr⟩
  · have hp := hfparseBody_empty h0
    rw [hp]
    refine ⟨?_, h.idle⟩
    exact { h.inv with
      srcPos := Nat.zero_le _
      fault := h.fault rfl rfl rfl
      cdvTrv := fun e => nomatch e
      trvFtv := fun e => nomatch e
      hpvFtv := fun _ => rfl
      emptyTable := fun _ => ⟨rfl, rfl, rfl, h0⟩
      distinct := fun _ => by
        show (0#9).toNat = presentCount (Vector.replicate 256 0#32)
        rw [presentCount, presentSymbols_zero]
        rfl
      noTotal := fun _ _ => rfl
      nint := fun e => nomatch e
      counted := fun _ e => nomatch e
      parsed := fun _ =>
        headerCurrent_empty (t := { s with
          freq := Vector.replicate 256 0#32, total := 0#32, distinct := 0#9, srcPos := 0#32
          ftv := true, trv := false, cdv := false, hpv := true, empty := true }) h0 rfl rfl rfl
      tree := fun e => nomatch e
      codes := fun e => nomatch e }
  · have hp := hfparseBody_reads h.inv.src h.inv.srcLt hb hok hz
    have hl := congrArg List.length hb
    rw [Memory.length_bytes, List.length_append, length_headerBytes] at hl
    have hlt := h.inv.srcLt
    have ed := distinct_afterParse (t := t) (s := s) hok
    rw [hp]
    refine ⟨?_, h.idle⟩
    exact { h.inv with
      srcPos := by
        show (BitVec.ofNat 32 (8 + 5 * pairs.length)).toNat ≤ s.src.length
        rw [BitVec.toNat_ofNat, Nat.mod_eq_of_lt (by omega)]
        omega
      fault := h.fault rfl rfl rfl
      cdvTrv := fun e => nomatch e
      trvFtv := fun e => nomatch e
      hpvFtv := fun _ => rfl
      emptyTable := fun e => nomatch e
      distinct := fun _ => ed.trans (presentCount_addPairs hok).symm
      noTotal := fun _ e => hz (List.length_eq_zero_iff.mp (by rw [← ed]; exact congrArg BitVec.toNat e))
      nint := fun e => nomatch e
      counted := fun _ e => nomatch e
      parsed := fun _ =>
        headerCurrent_reads (t := afterParse t pairs s) h.inv.src hlt hb hok hz rfl rfl
      tree := fun e => nomatch e
      codes := fun e => nomatch e }
  · rw [hr]
    trivial

theorem pushBits_answers (q : List Bool) (s : State) : (pushBits q s).Answers fun _ => True := by
  induction q generalizing s with
  | nil => trivial
  | cons b q ih =>
    refine Flow.Answers.bind (P := fun _ => True) ?_ fun t _ => ih t
    rw [pushBit]
    split
    · rw [emitAcc, snkAppend, memWrite]
      split <;> trivial
    · trivial

/-- The first byte without a code, where there is one. -/
theorem first_absent (f : Vector Word 256) (l : List Byte) : (∀ b ∈ l, present f b = true) ∨
    ∃ bs b cs, l = bs ++ b :: cs ∧ (∀ x ∈ bs, present f x = true) ∧ present f b = false := by
  induction l with
  | nil => exact .inl fun _ h => nomatch h
  | cons b l ih =>
    cases hb : present f b with
    | false => exact .inr ⟨[], b, l, rfl, fun _ h => (nomatch h), hb⟩
    | true =>
      rcases ih with h | ⟨bs, c, cs, rfl, h1, h2⟩
      · exact .inl fun x hx => by
          rcases List.mem_cons.mp hx with rfl | hx
          · exact hb
          · exact h x hx
      · refine .inr ⟨b :: bs, c, cs, rfl, fun x hx => ?_, h2⟩
        rcases List.mem_cons.mp hx with rfl | hx
        · exact hb
        · exact h1 x hx

theorem bppackBody_answers {s : State} (h : Ready s) : (bppackBody s).Answers Ready := by
  by_cases hc : s.cdv = true
  · rcases first_absent s.freq s.src.bytes with hall | ⟨bs, b, cs, hs, h1, h2⟩
    · rw [bppackBody_all hc hall]
      by_cases hfit : s.snk.length + ((codeString s.codeLen s.codeBits s.src.bytes).length + 7) / 8 ≤
          s.cfg.snkCap.toNat
      · rw [pushBits_flush (holds_empty s) _ (by simpa using hfit)]
        refine h.packed (Memory.wf_appendAll _ h.inv.snk) ?_
        rw [Memory.length_appendAll, length_pack]
        exact hfit
      · rw [pushBits_flush_overflow (holds_empty s) _ h.inv.snkFits (by simpa using hfit)]
        trivial
    · rw [bppackBody_codes hc hs h1]
      refine (Flow.Answers.bind (P := fun t => t.freq = s.freq) ?_ fun t ht => ?_)
      · have a := pushBits_answers (codeString s.codeLen s.codeBits bs) { s with bpAcc := 0#8, bpN := 0#3 }
        cases hp : pushBits (codeString s.codeLen s.codeBits bs) { s with bpAcc := 0#8, bpN := 0#3 } with
        | go t =>
          obtain ⟨x, y, z, rfl⟩ := pushBits_go hp
          rfl
        | raised _ => trivial
        | stuck _ => rw [hp] at a; exact a
      · rw [packFrom, if_neg (by rw [ht, h2]; simp)]
        trivial
  · rw [bppackBody, if_pos (by simpa using hc)]
    trivial

theorem headerEnd_le {s : State} (h : Inv s) (hp : s.hpv = true) : (headerEnd s).toNat ≤ s.src.length := by
  have hlt := h.srcLt
  rw [headerEnd]
  split
  · exact Nat.zero_le _
  · rename_i hne
    rcases h.header hp with ⟨h0, -⟩ | ⟨pairs, rest, -, -, -, -, -, h1⟩
    · exact absurd h0 hne
    · rw [BitVec.toNat_ofNat, Nat.mod_eq_of_lt (by omega)]
      omega

theorem buunpackBody_answers {s : State} (h : Ready s) : (buunpackBody s).Answers Ready := by
  by_cases hp : s.hpv = true
  · by_cases h2 : 2 ≤ s.distinct.toNat
    · by_cases ht : s.trv = true
      · have hle := h.inv.header_le hp (fun e => by rw [e] at h2; simp at h2)
        have hb := h.inv.built ht
        have hk : 1 ≤ s.nint.toNat := by have := h.inv.nint ht; omega
        have hlt := h.inv.srcLt
        rcases buunpackBody_walk_cases hp ht h2 h.inv.src hlt hle hb hk with ⟨ds, h1, h3, h4, h5⟩ | hr | hr
        · rw [buunpackBody_paths hp ht h2 h.inv.src hlt (by omega) hb hk h1 h3 h4 h5]
          have hl := h5.length_le
          rw [length_bitString, List.length_drop, Memory.length_bytes] at hl
          refine h.output (Memory.ofBytes (ds.map Prod.fst)) s.root s.total _ _ _ (Memory.wf_ofBytes _) ?_ ?_
          · rw [Memory.length_ofBytes, List.length_map]; omega
          · rw [BitVec.toNat_ofNat, Nat.mod_eq_of_lt (by omega)]
            omega
        · rw [hr]; trivial
        · rw [hr]; trivial
      · rw [buunpackBody, if_neg (by simp [hp]), if_pos ⟨h2, by simpa using ht⟩]
        trivial
    · rw [buunpackBody, if_neg (by simp [hp]), if_neg (fun e => h2 e.1)]
      dsimp only
      have start : Ready { s with snk := [], srcPos := headerEnd s } :=
        h.output [] s.walk s.emit (headerEnd s) s.buCur s.buN rfl (Nat.zero_le _) (headerEnd_le h.inv hp)
      split
      · exact start
      · split
        · have hc := h.inv.distinct (h.inv.hpvFtv hp)
          rename_i hd
          rw [hd] at hc
          obtain ⟨b, hb⟩ := List.length_eq_one_iff.mp (show (presentSymbols s.freq).length = 1 from hc.symm)
          rw [hb]
          dsimp only [List.head?]
          by_cases hfit : s.total.toNat ≤ s.cfg.snkCap.toNat
          · rw [appendRun_fits _ (by simpa using hfit)]
            refine start.sink (Memory.wf_appendAll _ rfl) ?_
            simpa using hfit
          · rw [appendRun_overflow _ (by simp) (by simpa using hfit)]
            trivial
        · rename_i h0 h1
          have d0 := distinct_pos h0
          have d1 : s.distinct.toNat ≠ 1 := fun e => h1 (BitVec.eq_of_toNat_eq e)
          omega
  · rw [buunpackBody, if_pos (by simpa using hp)]
    trivial

theorem encodeBody_answers {s : State} (h : Ready s) : (encodeBody s).Answers Ready := by
  refine (ftcountBody_answers h).bind fun t ht => ?_
  split
  · exact ht.sink rfl (Nat.zero_le _)
  · exact (tbbuildBody_answers ht).bind fun u hu => (cgderiveBody_answers hu).bind fun v hv =>
      (hfemitBody_answers hv).bind fun _ hw => bppackBody_answers hw

theorem decodeBody_answers {s : State} (h : Ready s) : (decodeBody s).Answers Ready := by
  refine (hfparseBody_answers h).bind fun t ht => Flow.Answers.bind (P := Ready) ?_ fun u hu => buunpackBody_answers hu
  split
  · exact tbbuildBody_answers ht
  · exact ht

/-! ### Commands, actions, steps -/

theorem enterFault_inv {s : State} (h : Inv s) (c : Cause) (i : Word) : Inv (enterFault c i s) where
  cfg := h.cfg
  src := h.src
  snk := rfl
  srcFits := h.srcFits
  snkFits := Nat.zero_le _
  srcPos := Nat.zero_le _
  fault := faultShape_faulted (c := c) rfl rfl
  cdvTrv := fun e => nomatch e
  trvFtv := fun e => nomatch e
  hpvFtv := fun e => nomatch e
  emptyTable := fun e => nomatch e
  distinct := fun e => nomatch e
  noTotal := fun e => nomatch e
  nint := fun e => nomatch e
  inq := rfl
  packer := ⟨rfl, rfl⟩
  counted := fun e => nomatch e
  parsed := fun e => nomatch e
  tree := fun e => nomatch e
  codes := fun e => nomatch e

theorem softReset_inv {s : State} (h : Inv s) : Inv (softReset s) where
  cfg := h.cfg
  src := rfl
  snk := rfl
  srcFits := Nat.zero_le _
  snkFits := Nat.zero_le _
  srcPos := Nat.zero_le _
  fault := faultShape_idle rfl rfl rfl
  cdvTrv := fun e => nomatch e
  trvFtv := fun e => nomatch e
  hpvFtv := fun e => nomatch e
  emptyTable := fun e => nomatch e
  distinct := fun e => nomatch e
  noTotal := fun e => nomatch e
  nint := fun e => nomatch e
  inq := rfl
  packer := ⟨rfl, rfl⟩
  counted := fun e => nomatch e
  parsed := fun e => nomatch e
  tree := fun e => nomatch e
  codes := fun e => nomatch e

/-- The reset state with capacities in range. -/
theorem fresh_inv {c : Config} (h : c.wf = true) : Inv { State.reset with cfg := c } where
  cfg := h
  src := rfl
  snk := rfl
  srcFits := Nat.zero_le _
  snkFits := Nat.zero_le _
  srcPos := Nat.zero_le _
  fault := faultShape_idle rfl rfl rfl
  cdvTrv := fun e => nomatch e
  trvFtv := fun e => nomatch e
  hpvFtv := fun e => nomatch e
  emptyTable := fun e => nomatch e
  distinct := fun e => nomatch e
  noTotal := fun e => nomatch e
  nint := fun e => nomatch e
  inq := rfl
  packer := ⟨rfl, rfl⟩
  counted := fun e => nomatch e
  parsed := fun e => nomatch e
  tree := fun e => nomatch e
  codes := fun e => nomatch e

/-- A command keeps the invariant when its body does. -/
theorem command_sound {body : State → Flow} {cs : List Cause} (hw : ∀ s, (body s).Within cs s)
    (hb : ∀ s, Ready s → (body s).Answers Ready) {s : State} (h : Inv s) :
    ∃ t, command body s = .next t ∧ Inv t := by
  cases hs : s.opstate with
  | faulted => exact ⟨s, command_faulted hs, h⟩
  | idle =>
    have a := hb s ⟨h, hs⟩
    have w := hw s
    rw [command_idle hs]
    cases hf : body s with
    | go t => rw [hf] at a; exact ⟨t, rfl, a.inv⟩
    | raised t =>
      rw [hf] at w
      obtain ⟨c, -, i, rfl⟩ := w
      exact ⟨_, rfl, enterFault_inv h c i⟩
    | stuck _ => rw [hf] at a; exact a.elim

/-- SRC emptied and the flags cleared, as SRCCLR does. -/
theorem srcclr_ready {s : State} (h : Ready s) :
    Ready (clearValidity { s with src := [], srcPos := 0#32 }) where
  idle := h.idle
  inv := { h.inv with
    src := rfl
    srcFits := Nat.zero_le _
    srcPos := Nat.zero_le _
    fault := h.fault rfl rfl rfl
    cdvTrv := fun e => nomatch e
    trvFtv := fun e => nomatch e
    hpvFtv := fun e => nomatch e
    emptyTable := fun e => nomatch e
    distinct := fun e => nomatch e
    noTotal := fun e => nomatch e
    nint := fun e => nomatch e
    counted := fun e => nomatch e
    parsed := fun e => nomatch e
    tree := fun e => nomatch e
    codes := fun e => nomatch e }

/-- Every command answers, and keeps the invariant. -/
theorem exec_sound (i : Instr) {s : State} (h : Inv s) : ∃ t, exec i s = .next t ∧ Inv t := by
  cases i with
  | nop => exact command_sound (body := nopBody) (cs := []) (fun s => Flow.within_go (.refl s)) (fun _ hs => hs) h
  | srst => exact ⟨softReset s, rfl, softReset_inv h⟩
  | srcclr =>
    cases hs : s.opstate with
    | faulted => exact ⟨s, command_faulted hs, h⟩
    | idle => exact ⟨_, command_idle hs, (srcclr_ready ⟨h, hs⟩).inv⟩
  | snkclr =>
    exact command_sound (body := snkclrBody) (cs := [])
      (fun s => Flow.within_go ⟨rfl, rfl, rfl, rfl, rfl, rfl, rfl, rfl, rfl⟩) (fun _ hs => hs.sink rfl (Nat.zero_le _)) h
  | ftcount => exact command_sound ftcountBody_within (fun _ => ftcountBody_answers) h
  | tbbuild => exact command_sound tbbuildBody_within (fun _ => tbbuildBody_answers) h
  | cgderive => exact command_sound cgderiveBody_within (fun _ => cgderiveBody_answers) h
  | hfemit => exact command_sound hfemitBody_within (fun _ => hfemitBody_answers) h
  | hfparse => exact command_sound hfparseBody_within (fun _ => hfparseBody_answers) h
  | bppack => exact command_sound bppackBody_within (fun _ => bppackBody_answers) h
  | buunpack => exact command_sound buunpackBody_within (fun _ => buunpackBody_answers) h
  | encode => exact command_sound encodeBody_within (fun _ => encodeBody_answers) h
  | decode => exact command_sound decodeBody_within (fun _ => decodeBody_answers) h

/-! ### Host actions -/

/-- An update of the host's own state keeps the shape of the fault state. -/
theorem faultShape_host (f : State → State) {s : State} (h : faultShape s = true)
    (h1 : ∀ s, (f s).opstate = s.opstate) (h2 : ∀ s, (f s).cause = s.cause) (h3 : ∀ s, (f s).einfo = s.einfo)
    (h4 : ∀ c i s, f (enterFault c i s) = enterFault c i (f s)) : faultShape (f s) = true := by
  rw [faultShape] at h ⊢
  rw [h2]
  split at h
  · have := of_decide_eq_true h
    exact decide_eq_true ⟨(h1 s).trans this.1, (h3 s).trans this.2⟩
  · refine decide_eq_true ?_
    rw [h3, ← h4, ← of_decide_eq_true h]

theorem Inv.withPending {s : State} (h : Inv s) (p : List HostAction) : Inv { s with pending := p } :=
  { h with
    fault := faultShape_host (fun s => { s with pending := p }) h.fault (fun _ => rfl) (fun _ => rfl) (fun _ => rfl)
      fun _ _ _ => rfl
    parsed := h.parsed_congr rfl rfl rfl rfl rfl }

theorem Inv.withRdata {s : State} (h : Inv s) (d : Word) : Inv { s with rdata := d } :=
  { h with
    fault := faultShape_host (fun s => { s with rdata := d }) h.fault (fun _ => rfl) (fun _ => rfl) (fun _ => rfl)
      fun _ _ _ => rfl
    parsed := h.parsed_congr rfl rfl rfl rfl rfl }

theorem Inv.withSel {s : State} (h : Inv s) (n : BitVec 9) : Inv { s with sel := n } :=
  { h with
    fault := faultShape_host (fun s => { s with sel := n }) h.fault (fun _ => rfl) (fun _ => rfl) (fun _ => rfl)
      fun _ _ _ => rfl
    parsed := h.parsed_congr rfl rfl rfl rfl rfl }

theorem Inv.withSnkAddr {s : State} (h : Inv s) (d : Word) : Inv { s with snkAddr := d } :=
  { h with
    fault := faultShape_host (fun s => { s with snkAddr := d }) h.fault (fun _ => rfl) (fun _ => rfl) (fun _ => rfl)
      fun _ _ _ => rfl
    parsed := h.parsed_congr rfl rfl rfl rfl rfl }

theorem writeReg_inv (r : Reg) (d : Word) {s : State} (h : Inv s) : Inv (writeReg r d s) := by
  rcases writeReg_cases r d s with e | e | e | ⟨-, -, e⟩ | ⟨hi, hne, e⟩
  · rw [e]; exact h
  · rw [e]; exact h.withSel _
  · rw [e]; exact h.withSnkAddr _
  · rw [e]; exact enterFault_inv h _ _
  · rw [e]
    have hr : Ready s := ⟨h, hi⟩
    have hl := h.srcFits
    have hp := h.srcPos
    have hne' : s.src.length ≠ s.cfg.srcCap.toNat := fun e => hne (BitVec.eq_of_toNat_eq (by rw [h.srcLen_toNat, e]))
    have ha : (s.src.append (d.setWidth 8)).length = s.src.length + 1 := Memory.length_append _ _
    exact { h with
      src := Memory.wf_append _ h.src
      srcFits := by show (s.src.append (d.setWidth 8)).length ≤ s.cfg.srcCap.toNat; omega
      srcPos := by show s.srcPos.toNat ≤ (s.src.append (d.setWidth 8)).length; omega
      fault := hr.fault rfl rfl rfl
      cdvTrv := fun e => nomatch e
      trvFtv := fun e => nomatch e
      hpvFtv := fun e => nomatch e
      emptyTable := fun e => nomatch e
      distinct := fun e => nomatch e
      noTotal := fun e => nomatch e
      nint := fun e => nomatch e
      counted := fun e => nomatch e
      parsed := fun e => nomatch e
      tree := fun e => nomatch e
      codes := fun e => nomatch e }

/-- Every host action answers, and keeps the invariant. -/
theorem hostAction_sound (a : HostAction) {s : State} (h : Inv s) : ∃ t, hostAction a s = .next t ∧ Inv t := by
  match a with
  | .read k => exact ⟨_, rfl, h.withRdata _⟩
  | .hardReset => exact ⟨_, rfl, softReset_inv h⟩
  | .write k d =>
    rw [hostAction]
    split
    · rw [writeCommand]
      split
      · split
        · exact exec_sound _ h
        · exact ⟨_, rfl, h⟩
      · split
        · exact exec_sound _ h
        · exact ⟨_, rfl, enterFault_inv h _ _⟩
    · exact ⟨_, rfl, writeReg_inv _ _ h⟩

/-- A host program answers, and keeps the invariant. -/
theorem runActions_sound (as : List HostAction) {s : State} (h : Inv s) : ∃ t, runActions as s = .next t ∧ Inv t := by
  induction as generalizing s with
  | nil => exact ⟨s, rfl, h⟩
  | cons a as ih =>
    obtain ⟨t, ht, hi⟩ := hostAction_sound a h
    obtain ⟨u, hu, hj⟩ := ih hi
    exact ⟨u, by rw [runActions, ht]; exact hu, hj⟩

end Sys2Proof.Machine
end

