-- ==== Sys2Proof/Tests/Slice0.lean ====
section
/-! SUPPORT. The tests: ill-formed accesses, command words written out from 30_encoding.md, one small run or two per
command with the results of 95_test_vectors.md and of the command rules, and for every statement a state and operands that
meet its hypotheses together. -/

namespace Sys2Proof.Machine

/-! ### Host programs -/

/-- The state after the lines of a host program; a stop of the model would leave the state before it. -/
def runLines (ls : List HostLine) (s : State) : State :=
  match ls with
  | [] => s
  | l :: rest =>
    match runActions (l.actions s.snk.length) s with
    | .next t => runLines rest t
    | .fault _ => s
    | .refused _ => s

/-- The reset state with the capacities `a` and `b`. -/
def withCaps (a b : Word) : State := { State.reset with cfg := ⟨a, b, 0⟩ }

/-- "aaab" (95_test_vectors.md V1). -/
def srcAaab : List HostLine := [.push [0x61, 0x61, 0x61, 0x62]]

/-- The frame of "aaab" but for its bitstream byte, with the total `t` (95_test_vectors.md V1, V3). -/
def headerAaab (t : Byte) : List Byte :=
  [0x00, 0x00, 0x00, t, 0x00, 0x00, 0x00, 0x02, 0x61, 0x00, 0x00, 0x00, 0x03, 0x62, 0x00, 0x00, 0x00, 0x01]

/-- The frame of "aaab". -/
def frameAaab : List Byte := headerAaab 4 ++ [0x10]

def loadedAaab : State := runLines srcAaab State.reset
def countedAaab : State := runLines (srcAaab ++ [.cmd .ftcount]) State.reset
def builtAaab : State := runLines (srcAaab ++ [.cmd .ftcount, .cmd .tbbuild]) State.reset
def derivedAaab : State := runLines (srcAaab ++ [.cmd .ftcount, .cmd .tbbuild, .cmd .cgderive]) State.reset
def loadedFrame : State := runLines [.push frameAaab] State.reset
def parsedFrame : State := runLines [.push frameAaab, .cmd .hfparse] State.reset
def treeOfFrame : State := runLines [.push frameAaab, .cmd .hfparse, .cmd .tbbuild] State.reset
def loadedRun : State := runLines [.pushN 0x41 3] State.reset
def parsedRun : State :=
  runLines [.push [0x00, 0x00, 0x00, 0x03, 0x00, 0x00, 0x00, 0x01, 0x41, 0x00, 0x00, 0x00, 0x03], .cmd .hfparse]
    State.reset
def faultedState : State := runLines (srcAaab ++ [.cmd .tbbuild]) State.reset

/-! ### WellFormed: one ill-formed access for each check -/

theorem test_wf_access : (⟨0x7C, 32, false, 0#32⟩ : Access).wf 0 = true := by decide
theorem test_wf_refuses_narrow : (⟨0x04, 8, false, 0#32⟩ : Access).wf 0 = false := by decide
theorem test_wf_refuses_below_base : (⟨0x0FC, 32, false, 0#32⟩ : Access).wf 0x100 = false := by decide
theorem test_wf_refuses_misaligned : (⟨0x02, 32, true, 0#32⟩ : Access).wf 0 = false := by decide
theorem test_wf_refuses_beyond : (⟨0x80, 32, false, 0#32⟩ : Access).wf 0 = false := by decide

/-! ### Decode: every command's word, bit by bit from 30_encoding.md R80, R82 -/

theorem test_decode_control :
    decodeWord 0b00000000000000000000000000000000#32 = .ok .nop ∧
    decodeWord 0b00000000000000000000000000000001#32 = .ok .srst ∧
    decodeWord 0b00000000000000000000000000000010#32 = .ok .srcclr ∧
    decodeWord 0b00000000000000000000000000000011#32 = .ok .snkclr := by decide
theorem test_decode_tables :
    decodeWord 0b00000000000000000000000000010000#32 = .ok .ftcount ∧
    decodeWord 0b00000000000000000000000000100000#32 = .ok .tbbuild ∧
    decodeWord 0b00000000000000000000000000110000#32 = .ok .cgderive := by decide
theorem test_decode_header :
    decodeWord 0b00000000000000000000000001000000#32 = .ok .hfemit ∧
    decodeWord 0b00000000000000000000000001000001#32 = .ok .hfparse := by decide
theorem test_decode_bits :
    decodeWord 0b00000000000000000000000001010000#32 = .ok .bppack ∧
    decodeWord 0b00000000000000000000000001010001#32 = .ok .buunpack := by decide
theorem test_decode_codec :
    decodeWord 0b00000000000000000000000001100000#32 = .ok .encode ∧
    decodeWord 0b00000000000000000000000001100001#32 = .ok .decode := by decide
theorem test_decode_reserved_bit :
    decodeWord 0b10000000000000000000000001100001#32 = .error .reservedBits := by decide
theorem test_decode_undefined : decodeWord 0b00000000000000000000000001100010#32 = .error .undefinedOpcode := by decide
theorem test_table_word : decodeTableWord 32 0x51 = some .buunpack := by decide

/-! ### One step per command, with results from the spec -/

/-- 95_test_vectors.md V1 (R210): the frame of "aaab". -/
theorem test_encode_aaab :
    (runLines (srcAaab ++ [.cmd .encode]) State.reset).snk.bytes = frameAaab ∧
    readReg .status (runLines (srcAaab ++ [.cmd .encode]) State.reset) = 0x1C#32 := by decide +kernel
/-- 46_codec_sequences.md R212: the frame of "aaab" decodes to it. -/
theorem test_decode_aaab :
    (runLines [.push frameAaab, .cmd .decode] State.reset).snk.bytes = [0x61, 0x61, 0x61, 0x62] ∧
    readReg .status (runLines [.push frameAaab, .cmd .decode] State.reset) = 0x2C#32 := by decide +kernel
/-- 95_test_vectors.md V6: a sink of 18 bytes is one too few. -/
theorem test_encode_overflow :
    (let s := runLines (srcAaab ++ [.cmd .encode]) (withCaps 100 18); s.cause = some .snkOverflow ∧ s.einfo = 18#32) := by
  decide +kernel
/-- 44_bit_io.md R182: the frame without its last byte. -/
theorem test_decode_underrun :
    (let s := runLines [.push (headerAaab 4), .cmd .decode] State.reset
     s.cause = some .bitstreamUnderrun ∧ s.einfo = 18#32 ∧ s.snk = []) := by decide +kernel
/-- 41_frequency_table.md R130. -/
theorem test_ftcount_aaab :
    freqAt countedAaab.freq 0x61 = 3#32 ∧ freqAt countedAaab.freq 0x62 = 1#32 ∧ countedAaab.total = 4#32 ∧
    countedAaab.distinct = 2#9 ∧ readReg .status countedAaab = 0x4#32 := by decide +kernel
/-- 42_tree_builder.md R152, example 1. -/
theorem test_tbbuild_aaab :
    builtAaab.root = 256#9 ∧ builtAaab.nint = 1#9 ∧ childAt builtAaab.nodeR 256#9 = 98#9 ∧
    childAt builtAaab.nodeL 256#9 = 97#9 ∧ nodeAt builtAaab.nodeW 256#9 = 4#40 ∧
    nodeAt builtAaab.nodeT 256#9 = 195#16 := by decide +kernel
/-- 42_tree_builder.md R152, example 2: an equal-key tie. -/
theorem test_tbbuild_tie :
    (let s := runLines [.push [1, 2, 3, 3], .cmd .ftcount, .cmd .tbbuild] State.reset
     s.root = 257#9 ∧ childAt s.nodeR 257#9 = 3#9 ∧ childAt s.nodeL 257#9 = 256#9 ∧
      nodeAt s.nodeT 257#9 = 6#16) := by decide +kernel
/-- 43_code_table.md R162, R166: the codes of "aaab" and of example 2. -/
theorem test_cgderive_aaab :
    codeOf derivedAaab.codeLen derivedAaab.codeBits 0x61 = [false] ∧
    readReg (.codeB 0) { derivedAaab with sel := 0x62 } = 0x80000000#32 := by decide +kernel
theorem test_cgderive_example2 :
    (let s := runLines [.push [1, 2, 3, 3], .cmd .ftcount, .cmd .tbbuild, .cmd .cgderive, .wr .sel 1] State.reset
     codeOf s.codeLen s.codeBits 2 = [false, false] ∧ readReg (.codeB 0) s = 0x40000000#32) := by decide +kernel
/-- 45_header_framer.md R191. -/
theorem test_hfemit_aaab :
    (runLines (srcAaab ++ [.cmd .ftcount, .cmd .hfemit]) State.reset).snk.bytes = headerAaab 4 := by decide +kernel
/-- 45_header_framer.md R195. -/
theorem test_hfparse_aaab :
    parsedFrame.total = 4#32 ∧ parsedFrame.distinct = 2#9 ∧ freqAt parsedFrame.freq 0x61 = 3#32 ∧
    parsedFrame.srcPos = 18#32 ∧ readReg .status parsedFrame = 0x24#32 := by decide +kernel
/-- 45_header_framer.md R201: a zero frequency of a repeated symbol is reported as the zero frequency. -/
theorem test_hfparse_zero_before_duplicate :
    (let s := runLines [.push [0, 0, 0, 2, 0, 0, 0, 2, 0x41, 0, 0, 0, 1, 0x41, 0, 0, 0, 0], .cmd .hfparse] State.reset
     s.cause = some .headerZeroFrequency ∧ s.einfo = 13#32) := by decide +kernel
/-- 44_bit_io.md R176. -/
theorem test_bppack_aaab :
    (runLines [.cmd .bppack] derivedAaab).snk.bytes = [0x10#8] := by decide +kernel
/-- 44_bit_io.md R177 (c): a frame packed through its own codes. -/
theorem test_bppack_no_code :
    (let s := runLines [.cmd .cgderive, .cmd .bppack] treeOfFrame; s.cause = some .noCode ∧ s.einfo = 0#32) := by
  decide +kernel
/-- 44_bit_io.md R178: the example; the undelivered bits of 0x10 stay. -/
theorem test_buunpack_aaab :
    (let s := runLines [.cmd .buunpack] treeOfFrame
     s.snk.bytes = [0x61, 0x61, 0x61, 0x62] ∧ s.emit = 4#32 ∧ s.srcPos = 19#32 ∧ s.buCur = 0x10#8 ∧ s.buN = 4#4) := by
  decide +kernel
/-- 44_bit_io.md R179: the single symbol. -/
theorem test_buunpack_run :
    (let s := runLines [.cmd .buunpack] parsedRun; s.snk.bytes = [0x41, 0x41, 0x41] ∧ s.srcPos = 13#32) := by
  decide +kernel
/-- 40_control_ops.md R111: SRST returns from the fault. -/
theorem test_srst :
    faultedState.cause = some .sequenceError ∧ faultedState.einfo = 0x20#32 ∧ faultedState.src.length = 4 ∧
    (let s := runLines [.cmd .srst] faultedState; s.opstate = .idle ∧ s.cause = none ∧ s.src = []) := by decide +kernel
/-- 40_control_ops.md R110. -/
theorem test_nop :
    (let s := runLines [.cmd .nop] builtAaab; s.root = 256#9 ∧ s.src.length = 4 ∧ readReg .status s = 0xC#32) := by
  decide +kernel
/-- 40_control_ops.md R112: the flags and SRC go, SNK stays. -/
theorem test_srcclr :
    (let s := runLines (srcAaab ++ [.cmd .encode, .cmd .srcclr]) State.reset
     readReg .srcLen s = 0#32 ∧ readReg .status s = 0#32 ∧ s.snk.bytes = frameAaab) := by decide +kernel
/-- 40_control_ops.md R113. -/
theorem test_snkclr :
    (let s := runLines (srcAaab ++ [.cmd .encode, .cmd .snkclr]) State.reset
     readReg .snkLen s = 0#32 ∧ readReg .status s = 0x1C#32) := by decide +kernel
/-- 10_state.md R40: DRAIN reads SNK through the port; the last read stands in `rdata`. -/
theorem test_drain : (runLines (srcAaab ++ [.cmd .encode, .drain]) State.reset).rdata = 0x10#32 := by decide +kernel
/-- A step runs the word that `withFetchWord` places, right after reset. -/
theorem test_step_fetch_word : step (State.reset.withFetchWord 32 0x03) = exec .snkclr State.reset := by rfl

/-! ### Witnesses: a state and operands that meet the hypotheses of a statement together, one for each clause -/

/-- The state after a command; a stop of the model would leave the state before it. -/
def after (i : Instr) (s : State) : State :=
  match exec i s with
  | .next t => t
  | .fault _ => s
  | .refused _ => s

theorem exec_after (i : Instr) {s : State} (h : Inv s) : exec i s = .next (after i s) := by
  obtain ⟨t, ht, -⟩ := exec_sound i h
  rw [after, ht]

theorem inv_runLines (ls : List HostLine) {s : State} (h : Inv s) : Inv (runLines ls s) := by
  induction ls generalizing s with
  | nil => exact h
  | cons l ls ih =>
    obtain ⟨t, ht, hi⟩ := runActions_sound (l.actions s.snk.length) h
    rw [runLines, ht]
    exact ih hi

theorem inv_withCaps {a b : Word} (h : (⟨a, b, 0⟩ : Config).wf = true) : Inv (withCaps a b) := fresh_inv h

theorem inv_reset : Inv (withCaps Config.vectors.srcCap Config.vectors.snkCap) := inv_withCaps (by decide)

/-! #### The command word, the port, the registers -/

theorem witness_CommandWriteDispatch :
    faultedState.opstate = .faulted ∧ State.reset.opstate = .idle ∧
    (0x00000100#32).extractLsb' 8 24 ≠ 0#24 ∧ (∀ i, (0x00000004#32).extractLsb' 0 8 ≠ opcode i) ∧
    (0x00000061#32).extractLsb' 8 24 = 0#24 ∧ (0x00000061#32).extractLsb' 0 8 = opcode .decode := by
  refine ⟨by decide +kernel, rfl, by decide, ?_, by decide, by decide⟩
  intro i
  cases i <;> decide

theorem witness_StepRunsTheDecodedCommand :
    State.reset.pending = [] ∧ (State.reset.withFetchWord 32 0x60).pending = .write Reg.cmd.index 0x60#32 :: [] ∧
    decodeWord 0x60#32 = .ok .encode ∧ decodeTableWord 32 0x61 = some .decode := by
  refine ⟨rfl, rfl, by decide, by decide⟩

theorem witness_RegisterMapAndPort :
    (⟨0x1000 + 4 * 0, 32, false, 0#32⟩ : Access).forward 0x1000 = some (.read 0#5) ∧
    (⟨0x1000 + 4 * 31, 32, true, 7#32⟩ : Access).forward 0x1000 = some (.write 31#5 7#32) ∧
    ∀ k < 32, ¬ ((⟨0x1002, 32, true, 0#32⟩ : Access).bits = 32 ∧
      (⟨0x1002, 32, true, 0#32⟩ : Access).addr = 0x1000 + 4 * k) := by
  refine ⟨by decide, by decide, fun k _ h => ?_⟩
  have := h.2
  dsimp only at this
  omega

theorem witness_HostAccesses : Reg.status ∉ [Reg.cmd, .srcPush, .sel, .snkAddr] ∧
    Reg.reserved7C ∉ [Reg.cmd, .srcPush, .sel, .snkAddr] := by decide

theorem witness_PlainRegisterViews :
    State.reset.cause = none ∧ faultedState.cause = some .sequenceError ∧
    (let s := runLines (srcAaab ++ [.cmd .encode, .wr .snkAddr 18]) State.reset
     s.snk.wf = true ∧ s.snk.bytes[s.snkAddr.toNat]? = some 0x10#8) ∧
    (let s := runLines (srcAaab ++ [.cmd .encode, .wr .snkAddr 19]) State.reset
     s.snk.wf = true ∧ s.snk.length ≤ s.snkAddr.toNat) := by decide +kernel

theorem witness_NodeWindows :
    (255#9).toNat < 256 ∧ (256#9).toNat = 256 + 0 ∧ (510#9).toNat = 256 + 254 ∧ (510#9).toNat < 511 ∧
    (511#9).toNat = 511 ∧ builtAaab.trv = true ∧ 256 < 256 + builtAaab.nint.toNat ∧
    freqAt builtAaab.freq 0x61 ≠ 0#32 := by decide +kernel

theorem witness_CodeWindows : 0xFF#8 = (0x1FF#9).extractLsb' 0 8 ∧ derivedAaab.cdv = true ∧
    freqAt derivedAaab.freq 0x61 ≠ 0#32 := by decide +kernel

theorem witness_SourcePush :
    State.reset.opstate = .idle ∧ State.reset.srcLen ≠ State.reset.cfg.srcCap ∧
    (let s := runLines srcAaab (withCaps 4 4); s.opstate = .idle ∧ s.srcLen = s.cfg.srcCap) ∧
    faultedState.opstate = .faulted := by decide +kernel

theorem witness_PushLoadsTheBytesInOrder :
    (withCaps 2 4).opstate = .idle ∧ (withCaps 2 4).src.length + [1#8, 2#8].length ≤ (withCaps 2 4).cfg.srcCap.toNat := by
  decide

theorem witness_SinkWritesAppend :
    (withCaps 4 4).snk.length + 1 ≤ (withCaps 4 4).cfg.snkCap.toNat ∧
    (withCaps 4 0).cfg.snkCap.toNat < (withCaps 4 0).snk.length + 1 ∧
    (withCaps 4 4).snk.length + 4 ≤ (withCaps 4 4).cfg.snkCap.toNat ∧
    (withCaps 4 3).cfg.snkCap.toNat < (withCaps 4 3).snk.length + 4 ∧ Memory.wf (Memory.ofBytes [1, 2]) = true := by
  decide

theorem witness_BigEndianReads :
    loadedFrame.src.wf = true ∧
    loadedFrame.src.bytes = [0x00, 0x00, 0x00, 0x04, 0x00, 0x00, 0x00, 0x02, 0x61] ++ be32Bytes 3#32 ++
      [0x62, 0x00, 0x00, 0x00, 0x01, 0x10] := by decide +kernel

/-! #### Faults -/

theorem inv_loadedAaab : Inv loadedAaab := inv_runLines _ inv_reset

theorem witness_FaultsArePrecise :
    loadedAaab.opstate = .idle ∧ hostAction (commandAction .tbbuild) loadedAaab = .next (after .tbbuild loadedAaab) ∧
    (after .tbbuild loadedAaab).opstate = .faulted := by
  exact ⟨by decide +kernel, (hostAction_command .tbbuild _).trans (exec_after .tbbuild inv_loadedAaab),
    by decide +kernel⟩

theorem witness_FaultedRefusesCommands :
    faultedState.opstate = .faulted ∧ Instr.decode ≠ .srst ∧ 0x00000101#32 ≠ 0x00000001#32 := by decide +kernel

theorem witness_ReturnFromFault :
    faultedState.opstate = .faulted ∧ hostAction .hardReset faultedState = .next (softReset faultedState) ∧
    hostAction (.write Reg.cmd.index 0#32) faultedState = .next faultedState :=
  have h : faultedState.opstate = .faulted := by decide +kernel
  ⟨h, rfl, by rw [hostAction, if_pos (by decide), writeCommand, h]; rfl⟩

theorem witness_SequenceErrorList :
    State.reset.opstate = .idle ∧ lacksTable .tbbuild State.reset ∧ lacksTable .cgderive State.reset ∧
    lacksTable .hfemit State.reset ∧ lacksTable .bppack State.reset ∧ lacksTable .buunpack State.reset ∧
    (parsedFrame.opstate = .idle ∧ parsedFrame.hpv = true ∧ lacksTable .buunpack parsedFrame) ∧
    exec .tbbuild loadedAaab = .next (after .tbbuild loadedAaab) ∧ (after .tbbuild loadedAaab).opstate = .faulted ∧
    (after .tbbuild loadedAaab).cause = some .sequenceError :=
  ⟨rfl, rfl, rfl, rfl, rfl, .inl rfl, ⟨by decide +kernel, by decide +kernel, .inr (by decide +kernel)⟩,
    exec_after .tbbuild inv_loadedAaab, by decide +kernel, by decide +kernel⟩

theorem inv_loadedFrame : Inv loadedFrame := inv_runLines _ inv_reset

theorem witness_CodecFaults : Inv loadedAaab ∧ loadedAaab.opstate = .idle ∧ Inv loadedFrame ∧
    loadedFrame.opstate = .idle := ⟨inv_loadedAaab, by decide +kernel, inv_loadedFrame, by decide +kernel⟩

/-- The frame of "aaab" without its last byte. -/
def loadedShort : State := runLines [.push (headerAaab 4)] State.reset

theorem inv_loadedShort : Inv loadedShort := inv_runLines _ inv_reset

theorem witness_BadTraversalIsUnreachable :
    Inv loadedShort ∧ loadedShort.opstate = .idle ∧ exec .decode loadedShort = .next (after .decode loadedShort) ∧
    (after .decode loadedShort).opstate = .faulted :=
  ⟨inv_loadedShort, by decide +kernel, exec_after .decode inv_loadedShort, by decide +kernel⟩

theorem witness_ControlCommands : builtAaab.opstate = .idle ∧ builtAaab.trv = true := by decide +kernel

/-! #### The frequency table and the tree -/

theorem witness_FtcountCountsTheSource : loadedAaab.opstate = .idle ∧ State.reset.opstate = .idle := by decide +kernel

theorem witness_FtcountNeverWraps : Inv loadedAaab ∧ loadedAaab.opstate = .idle := ⟨inv_loadedAaab, by decide +kernel⟩

theorem witness_FtcountOfOneSymbol :
    loadedRun.opstate = .idle ∧ loadedRun.src.bytes = List.replicate 3 0x41#8 ∧ 1 ≤ 3 ∧ 3 < 2 ^ 32 := by
  decide +kernel

theorem witness_EmptySourceEncodes : State.reset.opstate = .idle ∧ State.reset.src = [] := ⟨rfl, rfl⟩

theorem witness_PopTakesTheLeastEntry : ∃ n : Nat, (seed countedAaab.freq).inq[n]? = some true :=
  ⟨0x61, by decide +kernel⟩

/-- The empty table: FTCOUNT of the empty source. -/
def countedNone : State := runLines [.cmd .ftcount] State.reset

theorem inv_countedAaab : Inv countedAaab := inv_runLines _ inv_reset

theorem countedAaab_distinct : countedAaab.distinct.toNat = distinctOf countedAaab.freq :=
  (inv_countedAaab.distinct (by decide +kernel)).trans (distinctOf_eq _).symm

theorem witness_TbbuildBuildsTheTree :
    (loadedAaab.opstate = .idle ∧ loadedAaab.ftv = false) ∧
    (countedNone.opstate = .idle ∧ countedNone.ftv = true ∧ countedNone.distinct = 0#9) ∧
    (countedAaab.opstate = .idle ∧ countedAaab.ftv = true ∧ countedAaab.distinct ≠ 0#9) ∧
    countedAaab.distinct.toNat = distinctOf countedAaab.freq :=
  ⟨by decide +kernel, by decide +kernel, by decide +kernel, countedAaab_distinct⟩

theorem witness_TreeShape :
    Inv countedAaab ∧ countedAaab.opstate = .idle ∧ countedAaab.ftv = true ∧ countedAaab.distinct ≠ 0#9 ∧
    2 ≤ countedAaab.distinct.toNat ∧ 256 ≤ (256#9).toNat ∧
    (256#9).toNat < 256 + (after .tbbuild countedAaab).nint.toNat ∧
    inUse countedAaab.freq (after .tbbuild countedAaab).nint.toNat (97#9).toNat ∧
    97#9 ≠ (after .tbbuild countedAaab).root :=
  ⟨inv_countedAaab, by decide +kernel, by decide +kernel, by decide +kernel, by decide +kernel, by decide,
    by decide +kernel, .inl ⟨by decide, by decide +kernel⟩, by decide +kernel⟩

theorem inv_builtAaab : Inv builtAaab := inv_runLines _ inv_reset

/-- "aaab" counted, before and after a build: two states with one FREQ. -/
theorem witness_TreeIsAFunctionOfFreq :
    countedAaab.opstate = .idle ∧ builtAaab.opstate = .idle ∧ countedAaab.freq = builtAaab.freq ∧
    countedAaab.root ≠ builtAaab.root ∧
    exec .tbbuild countedAaab = .next (after .tbbuild countedAaab) ∧
    exec .tbbuild builtAaab = .next (after .tbbuild builtAaab) ∧
    (after .tbbuild countedAaab).opstate = .idle ∧ (after .tbbuild builtAaab).opstate = .idle :=
  have e : countedAaab.src.bytes = builtAaab.src.bytes := by decide +kernel
  have h1 := inv_countedAaab.counted (by decide +kernel) (by decide +kernel)
  have h2 := inv_builtAaab.counted (by decide +kernel) (by decide +kernel)
  ⟨by decide +kernel, by decide +kernel, h1.1.trans ((congrArg countBytes e).trans h2.1.symm), by decide +kernel, exec_after _ inv_countedAaab,
    exec_after _ inv_builtAaab, by decide +kernel, by decide +kernel⟩

/-- "ab" counted: equal counts. -/
def countedAb : State := runLines [.push [0x61, 0x62], .cmd .ftcount] State.reset

theorem present_two {t : Vector Word 256} (h : presentSymbols t = [0x61, 0x62]) (z : Byte) :
    present t z = true ↔ z = 0x61 ∨ z = 0x62 := by
  rw [← mem_presentSymbols, h]
  simp

theorem witness_TwoSymbolTree :
    (countedAb.opstate = .idle ∧ countedAb.ftv = true ∧ countedAb.distinct = 2#9 ∧
      (freqAt countedAb.freq 0x61).toNat ≤ (freqAt countedAb.freq 0x62).toNat) ∧
    (countedAaab.opstate = .idle ∧ countedAaab.ftv = true ∧ countedAaab.distinct = 2#9 ∧
      (freqAt countedAaab.freq 0x62).toNat < (freqAt countedAaab.freq 0x61).toNat) ∧
    (0x61#8).toNat < (0x62#8).toNat ∧ (∀ z, present countedAb.freq z = true ↔ z = 0x61 ∨ z = 0x62) ∧
    ∀ z, present countedAaab.freq z = true ↔ z = 0x61 ∨ z = 0x62 :=
  ⟨by decide +kernel, by decide +kernel, by decide, present_two (by decide +kernel), present_two (by decide +kernel)⟩

/-! #### The code table and the packer -/

theorem witness_CgderiveRecordsThePaths :
    Inv countedAaab ∧ countedAaab.opstate = .idle ∧ countedAaab.trv = false ∧ Inv builtAaab ∧
    builtAaab.opstate = .idle ∧ builtAaab.trv = true ∧ present builtAaab.freq 0x61 = true ∧
    present builtAaab.freq 0x00 = false :=
  ⟨inv_countedAaab, by decide +kernel, by decide +kernel, inv_builtAaab, by decide +kernel, by decide +kernel,
    by decide +kernel, by decide +kernel⟩

theorem inv_derivedAaab : Inv derivedAaab := inv_runLines _ inv_reset

theorem witness_CodesArePrefixFree :
    Inv derivedAaab ∧ derivedAaab.cdv = true ∧ present derivedAaab.freq 0x61 = true ∧
    present derivedAaab.freq 0x62 = true ∧ 0x61#8 ≠ 0x62#8 :=
  ⟨inv_derivedAaab, by decide +kernel, by decide +kernel, by decide +kernel, by decide⟩

theorem witness_CodeLengths :
    Inv derivedAaab ∧ derivedAaab.cdv = true ∧ 2 ≤ derivedAaab.distinct.toNat ∧ present derivedAaab.freq 0x61 = true ∧
    derivedAaab.hpv = false :=
  ⟨inv_derivedAaab, by decide +kernel, by decide +kernel, by decide +kernel, by decide +kernel⟩

theorem witness_SingleLeafCode :
    (let s := runLines [.cmd .ftcount, .cmd .tbbuild] loadedRun
     s.opstate = .idle ∧ s.trv = true ∧ s.root.toNat < 256) := by decide +kernel

theorem witness_PushAndFlushPack :
    0 < ([true].length + 7) / 8 ∧ (withCaps 1 1).bpN = 0#3 ∧ (withCaps 1 1).bpAcc = 0#8 ∧
    (withCaps 1 1).snk.length + ([true].length + 7) / 8 ≤ (withCaps 1 1).cfg.snkCap.toNat := by decide

theorem witness_BppackAppendsThePackedCodes :
    derivedAaab.opstate = .idle ∧ derivedAaab.cdv = true ∧
    (∀ b ∈ derivedAaab.src.bytes, present derivedAaab.freq b = true) ∧
    derivedAaab.snk.length + ((codeString derivedAaab.codeLen derivedAaab.codeBits derivedAaab.src.bytes).length + 7) / 8
      ≤ derivedAaab.cfg.snkCap.toNat := by decide +kernel

/-- The codes of the frame of "aaab": its first byte 0 has none. -/
def derivedFrame : State := runLines [.cmd .cgderive] treeOfFrame

/-- Nine bytes of "a" and "b", whose code string has nine bits; SNK has no room. -/
def derivedNoRoom : State :=
  runLines [.push [0x61, 0x61, 0x61, 0x61, 0x61, 0x61, 0x61, 0x61, 0x62], .cmd .ftcount, .cmd .tbbuild, .cmd .cgderive]
    (withCaps 16 0)

theorem witness_BppackFaults :
    (derivedFrame.opstate = .idle ∧ derivedFrame.cdv = true ∧ derivedFrame.snk.length ≤ derivedFrame.cfg.snkCap.toNat ∧
      derivedFrame.src.bytes[0]? = some 0x00#8 ∧ present derivedFrame.freq 0x00 = false ∧
      (∀ x ∈ derivedFrame.src.bytes.take 0, present derivedFrame.freq x = true) ∧
      derivedFrame.snk.length + (codeString derivedFrame.codeLen derivedFrame.codeBits
        (derivedFrame.src.bytes.take 0)).length / 8 ≤ derivedFrame.cfg.snkCap.toNat) ∧
    (derivedNoRoom.opstate = .idle ∧ derivedNoRoom.cdv = true ∧
      derivedNoRoom.snk.length ≤ derivedNoRoom.cfg.snkCap.toNat ∧
      (∀ x ∈ derivedNoRoom.src.bytes, present derivedNoRoom.freq x = true) ∧
      derivedNoRoom.cfg.snkCap.toNat < derivedNoRoom.snk.length + (codeString derivedNoRoom.codeLen
        derivedNoRoom.codeBits (derivedNoRoom.src.bytes.take 8)).length / 8) := by decide +kernel

/-! #### The header -/

/-- "aaab" counted where SNK holds 17 bytes: one too few for its header. -/
def countedIn17 : State := runLines (srcAaab ++ [.cmd .ftcount]) (withCaps 16 17)

theorem inv_countedIn17 : Inv countedIn17 := inv_runLines _ (inv_withCaps (by decide))

theorem witness_HfemitWritesTheHeader :
    (loadedAaab.opstate = .idle ∧ loadedAaab.ftv = false) ∧
    (countedNone.opstate = .idle ∧ countedNone.ftv = true ∧ countedNone.distinct = 0#9) ∧
    (countedAaab.opstate = .idle ∧ countedAaab.ftv = true ∧ countedAaab.distinct ≠ 0#9 ∧
      8 + 5 * countedAaab.distinct.toNat ≤ countedAaab.cfg.snkCap.toNat) ∧
    countedAaab.distinct.toNat = distinctOf countedAaab.freq ∧
    (countedIn17.opstate = .idle ∧ countedIn17.ftv = true ∧ countedIn17.distinct ≠ 0#9 ∧
      countedIn17.cfg.snkCap.toNat < 8 + 5 * countedIn17.distinct.toNat) ∧
    countedIn17.distinct.toNat = distinctOf countedIn17.freq :=
  ⟨by decide +kernel, by decide +kernel, by decide +kernel, countedAaab_distinct, by decide +kernel,
    (inv_countedIn17.distinct (by decide +kernel)).trans (distinctOf_eq _).symm⟩

theorem pairsOk_aaab : pairsOk [(0x61, 3#32), (0x62, 1#32)] := ⟨by decide, by simp, by simp⟩

/-- The header of a frame with no pair, and the total 0. -/
def loadedZero : State := runLines [.push [0, 0, 0, 0, 0, 0, 0, 0]] State.reset

theorem inv_loadedZero : Inv loadedZero := inv_runLines _ inv_reset

theorem witness_HfparseReadsTheTable :
    (loadedFrame.opstate = .idle ∧
      loadedFrame.src.bytes = headerBytes 4#32 [(0x61, 3#32), (0x62, 1#32)] ++ [0x10]) ∧
    (loadedFrame.src.wf = true ∧ loadedFrame.src.length < 2 ^ 32) ∧ pairsOk [(0x61, 3#32), (0x62, 1#32)] ∧
    (loadedZero.opstate = .idle ∧ loadedZero.src.bytes = headerBytes 0#32 [] ++ []) ∧
    (loadedZero.src.wf = true ∧ loadedZero.src.length < 2 ^ 32) ∧ pairsOk [] :=
  ⟨by decide +kernel, ⟨inv_loadedFrame.src, inv_loadedFrame.srcLt⟩, pairsOk_aaab, by decide +kernel,
    ⟨inv_loadedZero.src, inv_loadedZero.srcLt⟩, by simp, by simp, by simp⟩

/-- SRC with the bytes `bs`. -/
def loadedBytes (bs : List Byte) : State := runLines [.push bs] State.reset

/-- Every `loadedBytes` meets the hypotheses of `Obligations.HfparseFaults` on SRC. -/
theorem loadedBytes_src (bs : List Byte) :
    (loadedBytes bs).src.wf = true ∧ (loadedBytes bs).src.length < 2 ^ 32 :=
  have h : Inv (loadedBytes bs) := inv_runLines _ inv_reset
  ⟨h.src, h.srcLt⟩

theorem witness_HfparseFaults :
    ((loadedBytes [0]).opstate = .idle ∧ 1 ≤ (loadedBytes [0]).src.length ∧ (loadedBytes [0]).src.length < 8) ∧
    (let s := loadedBytes [0, 0, 0, 4, 0, 0, 1, 1]
     s.opstate = .idle ∧ s.src.bytes = be32Bytes 4#32 ++ be32Bytes 257#32 ++ [] ∧ 256 < (257#32).toNat) ∧
    (let s := loadedBytes [0, 0, 0, 4, 0, 0, 0, 0]
     s.opstate = .idle ∧ s.src.bytes = be32Bytes 4#32 ++ be32Bytes 0#32 ++ []) ∧
    (let s := loadedBytes [0, 0, 0, 4, 0, 0, 0, 2, 0x61, 0, 0, 0, 3, 0x62, 0, 0, 0]
     s.opstate = .idle ∧
      s.src.bytes = be32Bytes 4#32 ++ be32Bytes 2#32 ++ pairBytes [(0x61, 3#32)] ++ [0x62, 0, 0, 0]) ∧
    (let s := loadedBytes [0, 0, 0, 4, 0, 0, 0, 2, 0x61, 0, 0, 0, 3, 0x62, 0, 0, 0, 0]
     s.opstate = .idle ∧
      s.src.bytes = be32Bytes 4#32 ++ be32Bytes 2#32 ++ pairBytes [(0x61, 3#32)] ++ (0x62 :: be32Bytes 0#32 ++ [])) ∧
    (let s := loadedBytes [0, 0, 0, 4, 0, 0, 0, 2, 0x61, 0, 0, 0, 3, 0x61, 0, 0, 0, 1]
     s.opstate = .idle ∧
      s.src.bytes = be32Bytes 4#32 ++ be32Bytes 2#32 ++ pairBytes [(0x61, 3#32)] ++ (0x61 :: be32Bytes 1#32 ++ []) ∧
      0x61#8 ∈ [((0x61#8 : Byte), 3#32)].map Prod.fst) := by decide +kernel

theorem witness_HfparseFaults_pairs : pairsOk [((0x61 : Byte), 3#32)] := ⟨by simp, by simp, by simp⟩

theorem witness_HeaderRoundTrip :
    Inv countedAaab ∧ countedAaab.opstate = .idle ∧ countedAaab.ftv = true ∧ countedAaab.distinct ≠ 0#9 ∧
    exec .hfemit countedAaab = .next (after .hfemit countedAaab) ∧ (after .hfemit countedAaab).opstate = .idle ∧
    loadedFrame.opstate = .idle ∧ loadedFrame.src.wf = true ∧ loadedFrame.src.length < 2 ^ 32 ∧
    loadedFrame.src.bytes = (after .hfemit countedAaab).snk.bytes ++ [0x10] :=
  ⟨inv_countedAaab, by decide +kernel, by decide +kernel, by decide +kernel, exec_after _ inv_countedAaab,
    by decide +kernel, by decide +kernel, inv_loadedFrame.src, inv_loadedFrame.srcLt, by decide +kernel⟩

theorem witness_EmptyFrameDecodes : State.reset.opstate = .idle ∧ State.reset.src = [] := ⟨rfl, rfl⟩

/-! #### The unpacker -/

theorem inv_parsedRun : Inv parsedRun := inv_runLines _ inv_reset

/-- A parsed frame of `n` times 0x41 where SNK holds `cap` bytes. -/
def parsedRunIn (cap : Word) : State :=
  runLines [.push [0x00, 0x00, 0x00, 0x03, 0x00, 0x00, 0x00, 0x01, 0x41, 0x00, 0x00, 0x00, 0x03], .cmd .hfparse]
    (withCaps 16 cap)

theorem inv_parsedRunIn_two : Inv (parsedRunIn 2) := inv_runLines _ (inv_withCaps (by decide))

/-- The parsed empty frame. -/
def parsedNone : State := runLines [.cmd .hfparse] State.reset

theorem inv_parsedNone : Inv parsedNone := inv_runLines _ inv_reset

theorem witness_BuunpackWithoutATree :
    (Inv parsedNone ∧ parsedNone.opstate = .idle ∧ parsedNone.hpv = true ∧ parsedNone.distinct = 0#9) ∧
    (Inv parsedRun ∧ parsedRun.opstate = .idle ∧ parsedRun.hpv = true ∧ parsedRun.distinct = 1#9 ∧
      present parsedRun.freq 0x41 = true ∧ parsedRun.total.toNat ≤ parsedRun.cfg.snkCap.toNat) ∧
    (Inv (parsedRunIn 2) ∧ (parsedRunIn 2).opstate = .idle ∧ (parsedRunIn 2).hpv = true ∧
      (parsedRunIn 2).distinct = 1#9 ∧ present (parsedRunIn 2).freq 0x41 = true ∧
      (parsedRunIn 2).cfg.snkCap.toNat < (parsedRunIn 2).total.toNat) :=
  ⟨⟨inv_parsedNone, by decide +kernel⟩, ⟨inv_parsedRun, by decide +kernel⟩, inv_parsedRunIn_two, by decide +kernel⟩

theorem inv_treeOfFrame : Inv treeOfFrame := inv_runLines _ inv_reset

/-- The paths of "aaab" in its tree. -/
def pathsAaab : List (Byte × List Bool) := [(0x61, [false]), (0x61, [false]), (0x61, [false]), (0x62, [true])]

/-- In the tree of "aaab" the left child of ROOT is "a" and the right child "b". -/
theorem paths_of {s : State} (h1 : s.root = 256#9) (h2 : childAt s.nodeL 256#9 = 97#9)
    (h3 : childAt s.nodeR 256#9 = 98#9) : ∀ e ∈ pathsAaab, isPath s.nodeL s.nodeR s.root e.2 e.1 := by
  have a : isPath s.nodeL s.nodeR s.root [false] 0x61 := by
    rw [isPath_cons, h1, if_neg (by decide), h2, isPath_nil]; decide
  have b : isPath s.nodeL s.nodeR s.root [true] 0x62 := by
    rw [isPath_cons, h1, if_pos rfl, h3, isPath_nil]; decide
  intro e he
  rcases List.mem_cons.mp he with rfl | he
  · exact a
  rcases List.mem_cons.mp he with rfl | he
  · exact a
  rcases List.mem_cons.mp he with rfl | he
  · exact a
  rcases List.mem_cons.mp he with rfl | he
  · exact b
  cases he

theorem witness_BuunpackWalksTheTree :
    Inv treeOfFrame ∧ treeOfFrame.opstate = .idle ∧ treeOfFrame.hpv = true ∧ treeOfFrame.trv = true ∧
    2 ≤ treeOfFrame.distinct.toNat ∧
    (∀ e ∈ pathsAaab, isPath treeOfFrame.nodeL treeOfFrame.nodeR treeOfFrame.root e.2 e.1) ∧
    pathsAaab.length = treeOfFrame.total.toNat ∧ treeOfFrame.total.toNat ≤ treeOfFrame.cfg.snkCap.toNat ∧
    pathsAaab.flatMap Prod.snd <+: bitString (treeOfFrame.src.bytes.drop (8 + 5 * treeOfFrame.distinct.toNat)) :=
  ⟨inv_treeOfFrame, by decide +kernel, by decide +kernel, by decide +kernel, by decide +kernel,
    paths_of (by decide +kernel) (by decide +kernel) (by decide +kernel), by decide +kernel, by decide +kernel,
    by decide +kernel⟩

/-- The frame of "aaab" without its last byte, and a SNK of 3 bytes for the whole frame: the trees are built. -/
def treeOfShort : State := runLines [.cmd .hfparse, .cmd .tbbuild] loadedShort
def treeInThree : State := runLines [.push frameAaab, .cmd .hfparse, .cmd .tbbuild] (withCaps 32 3)

theorem inv_treeOfShort : Inv treeOfShort := inv_runLines _ inv_loadedShort
theorem inv_treeInThree : Inv treeInThree := inv_runLines _ (inv_withCaps (by decide))

theorem witness_BuunpackFaults_underrun :
    Inv treeOfShort ∧ treeOfShort.opstate = .idle ∧ treeOfShort.hpv = true ∧ treeOfShort.trv = true ∧
    2 ≤ treeOfShort.distinct.toNat ∧
    (∀ e ∈ ([] : List (Byte × List Bool)), isPath treeOfShort.nodeL treeOfShort.nodeR treeOfShort.root e.2 e.1) ∧
    bitString (treeOfShort.src.bytes.drop (8 + 5 * treeOfShort.distinct.toNat)) =
      ([] : List (Byte × List Bool)).flatMap Prod.snd ++ [] ∧
    (∀ q, q <+: [] → 256 ≤ (follow treeOfShort.nodeL treeOfShort.nodeR treeOfShort.root q).toNat) ∧
    ([] : List (Byte × List Bool)).length < treeOfShort.total.toNat ∧
    ([] : List (Byte × List Bool)).length ≤ treeOfShort.cfg.snkCap.toNat := by
  refine ⟨inv_treeOfShort, by decide +kernel, by decide +kernel, by decide +kernel, by decide +kernel,
    fun _ h => (nomatch h), by decide +kernel, fun q hq => ?_, by decide +kernel, by decide +kernel⟩
  rw [List.prefix_nil.mp hq, follow]
  decide +kernel

theorem witness_BuunpackFaults_overflow :
    Inv treeInThree ∧ treeInThree.opstate = .idle ∧ treeInThree.hpv = true ∧ treeInThree.trv = true ∧
    2 ≤ treeInThree.distinct.toNat ∧
    (∀ e ∈ pathsAaab, isPath treeInThree.nodeL treeInThree.nodeR treeInThree.root e.2 e.1) ∧
    pathsAaab.flatMap Prod.snd <+: bitString (treeInThree.src.bytes.drop (8 + 5 * treeInThree.distinct.toNat)) ∧
    pathsAaab.length ≤ treeInThree.total.toNat ∧ pathsAaab.length = treeInThree.cfg.snkCap.toNat + 1 :=
  ⟨inv_treeInThree, by decide +kernel, by decide +kernel, by decide +kernel, by decide +kernel,
    paths_of (by decide +kernel) (by decide +kernel) (by decide +kernel), by decide +kernel, by decide +kernel,
    by decide +kernel⟩

/-! #### The codec and the whole machine -/

theorem witness_EncodeWritesTheFrame :
    (Inv State.reset ∧ State.reset.opstate = .idle ∧ State.reset.src.length = 0) ∧
    (Inv loadedAaab ∧ loadedAaab.opstate = .idle ∧ loadedAaab.src.length ≠ 0) :=
  ⟨⟨inv_reset, rfl, rfl⟩, inv_loadedAaab, by decide +kernel⟩

theorem pairsOk_run : pairsOk [((0x41 : Byte), 3#32)] := ⟨by simp, by simp, by simp⟩

theorem witness_DecodeRestoresTheSymbols :
    (loadedZero.opstate = .idle ∧ loadedZero.src.bytes = headerBytes 0#32 [] ++ [] ∧
      (0#32).toNat ≤ loadedZero.cfg.snkCap.toNat) ∧
    (let s := loadedBytes [0x00, 0x00, 0x00, 0x03, 0x00, 0x00, 0x00, 0x01, 0x41, 0x00, 0x00, 0x00, 0x03]
     s.opstate = .idle ∧ s.src.bytes = headerBytes 3#32 [(0x41, 3#32)] ++ [] ∧ (3#32).toNat ≤ s.cfg.snkCap.toNat) ∧
    (loadedFrame.opstate = .idle ∧ loadedFrame.src.bytes = headerBytes 4#32 [(0x61, 3#32), (0x62, 1#32)] ++ [0x10] ∧
      (4#32).toNat ≤ loadedFrame.cfg.snkCap.toNat ∧ pathsAaab.length = (4#32).toNat ∧
      pathsAaab.flatMap Prod.snd <+: bitString [0x10]) := by decide +kernel

/-- The rest of its hypotheses: SRC canonical and short (`loadedBytes_src`, `inv_loadedFrame`, `inv_loadedZero`), the pairs
in order (`pairsOk_aaab`, `pairsOk_run`), and the paths of the rebuilt tree. -/
theorem witness_DecodeRestoresTheSymbols_tree :
    ∀ e ∈ pathsAaab, isPath treeOfFrame.nodeL treeOfFrame.nodeR 256#9 e.2 e.1 :=
  have h : treeOfFrame.root = 256#9 := by decide +kernel
  h ▸ paths_of h (by decide +kernel) (by decide +kernel)

theorem witness_CodecEqualsTheCommandSequences :
    (loadedAaab.opstate = .idle ∧ loadedAaab.src.length ≠ 0) ∧ State.reset.src.length = 0 ∧
    (exec .hfparse loadedFrame = .next (after .hfparse loadedFrame) ∧
      2 ≤ (after .hfparse loadedFrame).distinct.toNat) ∧
    (exec .hfparse State.reset = .next (after .hfparse State.reset) ∧
      (after .hfparse State.reset).distinct.toNat < 2) ∧
    (exec .hfparse loadedAaab = .next (after .hfparse loadedAaab) ∧
      (after .hfparse loadedAaab).opstate = .faulted) :=
  ⟨by decide +kernel, rfl, ⟨exec_after _ inv_loadedFrame, by decide +kernel⟩,
    ⟨exec_after .hfparse inv_reset, by decide +kernel⟩, exec_after _ inv_loadedAaab, by decide +kernel⟩

/-- What the encoding of a byte string leaves, from the reset state. -/
def encoded (bs : List Byte) : State := runLines [.cmd .srcclr, .push bs, .cmd .encode] State.reset

/-- A stop of the model would break the chain; none comes, so the program's end is `encoded`. -/
theorem encoded_runs (bs : List Byte) :
    runActions (commandAction .srcclr :: (HostLine.push bs).actions 0 ++ [commandAction .encode]) State.reset =
      .next (encoded bs) := by
  obtain ⟨t, ht, hi⟩ := runActions_sound [commandAction .srcclr] inv_reset
  obtain ⟨u, hu, hj⟩ := runActions_sound ((HostLine.push bs).actions 0) hi
  obtain ⟨v, hv, -⟩ := runActions_sound [commandAction .encode] hj
  have e : encoded bs = v := by
    have hu' : runActions ((HostLine.push bs).actions t.snk.length) t = .next u := hu
    have ht' : runActions ((HostLine.cmd .srcclr).actions State.reset.snk.length) State.reset = .next t := ht
    have hv' : runActions ((HostLine.cmd .encode).actions u.snk.length) u = .next v := hv
    rw [encoded, runLines, ht']
    dsimp only
    rw [runLines, hu']
    dsimp only
    rw [runLines, hv']
    rfl
  have ht'' : runActions [commandAction .srcclr] State.reset = .next t := ht
  have e1 : commandAction .srcclr :: (HostLine.push bs).actions 0 ++ [commandAction .encode] =
    [commandAction .srcclr] ++ ((HostLine.push bs).actions 0 ++ [commandAction .encode]) := rfl
  rw [e1, runActions_append, ht'']
  dsimp only
  rw [runActions_append, hu, e]
  exact hv

theorem witness_DecodeOfEncodeRestoresTheInput :
    Inv State.reset ∧ State.reset.opstate = .idle ∧
    [0x61#8, 0x61#8, 0x61#8, 0x62#8].length ≤ State.reset.cfg.srcCap.toNat ∧
    [0x61#8, 0x61#8, 0x61#8, 0x62#8].length ≤ State.reset.cfg.snkCap.toNat ∧
    runActions (commandAction .srcclr :: (HostLine.push [0x61, 0x61, 0x61, 0x62]).actions 0 ++
      [commandAction .encode]) State.reset = .next (encoded [0x61, 0x61, 0x61, 0x62]) ∧
    (encoded [0x61, 0x61, 0x61, 0x62]).opstate = .idle ∧
    (encoded [0x61, 0x61, 0x61, 0x62]).snk.length ≤ (encoded [0x61, 0x61, 0x61, 0x62]).cfg.srcCap.toNat ∧
    ((encoded []).opstate = .idle ∧ (encoded []).snk.length ≤ (encoded []).cfg.srcCap.toNat) :=
  ⟨inv_reset, rfl, by decide, by decide, encoded_runs _, by decide +kernel, by decide +kernel, by decide +kernel⟩

/-- Two states with one SRC and different tables. -/
theorem witness_CodecIsPure :
    loadedAaab.opstate = .idle ∧ countedAaab.opstate = .idle ∧ loadedAaab.src = countedAaab.src ∧
    loadedAaab.cfg.snkCap = countedAaab.cfg.snkCap ∧ loadedAaab.distinct ≠ countedAaab.distinct ∧
    exec .encode loadedAaab = .next (after .encode loadedAaab) ∧
    exec .encode countedAaab = .next (after .encode countedAaab) :=
  ⟨by decide +kernel, by decide +kernel, by decide +kernel, by decide +kernel, by decide +kernel,
    exec_after _ inv_loadedAaab, exec_after _ inv_countedAaab⟩

theorem witness_SingleSymbolFrame :
    loadedRun.opstate = .idle ∧ loadedRun.src = Memory.ofBytes (List.replicate 3 0x41#8) ∧
    13 ≤ loadedRun.cfg.snkCap.toNat ∧ 3 ≤ loadedRun.cfg.snkCap.toNat := by decide +kernel

/-- A step from a state of the invariant in which something happens. -/
theorem witness_StepKeepsTheInvariant :
    Inv (loadedAaab.withFetchWord 32 0x10) ∧
    step (loadedAaab.withFetchWord 32 0x10) = .next (after .ftcount loadedAaab) ∧
    (after .ftcount loadedAaab).ftv = true ∧ loadedAaab.ftv = false :=
  ⟨inv_loadedAaab.withPending _, (hostAction_command .ftcount loadedAaab).trans (exec_after .ftcount inv_loadedAaab),
    by decide +kernel, by decide +kernel⟩

theorem witness_StepAlwaysAnswers : Inv (loadedShort.withFetchWord 32 0x61) := inv_loadedShort.withPending _

theorem witness_CommandFrame :
    exec .ftcount loadedAaab = .next (after .ftcount loadedAaab) ∧ Instr.ftcount ≠ .srst ∧ Instr.ftcount ≠ .srcclr ∧
    (after .ftcount loadedAaab).opstate = .idle :=
  ⟨exec_after _ inv_loadedAaab, by decide, by decide, by decide +kernel⟩

theorem witness_BufferChanges :
    hostAction (.write Reg.srcPush.index 7#32) State.reset = .next (srcPush 7#32 State.reset) ∧
    (srcPush 7#32 State.reset).src ≠ State.reset.src ∧
    (hostAction (commandAction .bppack) derivedAaab = .next (after .bppack derivedAaab) ∧
      (after .bppack derivedAaab).opstate = .idle) :=
  ⟨rfl, by decide, (hostAction_command .bppack _).trans (exec_after .bppack inv_derivedAaab), by decide +kernel⟩

end Sys2Proof.Machine
end

/-! PROOFS. The statements of 10_state.md: what every step keeps, what no command touches, what each register shows bit
by bit, the write of SRC_PUSH, and reset. -/

namespace Sys2Proof.Machine

/-! ### Every step keeps the invariant -/

/-- Every step answers, and keeps the invariant: a host action does, and the queue of actions is no part of it. -/
theorem step_sound {s : State} (h : Inv s) : ∃ t, step s = .next t ∧ Inv t := by
  rw [step]
  split
  · exact ⟨s, rfl, h⟩
  · exact hostAction_sound _ (h.withPending _)

/-- Settles O56: a step answers a state of the invariant, and it answers only one. -/
theorem stepKeepsTheInvariant : Obligations.StepKeepsTheInvariant := by
  intro s t h ht
  obtain ⟨u, hu, hi⟩ := step_sound h
  rw [hu] at ht
  injection ht with ht
  exact ht ▸ hi

/-- Settles O55: the capacities of the reset state are in range, and a fresh state with such has the invariant. -/
theorem invariantAtReset : Obligations.InvariantAtReset := fresh_inv (c := Config.vectors) (by decide)

/-! ### What no command touches -/

/-- Settles O58, along all that a command can answer: reset (SRST), an empty SRC (SRCCLR), nothing (in FAULTED), the
host's state kept, or fault entry, which does not end in IDLE. -/
theorem commandFrame : Obligations.CommandFrame := by
  intro i s t h
  rcases exec_cases h with ⟨rfl, rfl⟩ | ⟨rfl, -, rfl⟩ | ⟨-, -, rfl⟩ | ⟨-, -, -, k | ⟨c, info, rfl⟩⟩
  case inl => simp
  case inr.inl => simp
  case inr.inr.inl => simp
  case inr.inr.inr.inl =>
    exact ⟨k.cfg, k.pending, k.rdata, fun _ => ⟨k.sel, k.snkAddr⟩, fun _ _ => k.src, fun _ _ => ⟨k.cause, k.einfo⟩⟩
  case inr.inr.inr.inr => simp

/-! ### Reset -/

theorem softReset_atReset (s : State) : AtReset (softReset s) := by simp [AtReset]

theorem softReset_status (s : State) : (softReset s).status = 0#32 := by
  simp [State.status, State.err, State.single, bitAt]

/-- The word 0x00000001 on CMD runs SRST in IDLE and in FAULTED (30_encoding.md R81). -/
theorem hostAction_srst (s : State) : hostAction (.write Reg.cmd.index 0x00000001#32) s = .next (softReset s) :=
  hostAction_command .srst s

/-- Settles O15: SRST, hardware reset and the write of the word 1 to CMD all answer `softReset s`. -/
theorem resetValues : Obligations.ResetValues :=
  ⟨softReset_atReset State.reset,
    fun s => ⟨softReset s, rfl, rfl, hostAction_srst s, softReset_atReset s, softReset_status s⟩⟩

/-! ### The write of SRC_PUSH -/

theorem hostAction_srcPush (d : Word) (s : State) :
    hostAction (.write Reg.srcPush.index d) s = .next (srcPush d s) := by
  rw [hostAction, ofIndex_index, if_neg (by decide), writeReg]

theorem srcPush_faulted (d : Word) {s : State} (h : s.opstate = .faulted) : srcPush d s = s := by
  simp only [srcPush, h]

theorem srcPush_full (d : Word) {s : State} (h : s.opstate = .idle) (hc : s.srcLen = s.cfg.srcCap) :
    srcPush d s = enterFault .srcOverflow s.srcLen s := by
  simp only [srcPush, h, if_pos hc]

theorem srcPush_room (d : Word) {s : State} (h : s.opstate = .idle) (hc : s.srcLen ≠ s.cfg.srcCap) :
    srcPush d s = clearValidity { s with src := s.src.append (d.extractLsb' 0 8) } := by
  simp only [srcPush, h, if_neg hc, BitVec.setWidth_eq_extractLsb' (show 8 ≤ 32 by decide)]

/-- Settles O11, one equation of `srcPush` a case. -/
theorem sourcePush : Obligations.SourcePush := by
  intro s d
  simp only [hostAction_srcPush]
  refine ⟨fun h hc => ?_, fun h hc => ?_, fun h => ?_, rfl, rfl, rfl⟩
  · rw [srcPush_room d h hc, clearValidity]
  · rw [srcPush_full d h hc]
  · rw [srcPush_faulted d h]

/-! ### STATUS -/

theorem bitAt_getLsbD {i : Nat} (h : i < 32) (b : Bool) (n : Nat) :
    (bitAt i b).getLsbD n = (decide (n = i) && b) := by
  cases b with
  | false => simp [bitAt]
  | true =>
    rw [bitAt, if_pos rfl, ← BitVec.twoPow_eq, BitVec.getLsbD_twoPow]
    simp [h, eq_comm]

theorem status_getLsbD (s : State) (i : Nat) : s.status.getLsbD i =
    (decide (i = 0) && s.err || decide (i = 1) && s.empty || decide (i = 2) && s.ftv || decide (i = 3) && s.trv ||
      decide (i = 4) && s.cdv || decide (i = 5) && s.hpv || decide (i = 6) && s.single) := by
  simp [State.status, bitAt_getLsbD]

theorem status_getLsbD_high (s : State) {i : Nat} (h : 7 ≤ i) : s.status.getLsbD i = false := by
  have off : ∀ k < 7, decide (i = k) = false := fun k hk => decide_eq_false (by omega)
  simp [status_getLsbD, off]

theorem single_eq (s : State) : s.single = (s.ftv && decide (s.distinct.toNat = 1)) := by
  simp [State.single, ← BitVec.toNat_inj]

/-- Settles O7: every bit of STATUS by `status_getLsbD`, and none from bit 7 on. -/
theorem statusBits : Obligations.StatusBits := by
  intro s
  simp only [readReg]
  refine ⟨?_, ?_, ?_, ?_, ?_, ?_, ?_, fun i => status_getLsbD_high s⟩
  all_goals rw [status_getLsbD]
  all_goals simp [State.err, single_eq]

/-! ### The plain views -/

/-- A field of nine bits reads as the number it holds. -/
theorem toNat_setWidth_word (x : BitVec 9) : (x.setWidth 32).toNat = x.toNat :=
  BitVec.toNat_setWidth_of_le (by decide)

theorem selSymbol_eq (s : State) : s.selSymbol = s.sel.extractLsb' 0 8 :=
  BitVec.setWidth_eq_extractLsb' (by decide)

theorem causeWord_none {s : State} (h : s.cause = none) : s.causeWord = 0#32 := by rw [State.causeWord, h]

theorem causeWord_some {s : State} {c : Cause} (h : s.cause = some c) : s.causeWord = c.code.setWidth 32 := by
  rw [State.causeWord, h]

theorem snkDataWord_byte {s : State} (h : s.snk.wf = true) {b : Byte} (hb : s.snk.bytes[s.snkAddr.toNat]? = some b) :
    s.snkDataWord = b.setWidth 32 := by
  rw [State.snkDataWord, Memory.read_eq h, hb]

theorem snkDataWord_beyond {s : State} (h : s.snk.wf = true) (hl : s.snk.length ≤ s.snkAddr.toNat) :
    s.snkDataWord = 0#32 := by
  rw [State.snkDataWord, Memory.read_eq h, List.getElem?_eq_none (by simpa using hl)]

/-- Settles O8: SNK_DATA by what a read of a canonical buffer gives, the codes cause by cause. -/
theorem plainRegisterViews : Obligations.PlainRegisterViews := by
  intro s
  refine ⟨rfl, rfl, rfl, ?_, ?_, ?_, ?_, causeWord_none, fun c hc => ?_, rfl, rfl, fun h =>
    ⟨fun b => snkDataWord_byte h, snkDataWord_beyond h⟩⟩
  · exact toNat_setWidth_word s.distinct
  · exact toNat_setWidth_word s.root
  · exact toNat_setWidth_word s.nint
  · rw [readReg, selSymbol_eq]
  · rw [readReg, causeWord_some hc]
    cases c <;> decide

/-! ### The node windows -/

theorem nodeAt_of_lt {w : Nat} (t : Vector (BitVec w) 511) {n : NodeId} (h : n.toNat < 511) :
    nodeAt t n = t[n.toNat] := by
  simp [nodeAt, h]

theorem nodeAt_of_le {w : Nat} (t : Vector (BitVec w) 511) {n : NodeId} (h : 511 ≤ n.toNat) : nodeAt t n = 0#w := by
  simp [nodeAt, Nat.not_lt.mpr h]

theorem childAt_of_internal (t : Vector NodeId 255) {n : NodeId} {k : Nat} (hk : k < 255) (h : n.toNat = 256 + k) :
    childAt t n = t[k] := by
  simp [childAt, h, hk]

theorem childAt_of_not_internal (t : Vector NodeId 255) {n : NodeId} (h : n.toNat < 256 ∨ n.toNat = 511) :
    childAt t n = 0#9 := by
  rcases h with h | h
  · exact childAt_leaf t h
  · simp [childAt, h]

/-- The two words of a weight make the weight. -/
theorem weight_split (x : Weight) :
    (x.extractLsb' 0 32).toNat + 2 ^ 32 * ((x.extractLsb' 32 8).setWidth 32).toNat = x.toNat := by
  have := x.isLt
  rw [BitVec.toNat_setWidth_of_le (by decide), BitVec.extractLsb'_toNat, BitVec.extractLsb'_toNat, Nat.shiftRight_zero,
    Nat.shiftRight_eq_div_pow]
  omega

/-- A field of a word is known by its bits. -/
theorem field_eq_of_bits {x : Word} {start n : Nat} {y : BitVec n} (h : ∀ i < n, x.getLsbD (start + i) = y.getLsbD i) :
    x.extractLsb' start n = y := by
  apply BitVec.eq_of_getLsbD_eq
  intro i hi
  rw [BitVec.getLsbD_extractLsb', h i hi, decide_eq_true hi, Bool.true_and]

theorem nodeChWord_getLsbD (s : State) (i : Nat) : s.nodeChWord.getLsbD i =
    ((childAt s.nodeL s.sel).getLsbD i || !decide (i < 16) && (childAt s.nodeR s.sel).getLsbD (i - 16) ||
      decide (i = 30) && s.nodeUsed s.sel || decide (i = 31) && decide (s.sel.toNat < 256)) := by
  simp only [State.nodeChWord, BitVec.getLsbD_or, BitVec.getLsbD_shiftLeft, BitVec.getLsbD_setWidth,
    bitAt_getLsbD (show 30 < 32 by decide), bitAt_getLsbD (show 31 < 32 by decide)]
  by_cases hi : i < 32
  · simp [hi, show i - 16 < 32 by omega]
  · simp [hi, BitVec.getLsbD_of_ge _ i (show 9 ≤ i by omega),
      BitVec.getLsbD_of_ge _ (i - 16) (show 9 ≤ i - 16 by omega)]

theorem nodeChWord_left (s : State) : s.nodeChWord.extractLsb' 0 9 = childAt s.nodeL s.sel :=
  field_eq_of_bits fun i hi => by
    simp [nodeChWord_getLsbD, show i < 16 by omega, show i ≠ 30 by omega, show i ≠ 31 by omega]

theorem nodeChWord_right (s : State) : s.nodeChWord.extractLsb' 16 9 = childAt s.nodeR s.sel :=
  field_eq_of_bits fun i hi => by
    simp [nodeChWord_getLsbD, BitVec.getLsbD_of_ge _ (16 + i) (show 9 ≤ 16 + i by omega), show 16 + i ≠ 30 by omega,
      show 16 + i ≠ 31 by omega]

theorem nodeChWord_gap_low (s : State) : s.nodeChWord.extractLsb' 9 7 = 0#7 :=
  field_eq_of_bits fun i hi => by
    simp [nodeChWord_getLsbD, show 9 + i < 16 by omega, show 9 + i ≠ 30 by omega, show 9 + i ≠ 31 by omega]

theorem nodeChWord_gap_high (s : State) : s.nodeChWord.extractLsb' 25 5 = 0#5 :=
  field_eq_of_bits fun i hi => by
    simp [nodeChWord_getLsbD, BitVec.getLsbD_of_ge _ (25 + i) (show 9 ≤ 25 + i by omega),
      BitVec.getLsbD_of_ge _ (25 + i - 16) (show 9 ≤ 25 + i - 16 by omega), show 25 + i ≠ 30 by omega,
      show 25 + i ≠ 31 by omega]

theorem nodeChWord_used (s : State) : s.nodeChWord.getLsbD 30 = s.nodeUsed s.sel := by
  rw [nodeChWord_getLsbD, BitVec.getLsbD_of_ge _ 30 (by decide), BitVec.getLsbD_of_ge _ (30 - 16) (by decide)]
  simp

theorem nodeChWord_leaf (s : State) : s.nodeChWord.getLsbD 31 = decide (s.sel.toNat < 256) := by
  rw [nodeChWord_getLsbD, BitVec.getLsbD_of_ge _ 31 (by decide), BitVec.getLsbD_of_ge _ (31 - 16) (by decide)]
  simp

theorem nodeUsed_iff (s : State) (n : NodeId) : s.nodeUsed n = true ↔ s.trv = true ∧
    ((n.toNat < 256 ∧ freqAt s.freq (n.setWidth 8) ≠ 0#32) ∨ (256 ≤ n.toNat ∧ n.toNat < 256 + s.nint.toNat)) := by
  simp [State.nodeUsed, present_iff]

/-- Settles O9: the entry at SEL for a node that exists, 0 for the others, and the fields of NODE_CH. -/
theorem nodeWindows : Obligations.NodeWindows := by
  intro s
  simp only [readReg]
  refine ⟨fun h => ⟨?_, ?_⟩, fun h => ?_, fun k hk h => ?_, fun h => ?_, nodeChWord_leaf s, ?_,
    nodeChWord_gap_low s, nodeChWord_gap_high s⟩
  · rw [nodeAt_of_lt _ h, weight_split]
  · rw [nodeAt_of_lt _ h, BitVec.toNat_setWidth_of_le (by decide)]
  · rw [nodeAt_of_le _ h.ge, nodeAt_of_le _ h.ge]
    decide
  · rw [nodeChWord_left, nodeChWord_right, childAt_of_internal _ hk h, childAt_of_internal _ hk h]
    exact ⟨rfl, rfl⟩
  · rw [nodeChWord_left, nodeChWord_right, childAt_of_not_internal _ h, childAt_of_not_internal _ h]
    exact ⟨rfl, rfl⟩
  · rw [nodeChWord_used, nodeUsed_iff]

/-! ### The code windows -/

theorem codeLenWord_getLsbD (s : State) (i : Nat) : s.codeLenWord.getLsbD i =
    ((s.codeLen[s.selSymbol.toNat]'(s.selSymbol.isLt)).getLsbD i ||
      decide (i = 31) && (s.cdv && present s.freq s.selSymbol)) := by
  simp only [State.codeLenWord, BitVec.getLsbD_or, BitVec.getLsbD_setWidth, bitAt_getLsbD (show 31 < 32 by decide)]
  by_cases hi : i < 32
  · simp [hi]
  · simp [hi, BitVec.getLsbD_of_ge _ i (show 8 ≤ i by omega)]

theorem codeLenWord_len (s : State) :
    s.codeLenWord.extractLsb' 0 8 = s.codeLen[s.selSymbol.toNat]'(s.selSymbol.isLt) :=
  field_eq_of_bits fun i hi => by simp [codeLenWord_getLsbD, show i ≠ 31 by omega]

theorem codeLenWord_gap (s : State) : s.codeLenWord.extractLsb' 8 23 = 0#23 :=
  field_eq_of_bits fun i hi => by simp [codeLenWord_getLsbD, show 8 + i ≠ 31 by omega]

theorem codeLenWord_has (s : State) :
    s.codeLenWord.getLsbD 31 = true ↔ s.cdv = true ∧ freqAt s.freq s.selSymbol ≠ 0#32 := by
  rw [codeLenWord_getLsbD, BitVec.getLsbD_of_ge _ 31 (by decide)]
  simp [present_iff]

theorem codeBWord_getLsbD (s : State) (j : Fin 8) {i : Nat} (hi : i < 32) : (s.codeBWord j).getLsbD i =
    (s.codeBits[s.selSymbol.toNat]'(s.selSymbol.isLt)).getLsbD (224 - 32 * j.val + i) := by
  simp [State.codeBWord, hi]

/-- Settles O10, with SEL[7:0] as the symbol both windows show. -/
theorem codeWindows : Obligations.CodeWindows := by
  intro s x hx
  obtain rfl : x = s.selSymbol := hx.trans (selSymbol_eq s).symm
  exact ⟨codeLenWord_len s, codeLenWord_gap s, codeLenWord_has s, fun j _ hi => codeBWord_getLsbD s j hi⟩

end Sys2Proof.Machine

/-! PROOFS. The statements of 20_memory.md: appends to the sink and reads of the source, the register map and the port,
host reads and writes, and what one step does. -/

namespace Sys2Proof.Machine

/-! ### The buffers -/

/-- A read after appends gives the old byte below the old length and the new ones from there on (20_memory.md R63). -/
theorem Memory.read_appendAll {m : Memory} (bs : List Byte) (h : m.wf = true) (a : Nat) :
    (m.appendAll bs).read a = if a < m.length then m.read a else bs[a - m.length]? := by
  split
  case isTrue ha => exact Memory.read_appendAll_of_lt bs h ha
  case isFalse ha =>
    have hl : (Memory.bytes m).length ≤ a := by rw [Memory.length_bytes]; exact Nat.le_of_not_lt ha
    rw [Memory.read_eq (Memory.wf_appendAll bs h), Memory.bytes_appendAll, List.getElem?_append_right hl,
      Memory.length_bytes]

/-- Settles O13: one byte and four are lists of bytes to `memWrite`, which appends them or overflows. -/
theorem sinkWritesAppend : Obligations.SinkWritesAppend :=
  ⟨fun _ b v => ⟨memWrite_fits (bs := [b]), memWrite_overflow (bs := [b]), memWrite_fits (bs := be32Bytes v),
      memWrite_overflow (bs := be32Bytes v)⟩,
    fun m _ bs h => ⟨rfl, Memory.wf_appendAll bs h, Memory.length_appendAll m bs, Memory.read_appendAll bs h⟩⟩

/-- A byte behind a bit vector counts for itself, and what stands before it 2^8 times. -/
theorem toNat_append_byte {w : Nat} (x : BitVec w) (y : Byte) : (x ++ y).toNat = x.toNat * 2 ^ 8 + y.toNat := by
  rw [BitVec.toNat_append, ← Nat.shiftLeft_add_eq_or_of_lt y.isLt, Nat.shiftLeft_eq]

theorem be32_toNat (b0 b1 b2 b3 : Byte) :
    (be32 b0 b1 b2 b3).toNat = b0.toNat * 2 ^ 24 + b1.toNat * 2 ^ 16 + b2.toNat * 2 ^ 8 + b3.toNat := by
  rw [be32, toNat_append_byte, toNat_append_byte, toNat_append_byte]
  omega

/-- Settles O14: the bytes of `v` stand at the end of `pre`, where a read of four gives `v` and a read of one the
first. -/
theorem bigEndianReads : Obligations.BigEndianReads := by
  refine ⟨fun b0 b1 b2 b3 => ⟨be32_toNat b0 b1 b2 b3, be32Bytes_be32 b0 b1 b2 b3⟩, fun s pre rest v hw hb => ?_⟩
  have hd : s.src.bytes.drop pre.length = be32Bytes v ++ rest := by
    rw [hb, List.append_assoc, List.drop_left]
  exact ⟨memRead4_of_drop hw hd, read_of_drop hw hd (k := 0) (by simp)⟩

/-! ### The register map and the port -/

theorem offset_eq_index (r : Reg) : r.offset = 4 * r.index.toNat := by
  cases r with
  | codeB j => revert j; decide
  | _ => rfl

theorem index_ofIndex (k : RegIndex) : (Reg.ofIndex k).index = k := by revert k; decide

/-- The accesses the port can express are those of 32 bits at a register's offset (20_memory.md R68). -/
theorem access_wf_iff (base : Nat) (a : Access) :
    a.wf base = true ↔ ∃ k < 32, a.bits = 32 ∧ a.addr = base + 4 * k := by
  simp only [Access.wf, Bool.and_eq_true, decide_eq_true_eq]
  constructor
  · rintro ⟨⟨⟨hb, hl⟩, hm⟩, hu⟩
    exact ⟨(a.addr - base) / 4, by omega, hb, by omega⟩
  · rintro ⟨k, hk, hb, ha⟩
    exact ⟨⟨⟨hb, by omega⟩, by omega⟩, by omega⟩

theorem forward_of_register {base k : Nat} {a : Access} (hk : k < 32) (hb : a.bits = 32)
    (ha : a.addr = base + 4 * k) : a.forward base =
      some (if a.store then .write (BitVec.ofNat 5 k) a.data else .read (BitVec.ofNat 5 k)) := by
  have hi : (a.addr - base) / 4 = k := by omega
  rw [Access.forward, if_pos ((access_wf_iff base a).mpr ⟨k, hk, hb, ha⟩), hi]

theorem forward_of_not_wf {base : Nat} {a : Access} (h : ¬ a.wf base = true) : a.forward base = none :=
  if_neg h

/-- Settles O5: the index undoes `Reg.ofIndex` both ways, and the bridge forwards the well-formed accesses. -/
theorem registerMapAndPort : Obligations.RegisterMapAndPort := by
  refine ⟨fun r => ⟨ofIndex_index r, offset_eq_index r⟩, index_ofIndex, rfl, fun _ => rfl, fun base a =>
    ⟨fun k hk => forward_of_register hk, fun h => forward_of_not_wf fun hw => ?_⟩⟩
  obtain ⟨k, hk, ha⟩ := (access_wf_iff base a).mp hw
  exact h k hk ha

/-! ### Host reads and writes -/

theorem hostAction_read (r : Reg) (s : State) :
    hostAction (.read r.index) s = .next { s with rdata := readReg r s } := by
  rw [hostAction, ofIndex_index]

/-- The port's read data is no register's value (20_memory.md R69). -/
theorem readReg_rdata (r : Reg) (d : Word) (s : State) : readReg r { s with rdata := d } = readReg r s := by
  cases r <;> rfl

theorem hostAction_write {r : Reg} (h : r ≠ .cmd) (d : Word) (s : State) :
    hostAction (.write r.index d) s = .next (writeReg r d s) := by
  rw [hostAction, ofIndex_index, if_neg h]

/-- A write of a read-only or a reserved register is ignored (10_state.md R58). -/
theorem writeReg_ignored {r : Reg} (h : r ∉ [Reg.cmd, .srcPush, .sel, .snkAddr]) (d : Word) (s : State) :
    writeReg r d s = s := by
  cases r with
  | srcPush => simp at h
  | sel => simp at h
  | snkAddr => simp at h
  | _ => rfl

theorem writeReg_sel (d : Word) (s : State) : writeReg .sel d s = { s with sel := d.extractLsb' 0 9 } := by
  rw [writeReg, BitVec.setWidth_eq_extractLsb' (show 9 ≤ 32 by decide)]

/-- Settles O6: a read is `readReg`, which does not see `rdata`; a write but that of CMD is `writeReg`. -/
theorem hostAccesses : Obligations.HostAccesses := by
  intro s d
  refine ⟨fun r => ⟨hostAction_read r s, readReg_rdata r d s⟩, fun r h => ?_, ?_, ?_, rfl, rfl, rfl⟩
  · have hr : r ≠ .cmd := fun e => h (by simp [e])
    rw [hostAction_write hr, writeReg_ignored h]
  · exact ⟨writeReg .sel d s, hostAction_write (by decide) d s, writeReg_sel d s, by rw [writeReg_sel, readReg]⟩
  · exact ⟨writeReg .snkAddr d s, hostAction_write (by decide) d s, rfl, rfl⟩

/-! ### One step -/

theorem opcode_of_ofOpcode {b : Byte} {i : Instr} (h : ofOpcode b = some i) : b = opcode i := by
  unfold ofOpcode at h
  split at h <;> cases h
  all_goals
    rename_i hb
    exact BitVec.eq_of_toNat_eq hb

theorem rsvField_eq_zero_iff (d : Word) : rsvField d = 0#24 ↔ d.toNat / 256 = 0 := by
  have hd := d.isLt
  rw [← BitVec.toNat_inj, rsvField, BitVec.extractLsb'_toNat, Nat.shiftRight_eq_div_pow, BitVec.toNat_ofNat]
  omega

/-- A word whose reserved bits are 0 is its opcode byte, zero-extended (30_encoding.md R80). -/
theorem eq_opcField_of_rsvField {d : Word} (h : rsvField d = 0#24) : d = (opcField d).setWidth 32 := by
  have hr := (rsvField_eq_zero_iff d).mp h
  apply BitVec.eq_of_toNat_eq
  rw [BitVec.toNat_setWidth_of_le (by decide), opcField, BitVec.extractLsb'_toNat, Nat.shiftRight_zero]
  omega

/-- The decoder accepts no word but the encodings (30_encoding.md R82, R83). -/
theorem eq_encode_of_decodeWord {d : Word} {i : Instr} (h : decodeWord d = .ok i) : d = encode i := by
  unfold decodeWord at h
  split at h
  case isFalse => cases h
  case isTrue hr =>
    split at h
    case h_2 => cases h
    case h_1 j hj =>
      cases h
      rw [eq_opcField_of_rsvField hr, opcode_of_ofOpcode hj, encode]

/-- A write to CMD of a word that decodes is the command, in IDLE and in FAULTED (30_encoding.md R81). -/
theorem hostAction_of_decodeWord {d : Word} {i : Instr} (h : decodeWord d = .ok i) (s : State) :
    hostAction (.write Reg.cmd.index d) s = exec i s := by
  rw [eq_encode_of_decodeWord h]
  exact hostAction_command i s

theorem decodeWord_of_decodeTableWord {w : Nat} {i : Instr} (h : decodeTableWord 32 w = some i) :
    decodeWord (tableWord 32 w) = .ok i := by
  rw [decodeTableWord, if_pos (Nat.le_refl 32)] at h
  split at h
  case h_1 j hj => cases h; exact hj
  case h_2 => cases h

theorem step_nil {s : State} (h : s.pending = []) : step s = .next s := by rw [step, h]

theorem step_cons {s : State} {a : HostAction} {rest : List HostAction} (h : s.pending = a :: rest) :
    step s = hostAction a { s with pending := rest } := by rw [step, h]

/-- Settles O4: a step is the oldest action, and the write of a word that decodes is its command. -/
theorem stepRunsTheDecodedCommand : Obligations.StepRunsTheDecodedCommand :=
  ⟨fun _ => step_nil, fun _ _ _ => step_cons,
    fun _ _ _ _ h hd => (step_cons h).trans (hostAction_of_decodeWord hd _),
    fun s _ _ h => (step_cons rfl).trans (hostAction_of_decodeWord (decodeWord_of_decodeTableWord h) s)⟩

end Sys2Proof.Machine

/-! PROOFS. The statements of 30_encoding.md: which words the decoder accepts and why it rejects the others, and what a
write of CMD does with each. -/

namespace Sys2Proof.Machine

/-! ### The two fields of the command word -/

/-- A command's word in its fields: RSV is 0 and OPC its opcode (30_encoding.md R80). -/
theorem eq_encode_iff {d : Word} {i : Instr} : d = encode i ↔ rsvField d = 0#24 ∧ opcField d = opcode i := by
  constructor
  · rintro rfl
    cases i <;> decide
  · rintro ⟨hr, ho⟩
    rw [eq_opcField_of_rsvField hr, ho, encode]

theorem toNat_opcField_of_rsvField {d : Word} (h : rsvField d = 0#24) : (opcField d).toNat = d.toNat := by
  conv_rhs => rw [eq_opcField_of_rsvField h]
  rw [BitVec.toNat_setWidth_of_le (by decide)]

/-! ### The opcode map -/

theorem ofOpcode_eq_some_iff {b : Byte} {i : Instr} : ofOpcode b = some i ↔ b = opcode i := by
  constructor
  · exact opcode_of_ofOpcode
  · rintro rfl
    cases i <;> rfl

theorem ofOpcode_eq_none_iff {b : Byte} : ofOpcode b = none ↔ ∀ i, b ≠ opcode i := by
  simp only [Option.eq_none_iff_forall_ne_some, ne_eq, ofOpcode_eq_some_iff]

/-- The thirteen commands, in the order of the opcode table (30_encoding.md R82). -/
def commands : List Instr :=
  [.nop, .srst, .srcclr, .snkclr, .ftcount, .tbbuild, .cgderive, .hfemit, .hfparse, .bppack, .buunpack, .encode, .decode]

theorem mem_commands (i : Instr) : i ∈ commands := by cases i <;> decide

/-- The values of the opcode map are those of R82's table. -/
theorem ofOpcode_eq_none_iff_toNat {b : Byte} : ofOpcode b = none ↔
    b.toNat ∉ [0x00, 0x01, 0x02, 0x03, 0x10, 0x20, 0x30, 0x40, 0x41, 0x50, 0x51, 0x60, 0x61] := by
  change _ ↔ b.toNat ∉ commands.map fun i => (opcode i).toNat
  rw [ofOpcode_eq_none_iff]
  simp only [List.mem_map, mem_commands, true_and, BitVec.toNat_inj, not_exists, ne_eq, eq_comm]

/-! ### The decoder -/

theorem decodeWord_eq_ok_iff {d : Word} {i : Instr} : decodeWord d = .ok i ↔ d = encode i := by
  constructor
  · exact eq_encode_of_decodeWord
  · intro h
    obtain ⟨hr, ho⟩ := eq_encode_iff.mp h
    rw [decodeWord, if_pos hr, ofOpcode_eq_some_iff.mpr ho]

theorem decodeWord_encode (i : Instr) : decodeWord (encode i) = .ok i := decodeWord_eq_ok_iff.mpr rfl

theorem decodeWord_eq_reservedBits_iff {d : Word} : decodeWord d = .error .reservedBits ↔ rsvField d ≠ 0#24 := by
  rw [decodeWord]
  split
  case isTrue hr => cases ofOpcode (opcField d) <;> simp [hr]
  case isFalse hr => simp [hr]

theorem decodeWord_eq_undefinedOpcode_iff {d : Word} :
    decodeWord d = .error .undefinedOpcode ↔ rsvField d = 0#24 ∧ ofOpcode (opcField d) = none := by
  rw [decodeWord]
  split
  case isTrue hr => cases ofOpcode (opcField d) <;> simp [hr]
  case isFalse hr => simp [hr]

/-- A word is rejected where RSV is not 0 or OPC is no opcode (30_encoding.md R83). -/
theorem decodeWord_rejects {d : Word} (h : rsvField d ≠ 0#24 ∨ ∀ i, opcField d ≠ opcode i) :
    ∃ e, decodeWord d = .error e := by
  by_cases hr : rsvField d = 0#24
  · have ho := ofOpcode_eq_none_iff.mpr (h.resolve_left (not_not_intro hr))
    exact ⟨_, decodeWord_eq_undefinedOpcode_iff.mpr ⟨hr, ho⟩⟩
  · exact ⟨_, decodeWord_eq_reservedBits_iff.mpr hr⟩

/-- Settles O2: the three outcomes of the decoder in its two fields, and the fields in the number the word is. -/
theorem decodeAcceptsExactlyTheEncodings : Obligations.DecodeAcceptsExactlyTheEncodings := by
  intro d
  refine ⟨fun i => decodeWord_eq_ok_iff, ?_, ?_⟩
  · rw [decodeWord_eq_reservedBits_iff, ne_eq, rsvField_eq_zero_iff]
  · rw [decodeWord_eq_undefinedOpcode_iff, ← rsvField_eq_zero_iff]
    refine and_congr_right fun hr => ?_
    rw [ofOpcode_eq_none_iff_toNat, toNat_opcField_of_rsvField hr]

/-- Settles O1: eight words are encodings; 0x04 is no opcode, and bit 8 of 0x160 is reserved. -/
theorem commandWordsDecode : Obligations.CommandWordsDecode :=
  ⟨decodeWord_encode .nop, decodeWord_encode .srst, decodeWord_encode .ftcount, decodeWord_encode .tbbuild,
    decodeWord_encode .cgderive, decodeWord_encode .hfparse, decodeWord_encode .buunpack, decodeWord_encode .encode,
    decodeWord_eq_undefinedOpcode_iff.mpr ⟨rfl, rfl⟩, decodeWord_eq_reservedBits_iff.mpr (by decide)⟩

/-! ### The write of CMD -/

theorem hostAction_write_cmd (d : Word) (s : State) : hostAction (.write Reg.cmd.index d) s = writeCommand d s := by
  rw [hostAction, if_pos (ofIndex_index .cmd)]

theorem writeCommand_faulted {s : State} (hs : s.opstate = .faulted) (d : Word) :
    writeCommand d s = if d = 0x00000001#32 then exec .srst s else .next s := by
  rw [writeCommand, hs]

theorem writeCommand_rejected {s : State} (hs : s.opstate = .idle) {d : Word} {e : DecodeReject}
    (hd : decodeWord d = .error e) : writeCommand d s = .next (enterFault .illegalCommand d s) := by
  rw [writeCommand, hs, hd]
  rfl

/-- Settles O3: FAULTED accepts the word of SRST alone; in IDLE a word the decoder rejects is IllegalCommand, and any
other is the encoding of the command that runs. -/
theorem commandWriteDispatch : Obligations.CommandWriteDispatch := by
  intro s d
  refine ⟨fun hs => ?faulted, fun hs hd => ?rejected, fun _ i hr ho => ?accepted⟩
  case faulted => rw [hostAction_write_cmd, writeCommand_faulted hs]
  case rejected =>
    obtain ⟨e, he⟩ := decodeWord_rejects hd
    rw [hostAction_write_cmd, writeCommand_rejected hs he]
  case accepted => exact hostAction_of_decodeWord (decodeWord_eq_ok_iff.mpr (eq_encode_iff.mpr ⟨hr, ho⟩)) s

end Sys2Proof.Machine

/-! PROOFS. The statements of 40_control_ops.md: the program form PUSH, and what NOP, SRCCLR and SNKCLR do. -/

namespace Sys2Proof.Machine

/-! ### PUSH -/

/-- Settles O12: with a byte to push, `runActions_push` (induction over the bytes) ends with the flags cleared. -/
theorem pushLoadsTheBytesInOrder : Obligations.PushLoadsTheBytesInOrder := by
  intro s bs hs hfit hne
  rw [runActions_push bs hs hfit, if_neg hne, clearValidity]

/-! ### The control commands -/

/-- NOP does nothing: its body is empty in IDLE, and in FAULTED it is refused (40_control_ops.md R110). -/
theorem exec_nop (s : State) : exec .nop s = .next s := by
  rw [exec, execNop]
  cases hs : s.opstate with
  | idle => rw [command_idle hs, nopBody, Flow.outcome_go]
  | faulted => rw [command_faulted hs]

/-- SRCCLR in IDLE (40_control_ops.md R112). -/
theorem exec_srcclr_idle {s : State} (hs : s.opstate = .idle) :
    exec .srcclr s = .next (clearValidity { s with src := [], srcPos := 0#32 }) := by
  rw [exec, execSrcclr, command_idle hs, srcclrBody, Flow.outcome_go]

/-- SNKCLR in IDLE (40_control_ops.md R113). -/
theorem exec_snkclr_idle {s : State} (hs : s.opstate = .idle) : exec .snkclr s = .next { s with snk := [] } := by
  rw [exec, execSnkclr, command_idle hs, snkclrBody, Flow.outcome_go]

/-- Settles O23: the words are the encodings of the three commands, and every address lies beyond an empty SNK. -/
theorem controlCommands : Obligations.ControlCommands :=
  ⟨decodeWord_encode .nop, decodeWord_encode .srcclr, decodeWord_encode .snkclr, fun s =>
    ⟨exec_nop s, exec_srcclr_idle, exec_snkclr_idle,
      snkDataWord_beyond (s := { s with snk := [] }) Memory.wf_nil (Nat.zero_le _)⟩⟩

end Sys2Proof.Machine

/-! PROOFS. The statements of 41_frequency_table.md: what FTCOUNT leaves, its counts without a wrap, a source of one
symbol, and the empty source. -/

namespace Sys2Proof.Machine

/-! ### The effect of FTCOUNT -/

/-- The state FTCOUNT leaves (41_frequency_table.md R130). -/
def afterFtcount (s : State) : State :=
  { s with
    freq := countBytes s.src.bytes, total := s.srcLen
    distinct := BitVec.ofNat 9 (presentCount (countBytes s.src.bytes)), srcPos := 0#32
    ftv := true, trv := false, cdv := false, hpv := false, empty := decide (s.src.length = 0) }

theorem ftcountBody_eq (s : State) : ftcountBody s = .go (afterFtcount s) := rfl

theorem exec_ftcount_idle {s : State} (hs : s.opstate = .idle) : exec .ftcount s = .next (afterFtcount s) := by
  rw [exec, execFtcount, command_idle hs, ftcountBody_eq, Flow.outcome_go]

/-- After FTCOUNT in IDLE, STATUS shows FTV, and beside it at most EMPTY and SINGLE (10_state.md R42). -/
theorem status_afterFtcount {s : State} (hs : s.opstate = .idle) : (afterFtcount s).status =
    bitAt 1 (decide (s.src.length = 0)) ||| bitAt 2 true ||| bitAt 6 (decide ((afterFtcount s).distinct = 1#9)) := by
  simp [State.status, State.err, State.single, afterFtcount, hs, bitAt]

/-- Settles O24: the table is `countBytes`, which counts each byte value (`freqAt_countBytes`). -/
theorem ftcountCountsTheSource : Obligations.FtcountCountsTheSource := by
  refine ⟨decodeWord_encode .ftcount, fun s hs => ⟨countBytes s.src.bytes, freqAt_countBytes _, ?_⟩⟩
  rw [exec_ftcount_idle hs, distinctOf_eq, afterFtcount]

/-! ### No count wraps -/

/-- A count of fewer than 2^32 bytes is exact (41_frequency_table.md R131). -/
theorem toNat_freqAt_countBytes {bs : List Byte} (h : bs.length < 2 ^ 32) (x : Byte) :
    (freqAt (countBytes bs) x).toNat = bs.count x := by
  rw [freqAt_countBytes, BitVec.toNat_ofNat, Nat.mod_eq_of_lt (List.count_le_length.trans_lt h)]

/-- Settles O25: the capacity bounds SRC_LEN below 2^32, so every count is exact, and exact counts add up to the number
of bytes (`sumSymbols_count`). -/
theorem ftcountNeverWraps : Obligations.FtcountNeverWraps := by
  intro s hinv hs
  have hcount : ∀ x, (freqAt (countBytes s.src.bytes) x).toNat = s.src.bytes.count x :=
    toNat_freqAt_countBytes (by simpa using hinv.srcLt)
  refine ⟨afterFtcount s, exec_ftcount_idle hs, hcount, hinv.srcLen_toNat, ?_⟩
  calc sumSymbols (fun x => (freqAt (countBytes s.src.bytes) x).toNat)
      = sumSymbols (fun x => s.src.bytes.count x) := by simp only [hcount]
    _ = s.src.length := by rw [sumSymbols_count, Memory.length_bytes]
    _ = s.srcLen.toNat := hinv.srcLen_toNat.symm

/-! ### One symbol -/

theorem presentSymbols_countBytes_replicate {n : Nat} (h1 : 1 ≤ n) (hn : n < 2 ^ 32) (v : Byte) :
    presentSymbols (countBytes (List.replicate n v)) = [v] := by
  rw [← List.perm_singleton, List.perm_ext_iff_of_nodup (presentSymbols_nodup _) (List.nodup_singleton v)]
  intro x
  rw [mem_presentSymbols, present_countBytes (by simpa using hn), List.mem_replicate, List.mem_singleton]
  exact and_iff_right (by omega)

/-- Settles O26: `v` is the only present symbol, so DISTINCT is 1 and STATUS shows FTV and SINGLE. -/
theorem ftcountOfOneSymbol : Obligations.FtcountOfOneSymbol := by
  intro s v n hs hsrc h1 hn
  have hdistinct : (afterFtcount s).distinct = 1#9 := by
    rw [afterFtcount, hsrc, presentCount, presentSymbols_countBytes_replicate h1 hn, List.length_singleton]
  have hne : s.src.length ≠ 0 := by
    rw [← Memory.length_bytes, hsrc, List.length_replicate]
    omega
  refine ⟨afterFtcount s, exec_ftcount_idle hs, ?_, hdistinct, ?_⟩
  · rw [afterFtcount, freqAt_countBytes, hsrc, List.count_replicate_self]
  · rw [readReg, status_afterFtcount hs, decide_eq_false hne, decide_eq_true hdistinct]
    decide

/-! ### The empty source -/

theorem afterFtcount_of_src_nil {s : State} (h : s.src = []) : afterFtcount s = { s with
    freq := Vector.replicate 256 0#32, total := 0#32, distinct := 0#9, srcPos := 0#32
    ftv := true, trv := false, cdv := false, hpv := false, empty := true } := by
  have hcount : countBytes s.src.bytes = Vector.replicate 256 0#32 := by
    rw [h, Memory.bytes_nil, countBytes, List.foldl_nil]
  have hlen : s.src.length = 0 := by rw [h, List.length_nil]
  rw [afterFtcount, hcount, presentCount, presentSymbols_zero, List.length_nil, srcLen_eq_zero hlen,
    decide_eq_true hlen]

/-- TBBUILD on the empty table (42_tree_builder.md R148). -/
theorem tbbuildBody_empty {s : State} (hf : s.ftv = true) (hd : s.distinct = 0#9) :
    tbbuildBody s = raiseFault .undefinedEmptyBuild 0#32 s := by
  rw [tbbuildBody, if_neg (by simp [hf]), if_pos hd]

/-- HFEMIT on the empty table writes no header (45_header_framer.md R192). -/
theorem hfemitBody_empty {s : State} (hf : s.ftv = true) (hd : s.distinct = 0#9) :
    hfemitBody s = .go { s with snk := [] } := by
  rw [hfemitBody, if_neg (by simp [hf])]
  exact if_pos hd

/-- ENCODE on an empty SRC ends after FTCOUNT with SNK emptied (46_codec_sequences.md R210). -/
theorem encodeBody_of_src_nil {s : State} (h : s.src = []) :
    encodeBody s = .go { afterFtcount s with snk := [] } := by
  rw [encodeBody, ftcountBody_eq, Flow.bind_go]
  exact if_pos (by rw [afterFtcount, h, List.length_nil])

/-- Settles O27: each command by what its body does on the empty table that FTCOUNT leaves. -/
theorem emptySourceEncodes : Obligations.EmptySourceEncodes := by
  intro s hs hsrc
  have hdistinct : (afterFtcount s).distinct = 0#9 := by rw [afterFtcount_of_src_nil hsrc]
  refine ⟨afterFtcount s, exec_ftcount_idle hs, afterFtcount_of_src_nil hsrc, ?status, ?tbbuild, ?hfemit, ?encode⟩
  case status =>
    rw [readReg, status_afterFtcount hs, hsrc, hdistinct]
    decide
  case tbbuild =>
    rw [exec, execTbbuild, command_idle (s := afterFtcount s) hs, tbbuildBody_empty rfl hdistinct, raiseFault_outcome]
  case hfemit =>
    rw [exec, execHfemit, command_idle (s := afterFtcount s) hs, hfemitBody_empty rfl hdistinct, Flow.outcome_go]
  case encode => rw [exec, execEncode, command_idle hs, encodeBody_of_src_nil hsrc, Flow.outcome_go]

end Sys2Proof.Machine

/-! PROOFS. The statements of 42_tree_builder.md: the queue order and Pop, the faults and the effect of TBBUILD, the
shape of its tree, and the tree of two symbols. -/

namespace Sys2Proof.Machine

/-! ### The queue -/

/-- Settles O28, by the laws of `before`. -/
theorem queueOrderIsLexicographic : Obligations.QueueOrderIsLexicographic := fun b m n _ =>
  ⟨rfl, b.before_iff m n, b.before_lex m n, b.before_irrefl m, Build.before_trans, b.before_total⟩

/-- Settles O29: a queue with an entry pops, and what it pops is the least entry. -/
theorem popTakesTheLeastEntry : Obligations.PopTakesTheLeastEntry := by
  rintro b ⟨i, hi⟩
  simp only [← Build.mem_queue] at hi ⊢
  obtain ⟨n, hn⟩ := Build.exists_pop (List.ne_nil_of_mem hi)
  obtain ⟨hmem, hleast, -⟩ := Build.pop_spec hn
  exact ⟨n, hmem, hleast, hn⟩

/-! ### The effect of TBBUILD -/

theorem exec_tbbuild_idle {s : State} (hs : s.opstate = .idle) : exec .tbbuild s = (tbbuildBody s).outcome :=
  command_idle hs

/-- TBBUILD without a table (42_tree_builder.md R145). -/
theorem tbbuildBody_noTable {s : State} (hf : s.ftv = false) :
    tbbuildBody s = raiseFault .sequenceError 0x20#32 s := by
  rw [tbbuildBody, if_pos hf]

/-- The tree has one merge fewer than the table has symbols (42_tree_builder.md R146). -/
theorem Built.merges_eq {freq : Vector Word 256} {l r : Vector NodeId 255} {root : NodeId} {k : Nat}
    (h : Built freq l r root k) {d : BitVec 9} (hd : d.toNat = presentCount freq) :
    k = d.toNat - 1 ∧ BitVec.ofNat 9 k = d - 1#9 := by
  have hcount := h.count
  exact ⟨by omega, by bv_omega⟩

/-- Settles O30: the two faults, else the tables of the merge loop, which `Build.Good` (kept by every pass) makes those
of the rule. -/
theorem tbbuildBuildsTheTree : Obligations.TbbuildBuildsTheTree := by
  refine ⟨decodeWord_encode .tbbuild, fun s hs => ⟨fun hf => ?noTable, fun hf hd => ?empty, fun hf hd hcount => ?built⟩⟩
  case noTable => rw [exec_tbbuild_idle hs, tbbuildBody_noTable hf, raiseFault_outcome]
  case empty => rw [exec_tbbuild_idle hs, tbbuildBody_empty hf hd, raiseFault_outcome]
  case built =>
    rw [distinctOf_eq] at hcount
    obtain ⟨root, hgo, hbuilt, hlaw, hqueued⟩ := tbbuildBody_built hf hd (hcount ▸ distinct_pos hd)
    obtain ⟨hk, hnint⟩ := hbuilt.merges_eq hcount
    rw [hk] at hlaw hqueued
    refine ⟨_, _, _, _, root, hlaw, hqueued, ?_⟩
    rw [exec_tbbuild_idle hs, hgo, Flow.outcome_go, afterBuild, hnint]

/-! ### The tree is a function of FREQ -/

/-- Where TBBUILD completes, it leaves FREQ and the tree of FREQ. -/
theorem treeCurrent_of_tbbuild {s t : State} (hs : s.opstate = .idle) (h : exec .tbbuild s = .next t)
    (ht : t.opstate = .idle) : t.freq = s.freq ∧ treeCurrent t = true := by
  rw [exec_tbbuild_idle hs, tbbuildBody] at h
  split at h
  case isTrue => cases h; cases ht
  case isFalse =>
    split at h
    case isTrue => cases h; cases ht
    case isFalse =>
      split at h
      case h_1 => cases h
      case h_2 root b hpop =>
        cases h
        exact ⟨rfl, by simp [treeCurrent, hpop]⟩

/-- There is one tree of a FREQ (42_tree_builder.md R147). -/
theorem tree_eq_of_treeCurrent {s t : State} (hfreq : s.freq = t.freq) (hs : treeCurrent s = true)
    (ht : treeCurrent t = true) : s.nodeW = t.nodeW ∧ s.nodeT = t.nodeT ∧ s.nodeL = t.nodeL ∧ s.nodeR = t.nodeR ∧
      s.root = t.root ∧ s.nint = t.nint := by
  rw [treeCurrent] at hs ht
  rw [← hfreq] at ht
  cases hpop : (merged s.freq).pop with
  | none => simp [hpop] at hs
  | some p =>
    rw [hpop] at hs ht
    obtain ⟨w, n, l, r, root, k⟩ := of_decide_eq_true hs
    obtain ⟨w', n', l', r', root', k'⟩ := of_decide_eq_true ht
    exact ⟨w.trans w'.symm, n.trans n'.symm, l.trans l'.symm, r.trans r'.symm, root.trans root'.symm, k.trans k'.symm⟩

/-- Settles O32: both next states hold the tree of the one FREQ. -/
theorem treeIsAFunctionOfFreq : Obligations.TreeIsAFunctionOfFreq := by
  intro s s' t t' hs hs' hfreq h h' ht ht'
  obtain ⟨hf, htree⟩ := treeCurrent_of_tbbuild hs h ht
  obtain ⟨hf', htree'⟩ := treeCurrent_of_tbbuild hs' h' ht'
  exact tree_eq_of_treeCurrent (by rw [hf, hf', hfreq]) htree htree'

/-! ### The shape of the tree -/

/-- A child is the left or the right one, the side that a bit of a path names. -/
theorem isChild_iff {l r : Vector NodeId 255} {n m : NodeId} :
    isChild l r n.toNat m.toNat ↔ ∃ d : Bool, (if d then childAt r m else childAt l m) = n := by
  simp [isChild, BitVec.toNat_inj]

namespace Built

variable {freq : Vector Word 256} {l r : Vector NodeId 255} {root : NodeId} {k : Nat}

/-- The two children of an internal node in use are different (42_tree_builder.md R146). -/
theorem children_ne (h : Built freq l r root k) {m : NodeId} (hm : 256 ≤ m.toNat ∧ m.toNat < 256 + k) :
    childAt l m ≠ childAt r m := fun e =>
  Bool.false_ne_true (h.child_inj (b := false) (c := true) hm hm (by simpa using e)).2

theorem queued_iff_root (h : Built freq l r root k) {n : NodeId} : queued freq l r k n.toNat ↔ n = root := by
  have hk := h.k_lt
  rw [h.l_eq, h.r_eq, Build.queued_iff _ (by omega), h.rootEntry, BitVec.toNat_inj]

/-- A node in use other than ROOT has one parent: it is not in the queue any more, so a merge took it out, and no second
one did (42_tree_builder.md R146). -/
theorem exists_parent (h : Built freq l r root k) {n : NodeId} (hn : inUse freq k n.toNat) (hne : n ≠ root) :
    ∃ m : NodeId, ∀ m' : NodeId,
      (256 ≤ m'.toNat ∧ m'.toNat < 256 + k ∧ isChild l r n.toNat m'.toNat) ↔ m' = m := by
  have hk := h.k_lt
  have hparent : ∃ i, 256 ≤ i ∧ i < 256 + k ∧ isChild l r n.toNat i := by
    by_contra hno
    push Not at hno
    exact hne (h.queued_iff_root.mp ⟨hn, hno⟩)
  obtain ⟨i, hlo, hhi, hchild⟩ := hparent
  obtain ⟨m, rfl⟩ : ∃ m : NodeId, m.toNat = i := ⟨BitVec.ofNat 9 i, by simp; omega⟩
  refine ⟨m, fun m' => ⟨?_, fun e => e ▸ ⟨hlo, hhi, hchild⟩⟩⟩
  rintro ⟨hlo', hhi', hchild'⟩
  obtain ⟨d, hd⟩ := isChild_iff.mp hchild
  obtain ⟨d', hd'⟩ := isChild_iff.mp hchild'
  exact (h.child_inj ⟨hlo', hhi'⟩ ⟨hlo, hhi⟩ (hd'.trans hd.symm)).1

/-- The one entry left after the merges is ROOT. -/
theorem queue_eq (h : Built freq l r root k) : (merged freq).queue = [root.toNat] := by
  rw [← List.perm_singleton, List.perm_ext_iff_of_nodup (Build.queue_nodup _) (List.nodup_singleton _)]
  intro n
  rw [h.good.mem, ← h.k_eq, h.rootEntry, List.mem_singleton]

/-- The weight of ROOT is the sum of the counts: no pass changes the sum over the entries (42_tree_builder.md R146). -/
theorem root_weight (h : Built freq l r root k) :
    (nodeAt (merged freq).w root).toNat = sumSymbols fun x => (freqAt freq x).toNat := by
  have hsum := h.good.sumW
  rw [Build.sumW, h.queue_eq, List.map_singleton, List.sum_singleton] at hsum
  rw [Build.nodeAt_w, hsum, freqSum, sumSymbols_present]
  intro x hx
  simpa [present, ← BitVec.toNat_inj] using hx

/-- The tie-break sum of ROOT is the sum of the present symbol values (42_tree_builder.md R146). -/
theorem root_tie (h : Built freq l r root k) :
    (nodeAt (merged freq).t root).toNat = sumSymbols fun x => if present freq x then x.toNat else 0 := by
  have hsum := h.good.sumT
  rw [Build.sumT, h.queue_eq, List.map_singleton, List.sum_singleton] at hsum
  rw [Build.nodeAt_t, hsum, symbolSum, sumSymbols_present (t := freq) fun x hx => by simp [hx]]
  exact congrArg List.sum (List.map_congr_left fun x hx => by rw [if_pos (mem_presentSymbols.mp hx)])

end Built

/-- Settles O31, clause by clause from the tree that the merges build. -/
theorem treeShape : Obligations.TreeShape := by
  intro s hinv hs hf hd
  have hcount := hinv.distinct hf
  obtain ⟨root, hgo, hmerged, -⟩ := tbbuildBody_built hf hd (hcount ▸ distinct_pos hd)
  have hbuilt := nint_afterBuild hmerged
  have hnint := hbuilt.count.trans hcount.symm
  refine ⟨afterBuild root s, ?exec, hnint, fun h2 => ?root, fun m hlo hhi => ?children, fun n hn hne => ?parent,
    hmerged.root_weight, hmerged.root_tie⟩
  case exec => rw [exec_tbbuild_idle hs, hgo, Flow.outcome_go]
  case root =>
    have hroot := hbuilt.root_internal (by omega)
    omega
  case children =>
    obtain ⟨useL, ltL⟩ := hbuilt.child hlo hhi false
    obtain ⟨useR, ltR⟩ := hbuilt.child hlo hhi true
    exact ⟨hbuilt.children_ne ⟨hlo, hhi⟩, ltL, ltR, useL, useR⟩
  case parent => exact hbuilt.exists_parent hn hne

/-! ### Two symbols -/

/-- Before the first merge the queue holds the leaves of the present symbols. -/
theorem queued_zero_iff {freq : Vector Word 256} {l r : Vector NodeId 255} {n : NodeId} :
    queued freq l r 0 n.toNat ↔ ∃ x : Byte, n = x.setWidth 9 ∧ present freq x = true := by
  have hmerge : ¬ ∃ m, 256 ≤ m ∧ m < 256 + 0 := by rintro ⟨m, hlo, hhi⟩; omega
  constructor
  · rintro ⟨⟨hlt, hp⟩ | hint, -⟩
    · exact ⟨BitVec.ofNat 8 n.toNat, by bv_omega, hp⟩
    · exact absurd ⟨_, hint⟩ hmerge
  · rintro ⟨x, rfl, hp⟩
    have hx : (x.setWidth 9).toNat = x.toNat := BitVec.toNat_setWidth_of_le (by decide)
    refine ⟨Or.inl ⟨hx ▸ x.isLt, by simpa [hx] using hp⟩, fun m hlo hhi => absurd ⟨m, hlo, hhi⟩ hmerge⟩

theorem nodeBefore_asymm {w : Vector Weight 511} {t : Vector TieSum 511} {m n : NodeId} (h : nodeBefore w t m n) :
    ¬ nodeBefore w t n m := by
  unfold nodeBefore at h ⊢
  omega

namespace TreeLaw

variable {freq : Vector Word 256} {k : Nat} {w : Vector Weight 511} {t : Vector TieSum 511} {l r : Vector NodeId 255}

theorem leaf_weight (h : TreeLaw freq k w t l r) (x : Byte) :
    (nodeAt w (x.setWidth 9)).toNat = (freqAt freq x).toNat := by
  rw [h.leafWeight, BitVec.toNat_setWidth_of_le (by decide)]

theorem leaf_tie (h : TreeLaw freq k w t l r) {x : Byte} (hx : present freq x = true) :
    (nodeAt t (x.setWidth 9)).toNat = x.toNat := by
  rw [h.leafTie, if_pos hx, BitVec.toNat_setWidth_of_le (by decide)]

/-- The order of two leaves: the lower count, or the lower symbol on equal counts (42_tree_builder.md R143). -/
theorem leaf_before (h : TreeLaw freq k w t l r) {a b : Byte} (ha : present freq a = true) (hb : present freq b = true)
    (hab : (freqAt freq a).toNat < (freqAt freq b).toNat ∨
      ((freqAt freq a).toNat = (freqAt freq b).toNat ∧ a.toNat < b.toNat)) :
    nodeBefore w t (a.setWidth 9) (b.setWidth 9) := by
  have hlt := a.isLt
  simp only [nodeBefore, h.leaf_weight, h.leaf_tie ha, h.leaf_tie hb]
  omega

/-- With two present symbols the first merge makes the earlier one the right child and the later one the left child
(42_tree_builder.md R150). -/
theorem two_children (h : TreeLaw freq k w t l r) (hk : 0 < k) {a b : Byte}
    (hp : ∀ z, present freq z = true ↔ z = a ∨ z = b) (hab : nodeBefore w t (a.setWidth 9) (b.setWidth 9)) :
    childAt r 256#9 = a.setWidth 9 ∧ childAt l 256#9 = b.setWidth 9 := by
  have hqueued : ∀ n : NodeId, queued freq l r 0 n.toNat ↔ n = a.setWidth 9 ∨ n = b.setWidth 9 := fun n => by
    simp [queued_zero_iff, hp, and_or_left, exists_or]
  obtain ⟨hr, hl, hne, hleast, -⟩ := h.pass 0 hk
  rw [Nat.add_zero, hqueued] at hr hl
  rw [Nat.add_zero] at hne hleast
  rcases hr with hr | hr
  · exact ⟨hr, hl.resolve_left fun e => hne (hr.trans e.symm)⟩
  · have hl' := hl.resolve_right fun e => hne (hr.trans e.symm)
    have hba := hleast (a.setWidth 9) ((hqueued _).mpr (Or.inl rfl)) fun e => hne (e.symm.trans hl'.symm)
    rw [hr] at hba
    exact absurd hba (nodeBefore_asymm hab)

end TreeLaw

/-- CGDERIVE with a tree whose codes are `c` (43_code_table.md R162). -/
theorem exec_cgderive_of_codes {s : State} (hs : s.opstate = .idle) (ht : s.trv = true) {c : Codes}
    (hc : deriveCodes s.nodeL s.nodeR s.root = some c) :
    exec .cgderive s = .next { s with codeLen := c.len, codeBits := c.bits, cdv := true } := by
  rw [exec, execCgderive, command_idle hs, cgderiveBody, if_neg (by simp [ht]), hc, Flow.outcome_go]

/-- A built tree has codes, and the code of a leaf that is a child of ROOT is the one bit of its side
(43_code_table.md R160 to R162). -/
theorem Built.codeOf_rootChild {freq : Vector Word 256} {l r : Vector NodeId 255} {root : NodeId} {k : Nat}
    (h : Built freq l r root k) (hroot : 256 ≤ root.toNat) : ∃ c, deriveCodes l r root = some c ∧
      ∀ (d : Bool) (x : Byte), present freq x = true →
        (if d then childAt r root else childAt l root) = x.setWidth 9 → codeOf c.len c.bits x = [d] := by
  obtain ⟨c, hc, hcodes, -⟩ := h.codes
  refine ⟨c, hc, fun d x hx hchild => ?_⟩
  obtain ⟨p, honly, hlen, hl, hb⟩ := hcodes x hx
  have hk := h.k_lt
  rw [codeOf_recorded (by omega) hl hb]
  exact ((honly [d]).mp (isPath_cons.mpr ⟨hroot, isPath_nil.mpr hchild⟩)).symm

theorem presentCount_eq_two {freq : Vector Word 256} {x y : Byte} (hne : x ≠ y)
    (hp : ∀ z, present freq z = true ↔ z = x ∨ z = y) : presentCount freq = 2 := by
  have hperm : (presentSymbols freq).Perm [x, y] := by
    rw [List.perm_ext_iff_of_nodup (presentSymbols_nodup freq) (by simpa using hne)]
    intro z
    rw [mem_presentSymbols, hp]
    simp
  exact hperm.length_eq

/-- Settles O33: the one merge takes the two leaves in their order, and their paths are the codes. -/
theorem twoSymbolTree : Obligations.TwoSymbolTree := by
  intro s x y hs hf hd hxy hp
  have hcount : presentCount s.freq = 2 := presentCount_eq_two (by rintro rfl; omega) hp
  obtain ⟨root, hgo, hbuilt, hlaw, -⟩ := tbbuildBody_built hf (by rw [hd]; decide) (by omega)
  have hk : (merged s.freq).k = 1 := by
    have := hbuilt.count
    omega
  obtain rfl : root = 256#9 := BitVec.eq_of_toNat_eq (by rw [hbuilt.root_internal (by omega), hk]; rfl)
  obtain ⟨c, hc, hcode⟩ := hbuilt.codeOf_rootChild (by decide)
  have hx : present s.freq x = true := (hp x).mpr (Or.inl rfl)
  have hy : present s.freq y = true := (hp y).mpr (Or.inr rfl)
  refine ⟨afterBuild 256#9 s, _, ?tbbuild, exec_cgderive_of_codes (s := afterBuild 256#9 s) hs rfl hc, rfl, ?nint,
    fun hle => ?xFirst, fun hlt => ?yFirst⟩
  case tbbuild => rw [exec_tbbuild_idle hs, hgo, Flow.outcome_go]
  case nint => rw [afterBuild, hk]
  case xFirst =>
    obtain ⟨hr, hl⟩ := hlaw.two_children (by omega) hp (hlaw.leaf_before hx hy (by omega))
    exact ⟨hr, hl, hcode false y hy hl, hcode true x hx hr⟩
  case yFirst =>
    obtain ⟨hr, hl⟩ := hlaw.two_children (by omega) (fun z => (hp z).trans or_comm)
      (hlaw.leaf_before hy hx (by omega))
    exact ⟨hr, hl, hcode false x hx hl, hcode true y hy hr⟩

end Sys2Proof.Machine

/-! PROOFS. The statements of 43_code_table.md: the paths CGDERIVE records, codes that are no prefix of one another, the
lengths of codes, and the tree of one leaf. -/

namespace Sys2Proof.Machine

/-! ### The paths that CGDERIVE records -/

/-- CGDERIVE without a tree (43_code_table.md R162). -/
theorem exec_cgderive_noTree {s : State} (hs : s.opstate = .idle) (ht : s.trv = false) :
    exec .cgderive s = .next (enterFault .sequenceError 0x30#32 s) := by
  rw [exec, execCgderive, command_idle hs, cgderiveBody, if_pos ht, raiseFault_outcome]

/-- Settles O34: in the tree of the invariant every present leaf has one path, short enough for its length to stand in
8 bits, and the walk records it (`Built.codes`). -/
theorem cgderiveRecordsThePaths : Obligations.CgderiveRecordsThePaths := by
  refine ⟨decodeWord_encode .cgderive, fun s hinv hs => ⟨exec_cgderive_noTree hs, fun ht => ?_⟩⟩
  have hbuilt := hinv.built ht
  have hk := hbuilt.k_lt
  obtain ⟨c, hc, hpresent, habsent⟩ := hbuilt.codes
  refine ⟨c.len, c.bits, exec_cgderive_of_codes hs ht hc, fun x hx => ?_, habsent⟩
  obtain ⟨p, honly, hle, hlen, hbits⟩ := hpresent x hx
  refine ⟨p, honly, ?length, fun i hi => ?bits⟩
  case length => rw [hlen, BitVec.toNat_ofNat, Nat.mod_eq_of_lt (by omega)]
  case bits => rw [hbits, placeBits_getLsbD (by omega) hi]

/-! ### No code is a prefix of another -/

/-- With CDV the code of a present symbol leads from ROOT to its leaf (43_code_table.md R161). -/
theorem Inv.isPath_code {s : State} (h : Inv s) (hc : s.cdv = true) {x : Byte} (hx : present s.freq x = true) :
    isPath s.nodeL s.nodeR s.root (codeOf s.codeLen s.codeBits x) x :=
  ((h.code_path hc hx).1 _).mpr rfl

/-- Settles O35: codes are paths, and a path that begins another ends at the same leaf (`isPath_prefix`). -/
theorem codesArePrefixFree : Obligations.CodesArePrefixFree := by
  intro s hinv hc x y hx hy hne
  have hprefix : ¬ codeOf s.codeLen s.codeBits x <+: codeOf s.codeLen s.codeBits y := fun h =>
    hne (isPath_prefix (hinv.isPath_code hc hx) (hinv.isPath_code hc hy) h).2
  exact ⟨hprefix, fun e => hprefix (e ▸ List.prefix_refl _)⟩

/-! ### The lengths of the codes -/

/-- The exact counts of a sequence add up to its length (10_state.md R22). -/
theorem sumSymbols_countBytes {bs : List Byte} (h : bs.length < 2 ^ 32) :
    sumSymbols (fun x => (freqAt (countBytes bs) x).toNat) = bs.length := by
  simp only [toNat_freqAt_countBytes h, sumSymbols_count]

/-- A sum of products whose second factors are at most `m`. -/
theorem sumSymbols_mul_le {f g : Byte → Nat} {m : Nat} (hg : ∀ x, g x ≤ m) :
    sumSymbols (fun x => f x * g x) ≤ sumSymbols f * m := by
  rw [sumSymbols_eq, sumSymbols_eq, ← List.sum_map_mul_right]
  exact List.sum_le_sum fun x _ => Nat.mul_le_mul_left _ (hg x)

/-- Settles O36: with two symbols or more ROOT is internal, so a path has at least one bit, and it has at most one for
each of the `DISTINCT - 1` merges; counted bytes are fewer than 2^32, and each has at most 255 code bits. -/
theorem codeLengths : Obligations.CodeLengths := by
  intro s hinv hc h2
  have ht := hinv.cdvTrv hc
  have hnint := hinv.nint ht
  refine ⟨fun x hx => ?bounds, fun hp => ?total⟩
  case bounds =>
    obtain ⟨-, hlen, hle⟩ := hinv.code_path hc hx
    have hpos := List.length_pos_of_ne_nil ((hinv.built ht).path_ne_nil (by omega) (hinv.isPath_code hc hx))
    omega
  case total =>
    obtain ⟨hfreq, -⟩ := hinv.counted (hinv.trvFtv ht) hp
    have hsrc := hinv.srcLt
    have hlen (x : Byte) : (s.codeLen[x.toNat]'(x.isLt)).toNat ≤ 255 := Nat.le_of_lt_succ (BitVec.isLt _)
    calc sumSymbols (fun x => (freqAt s.freq x).toNat * (s.codeLen[x.toNat]'(x.isLt)).toNat)
        ≤ sumSymbols (fun x => (freqAt s.freq x).toNat) * 255 := sumSymbols_mul_le hlen
      _ = s.src.length * 255 := by
        rw [hfreq, sumSymbols_countBytes (by rwa [Memory.length_bytes]), Memory.length_bytes]
      _ < 2 ^ 32 * 255 := by omega

/-! ### A tree of one leaf -/

/-- Before the walk every code is empty, so recording the empty path changes nothing. -/
theorem Codes.record_zero_nil (n : NodeId) : Codes.zero.record n [] = Codes.zero := by
  have hbits : placeBits [] = 0#256 := by decide
  simp [Codes.record, Codes.zero, hbits]

/-- The walk of a tree that is one leaf records the empty path (43_code_table.md R164). -/
theorem deriveCodes_leaf {l r : Vector NodeId 255} {root : NodeId} (h : root.toNat < 256) :
    deriveCodes l r root = some Codes.zero := by
  rw [deriveCodes, walk, if_pos h, Codes.record_zero_nil]

theorem codeOf_zero (x : Byte) : codeOf Codes.zero.len Codes.zero.bits x = [] := by
  simp [codeOf, Codes.zero]

/-- Settles O37: all codes are those that the walk begins with; HAS is read off CDV and FREQ. -/
theorem singleLeafCode : Obligations.SingleLeafCode := by
  intro s hs ht hroot
  refine ⟨_, exec_cgderive_of_codes hs ht (deriveCodes_leaf hroot), rfl, fun x => ⟨codeOf_zero x, ?has⟩⟩
  case has =>
    rw [readReg, codeLenWord_has, State.selSymbol, BitVec.setWidth_setWidth_of_le _ (by decide), BitVec.setWidth_eq]
    exact and_iff_right rfl

end Sys2Proof.Machine

/-! PROOFS. The statements of 44_bit_io.md: what a push and a flush pack, BPPACK and its faults, BUUNPACK with no
symbol, with one and with a tree, the faults of the walk, and BadTraversal, which no command raises. -/

namespace Sys2Proof.Machine

/-! ### The bit packer -/

/-- Byte `j` of `pack(q)` is there and holds eight bits of `q` (44_bit_io.md R173). -/
theorem pack_getElem? {q : List Bool} {j : Nat} (hj : j < (q.length + 7) / 8) :
    (pack q)[j]? = some (packedByte q j) := by
  rw [pack, List.getElem?_map, List.getElem?_range hj, Option.map_some]

/-- An empty packer holds no bit. -/
theorem holds_nil {s : State} (hn : s.bpN = 0#3) (ha : s.bpAcc = 0#8) : Holds [] s :=
  ⟨hn, by rw [ha, packedByte_nil], by decide⟩

/-- Settles O38: the bits of `pack` are those of `packedByte`, and a push of `q` and a flush append `pack q`
(`pushBits_flush`, by induction over the bits), which leaves the packer empty as it was. -/
theorem pushAndFlushPack : Obligations.PushAndFlushPack := by
  refine ⟨by decide, by decide, by decide, by decide, by decide, fun q j i hi => ⟨length_pack q, fun hj => ?bits⟩,
    fun q s hn ha hfit => ?push⟩
  case bits => exact ⟨_, pack_getElem? hj, packedByte_getLsbD q j hi⟩
  case push =>
    rw [pushBits_flush (holds_nil hn ha) q hfit, List.nil_append, ← hn, ← ha]

/-! ### BPPACK -/

theorem exec_bppack_idle {s : State} (hs : s.opstate = .idle) : exec .bppack s = (bppackBody s).outcome :=
  command_idle hs

/-- Settles O39: BPPACK is a push of the codes from an empty packer and a flush. -/
theorem bppackAppendsThePackedCodes : Obligations.BppackAppendsThePackedCodes := by
  intro s hs hc hall hfit
  rw [exec_bppack_idle hs, bppackBody_all hc hall,
    pushBits_flush (holds_empty s) (codeString s.codeLen s.codeBits s.src.bytes) hfit, Flow.outcome_go, List.nil_append]

/-- At a byte without a code the loop of BPPACK ends with NoCode (44_bit_io.md R177). -/
theorem packFrom_noCode {i : Nat} {b : Byte} {cs : List Byte} {s : State} (hb : present s.freq b = false) :
    packFrom i (b :: cs) s = raiseFault .noCode (BitVec.ofNat 32 i) s := by
  rw [packFrom, if_neg (by simp [hb])]

/-- The codes before the first byte without one fit, so the loop reaches that byte (44_bit_io.md R177). -/
theorem bppackBody_noCode {s : State} {bs cs : List Byte} {b : Byte} (hc : s.cdv = true)
    (hs : s.src.bytes = bs ++ b :: cs) (h : ∀ x ∈ bs, present s.freq x = true) (hb : present s.freq b = false)
    (hfit : s.snk.length + (codeString s.codeLen s.codeBits bs).length / 8 ≤ s.cfg.snkCap.toNat) :
    bppackBody s = .raised (enterFault .noCode (BitVec.ofNat 32 bs.length) s) := by
  rw [bppackBody_codes hc hs h, pushBits_fits (holds_empty s) (codeString s.codeLen s.codeBits bs) hfit, Flow.bind_go,
    packFrom_noCode (by exact hb)]
  rfl

/-- The whole bytes of the codes before a byte of SRC do not fit, so the loop does not reach that byte
(60_exceptions.md R225). -/
theorem bppackBody_overflow {s : State} {bs cs : List Byte} (hc : s.cdv = true) (hs : s.src.bytes = bs ++ cs)
    (h : ∀ x ∈ bs, present s.freq x = true) (hle : s.snk.length ≤ s.cfg.snkCap.toNat)
    (hover : s.cfg.snkCap.toNat < s.snk.length + (codeString s.codeLen s.codeBits bs).length / 8) :
    bppackBody s = .raised (enterFault .snkOverflow s.cfg.snkCap s) := by
  rw [bppackBody_codes hc hs h, pushBits_overflow (holds_empty s) (codeString s.codeLen s.codeBits bs) hle hover]
  rfl

/-- Settles O40: SRC is the bytes before `i` and those from `i` on, and the push of the codes before `i` fits or
overflows; where every byte has a code, the flush may overflow too. -/
theorem bppackFaults : Obligations.BppackFaults := by
  intro s hs hc hle
  simp only [exec_bppack_idle hs]
  refine ⟨fun i b hi hb hbefore hfit => ?noCode, fun i hbefore hover => ?overflow, fun hall hover => ?padded⟩
  case noCode =>
    obtain ⟨hlt, rfl⟩ := List.getElem?_eq_some_iff.mp hi
    have hsplit : s.src.bytes = s.src.bytes.take i ++ s.src.bytes[i] :: s.src.bytes.drop (i + 1) := by simp
    rw [bppackBody_noCode hc hsplit hbefore hb hfit, Flow.outcome_raised, List.length_take_of_le hlt.le]
  case overflow =>
    rw [bppackBody_overflow hc (List.take_append_drop i _).symm hbefore hle hover, Flow.outcome_raised]
  case padded =>
    rw [bppackBody_all hc hall, pushBits_flush_overflow (holds_empty s)
      (codeString s.codeLen s.codeBits s.src.bytes) hle hover, Flow.outcome_raised]
    rfl

/-! ### BUUNPACK without a tree -/

theorem exec_buunpack_idle {s : State} (hs : s.opstate = .idle) : exec .buunpack s = (buunpackBody s).outcome :=
  command_idle hs

/-- BUUNPACK of a table with no symbol (44_bit_io.md R179). -/
theorem buunpackBody_empty {s : State} (hp : s.hpv = true) (hd : s.distinct = 0#9) :
    buunpackBody s = .go { s with snk := [], srcPos := headerEnd s } := by
  rw [buunpackBody, if_neg (by simp [hp]), if_neg (by simp [hd])]
  exact if_pos hd

/-- BUUNPACK of a table with the one symbol `v` (44_bit_io.md R179). -/
theorem buunpackBody_single {s : State} {v : Byte} (hp : s.hpv = true) (hd : s.distinct = 1#9)
    (hv : presentSymbols s.freq = [v]) :
    buunpackBody s = appendRun s.total.toNat v { s with snk := [], srcPos := headerEnd s } := by
  rw [buunpackBody, if_neg (by simp [hp]), if_neg (by simp [hd])]
  dsimp only
  rw [if_neg (by simp [hd]), if_pos hd, hv]
  rfl

/-- With DISTINCT 1 there is one present symbol (10_state.md R23). -/
theorem Inv.exists_presentSymbols_eq {s : State} (h : Inv s) (hf : s.ftv = true) (hd : s.distinct = 1#9) :
    ∃ v, presentSymbols s.freq = [v] := by
  have hcount := h.distinct hf
  rw [hd] at hcount
  exact List.length_eq_one_iff.mp hcount.symm

/-- Settles O46: with a symbol SRC holds its header, the one present symbol is `v`, and the run of it fits or
overflows. -/
theorem buunpackWithoutATree : Obligations.BuunpackWithoutATree := by
  intro s hinv hs hp
  rw [exec_buunpack_idle hs]
  refine ⟨fun hd => ?noSymbol, fun hd v hv => ?oneSymbol⟩
  case noSymbol =>
    rw [buunpackBody_empty hp hd, Flow.outcome_go, headerEnd, hd]
    rfl
  case oneSymbol =>
    obtain ⟨w, hw⟩ := hinv.exists_presentSymbols_eq (hinv.hpvFtv hp) hd
    obtain rfl : v = w := List.mem_singleton.mp (hw ▸ mem_presentSymbols.mpr hv)
    have hne : s.src.length ≠ 0 := by
      have hle := hinv.header_le hp (by simp [hd])
      omega
    have hend : headerEnd s = 13#32 := by
      rw [headerEnd, if_neg hne, hd]
      rfl
    rw [buunpackBody_single hp hd hw, hend]
    refine ⟨fun hfit => ?fits, fun hover => ?overflows⟩
    case fits =>
      rw [appendRun_fits _ (by simpa using hfit), Flow.outcome_go]
      rfl
    case overflows =>
      rw [appendRun_overflow _ (Nat.zero_le _) (by simpa using hover), Flow.outcome_raised]
      rfl

/-! ### BUUNPACK with a tree -/

/-- With HPV, TRV and two symbols or more, SRC holds the header, and the tree is built and has an internal node. -/
theorem Inv.walk_start {s : State} (h : Inv s) (hp : s.hpv = true) (ht : s.trv = true) (hd : 2 ≤ s.distinct.toNat) :
    8 + 5 * s.distinct.toNat ≤ s.src.length ∧ Built s.freq s.nodeL s.nodeR s.root s.nint.toNat ∧
      1 ≤ s.nint.toNat := by
  have hne : s.distinct ≠ 0#9 := fun e => by simp [e] at hd
  have hnint := h.nint ht
  exact ⟨h.header_le hp hne, h.built ht, by omega⟩

/-- Settles O47: the walk reads the paths one after another (`unpackLoop_paths`, by induction over the symbols) and ends
with the TOTAL-th. -/
theorem buunpackWalksTheTree : Obligations.BuunpackWalksTheTree := by
  intro s ds hinv hs hp ht hd hpaths hlen hfit hbits
  obtain ⟨hle, hbuilt, hk⟩ := hinv.walk_start hp ht hd
  rw [exec_buunpack_idle hs,
    buunpackBody_paths hp ht hd hinv.src hinv.srcLt (by omega) hbuilt hk hpaths hlen hfit hbits, Flow.outcome_go]

/-- Settles O48: the walk reads the paths that are whole and fit, and then lacks a bit or a free byte of SNK. -/
theorem buunpackFaults : Obligations.BuunpackFaults := by
  intro s ds hinv hs hp ht hd hpaths
  obtain ⟨hle, hbuilt, hk⟩ := hinv.walk_start hp ht hd
  rw [exec_buunpack_idle hs]
  refine ⟨fun tail hbits hinner hlen hfit => ?underrun, fun hbits hlen hfull => ?overflow⟩
  case underrun =>
    rw [buunpackBody_underrun hp ht hd hinv.src hinv.srcLt hle hbuilt hk hpaths hlen hfit hbits hinner,
      Flow.outcome_raised]
  case overflow =>
    rw [buunpackBody_overflow hp ht hd hinv.src hinv.srcLt (by omega) hbuilt hk hpaths hlen hfull hbits,
      Flow.outcome_raised]

/-! ### BadTraversal -/

/-- The causes of two parts in sequence, where what the first leaves meets the second's condition. -/
theorem Flow.Within.bind_answers {P : State → Prop} {f : Flow} {k : State → Flow} {cs : List Cause} {s : State}
    (hf : f.Within cs s) (ha : f.Answers P) (hk : ∀ t, P t → (k t).Within cs t) : (f.bind k).Within cs s := by
  match f, hf, ha with
  | .go t, ht, hP => exact (hk t hP).start ht
  | .raised _, h, _ => exact h

/-- A command that ends in FAULTED from IDLE has one of the causes of its body. -/
theorem command_cause_mem {body : State → Flow} {cs : List Cause} {s t : State} (hb : (body s).Within cs s)
    (hs : s.opstate = .idle) (h : command body s = .next t) (ht : t.opstate = .faulted) :
    ∃ c ∈ cs, t.cause = some c := by
  rw [command_idle hs] at h
  match hf : body s with
  | .go u =>
    rw [hf] at h hb
    cases h
    cases hs.symm.trans (hb.opstate.symm.trans ht)
  | .raised u =>
    rw [hf] at h hb
    cases h
    obtain ⟨c, hc, i, rfl⟩ := hb
    exact ⟨c, hc, rfl⟩
  | .stuck r =>
    rw [hf] at h
    cases h

theorem command_cause_ne {body : State → Flow} {c : Cause} {cs : List Cause} {s t : State} (hb : (body s).Within cs s)
    (hc : c ∉ cs) (hs : s.opstate = .idle) (h : command body s = .next t) (ht : t.opstate = .faulted) :
    t.cause ≠ some c := fun e => by
  obtain ⟨d, hd, hcause⟩ := command_cause_mem hb hs h ht
  cases hcause.symm.trans e
  exact hc hd

/-- The causes that BUUNPACK has from a state of the invariant: the walk stays on the tree, so BadTraversal is none of
them (44_bit_io.md R181). -/
theorem Ready.buunpackBody_within {s : State} (h : Ready s) :
    (buunpackBody s).Within [.sequenceError, .bitstreamUnderrun, .snkOverflow] s := by
  have hraise {c : Cause} {i : Word} (hc : c ∈ [Cause.sequenceError, .bitstreamUnderrun, .snkOverflow]) :
      (raiseFault c i s).Within [.sequenceError, .bitstreamUnderrun, .snkOverflow] s :=
    Flow.within_raise (.refl s) hc
  by_cases hp : s.hpv = true
  case neg =>
    rw [buunpackBody, if_pos (by simpa using hp)]
    exact hraise (by simp)
  by_cases hd : 2 ≤ s.distinct.toNat
  case pos =>
    by_cases ht : s.trv = true
    case neg =>
      rw [buunpackBody, if_neg (by simp [hp]), if_pos ⟨hd, by simpa using ht⟩]
      exact hraise (by simp)
    obtain ⟨hle, hbuilt, hk⟩ := h.inv.walk_start hp ht hd
    rcases buunpackBody_walk_cases hp ht hd h.inv.src h.inv.srcLt hle hbuilt hk with
      ⟨ds, hpaths, hlen, hfit, hbits⟩ | hr | hr
    · rw [buunpackBody_paths hp ht hd h.inv.src h.inv.srcLt (by omega) hbuilt hk hpaths hlen hfit hbits]
      exact Flow.within_go ⟨rfl, rfl, rfl, rfl, rfl, rfl, rfl, rfl, rfl⟩
    · rw [hr]
      exact hraise (by simp)
    · rw [hr]
      exact hraise (by simp)
  have hstart : SameHost s { s with snk := [], srcPos := headerEnd s } :=
    ⟨rfl, rfl, rfl, rfl, rfl, rfl, rfl, rfl, rfl⟩
  obtain hd | hd : s.distinct = 0#9 ∨ s.distinct = 1#9 := by bv_omega
  · rw [buunpackBody_empty hp hd]
    exact Flow.within_go hstart
  · obtain ⟨v, hv⟩ := h.inv.exists_presentSymbols_eq (h.inv.hpvFtv hp) hd
    rw [buunpackBody_single hp hd hv]
    exact ((appendRun_within _ _ _).start hstart).mono (by simp)

/-- The causes that DECODE has from a state of the invariant. -/
theorem Ready.decodeBody_within {s : State} (h : Ready s) :
    (decodeBody s).Within [.headerDistinctRange, .headerTruncated, .headerZeroFrequency, .headerDuplicateSymbol,
      .headerEmptyTable, .sequenceError, .undefinedEmptyBuild, .bitstreamUnderrun, .snkOverflow] s := by
  refine ((hfparseBody_within s).mono (by simp)).bind_answers (hfparseBody_answers h) fun t ht => ?_
  by_cases hd : 2 ≤ t.distinct.toNat
  · rw [if_pos hd]
    exact ((tbbuildBody_within t).mono (by simp)).bind_answers (tbbuildBody_answers ht) fun u hu =>
      hu.buunpackBody_within.mono (by simp)
  · rw [if_neg hd]
    exact ht.buunpackBody_within.mono (by simp)

/-- Settles O22: SRST and SRCCLR end in IDLE, every other command has the causes of its body, and the two bodies with
the walk have no BadTraversal among them. -/
theorem badTraversalIsUnreachable : Obligations.BadTraversalIsUnreachable := by
  intro s t i hinv hs h hfaulted
  have hready : Ready s := ⟨hinv, hs⟩
  cases i with
  | srst => cases h; cases hfaulted
  | srcclr =>
    rw [exec_srcclr_idle hs] at h
    cases h
    cases hs.symm.trans hfaulted
  | nop => exact command_cause_ne (body := nopBody) (cs := []) (.refl s) (by simp) hs h hfaulted
  | snkclr =>
    refine command_cause_ne (body := snkclrBody) (cs := []) ?_ (by simp) hs h hfaulted
    exact Flow.within_go ⟨rfl, rfl, rfl, rfl, rfl, rfl, rfl, rfl, rfl⟩
  | ftcount => exact command_cause_ne (ftcountBody_within s) (by simp) hs h hfaulted
  | tbbuild => exact command_cause_ne (tbbuildBody_within s) (by simp) hs h hfaulted
  | cgderive => exact command_cause_ne (cgderiveBody_within s) (by simp) hs h hfaulted
  | hfemit => exact command_cause_ne (hfemitBody_within s) (by simp) hs h hfaulted
  | hfparse => exact command_cause_ne (hfparseBody_within s) (by simp) hs h hfaulted
  | bppack => exact command_cause_ne (bppackBody_within s) (by simp) hs h hfaulted
  | buunpack => exact command_cause_ne hready.buunpackBody_within (by simp) hs h hfaulted
  | encode => exact command_cause_ne (encodeBody_within s) (by simp) hs h hfaulted
  | decode => exact command_cause_ne hready.decodeBody_within (by simp) hs h hfaulted

end Sys2Proof.Machine

/-! PROOFS. The statements of 45_header_framer.md: the faults of HFPARSE, the header that HFEMIT writes and where it
overflows, the headers that HFPARSE reads, the round trip, and the empty frame. -/

namespace Sys2Proof.Machine

theorem exec_hfemit_idle {s : State} (hs : s.opstate = .idle) : exec .hfemit s = (hfemitBody s).outcome :=
  command_idle hs

theorem exec_hfparse_idle {s : State} (hs : s.opstate = .idle) : exec .hfparse s = (hfparseBody s).outcome :=
  command_idle hs

/-! ### The faults of HFPARSE -/

/-- A symbol that the pairs of a header give has a count there (45_header_framer.md R198). -/
theorem pairCount_ne_zero {pairs : List (Byte × Word)} (hok : pairsOk pairs) {x : Byte}
    (hx : x ∈ pairs.map Prod.fst) : pairCount pairs x ≠ 0#32 := by
  obtain ⟨p, hp, rfl⟩ := List.mem_map.mp hx
  cases hf : pairs.find? fun q => q.1 == p.1 with
  | none => exact absurd (List.find?_eq_none.mp hf p hp) (by simp)
  | some q =>
    rw [pairCount, hf]
    exact hok.2.1 q (List.mem_of_find?_eq_some hf)

/-- The state of HFPARSE after it has read the counts and the pairs `pairs` (45_header_framer.md R195). -/
def afterPairs (pairs : List (Byte × Word)) (s : State) : State :=
  { parseStart s with
    freq := addPairs (Vector.replicate 256 0#32) pairs, srcPos := BitVec.ofNat 32 (8 + 5 * pairs.length) }

theorem present_afterPairs {pairs : List (Byte × Word)} (hok : pairsOk pairs) (s : State) {x : Byte}
    (hx : x ∈ pairs.map Prod.fst) : present (afterPairs pairs s).freq x = true := by
  rw [present_iff, afterPairs, freqAt_addPairs hok.1]
  exact pairCount_ne_zero hok hx

/-- The cursor after the pairs does not wrap: there are at most 256 of them. -/
theorem toNat_srcPos_afterPairs {pairs : List (Byte × Word)} (hok : pairsOk pairs) (s : State) :
    (afterPairs pairs s).srcPos.toNat = 8 + 5 * pairs.length := by
  have hle := hok.2.2
  rw [afterPairs, BitVec.toNat_ofNat, Nat.mod_eq_of_lt (by omega)]

/-- What HFPARSE has still to read after the pairs. -/
theorem drop_srcPos_afterPairs {s : State} {t d : Word} {pairs : List (Byte × Word)} {rest : List Byte}
    (h : s.src.bytes = be32Bytes t ++ be32Bytes d ++ pairBytes pairs ++ rest) (hok : pairsOk pairs) :
    (afterPairs pairs s).src.bytes.drop (afterPairs pairs s).srcPos.toNat = rest := by
  have hlen : (be32Bytes t ++ be32Bytes d ++ pairBytes pairs).length = 8 + 5 * pairs.length := by
    simp only [List.length_append, length_be32Bytes, length_pairBytes]
  rw [toNat_srcPos_afterPairs hok, ← hlen]
  show s.src.bytes.drop _ = rest
  rw [h, List.drop_left]

/-- A fault at the pair after the good ones is the fault of HFPARSE (60_exceptions.md R225, R226). -/
theorem hfparseBody_pairFault {s : State} (hw : s.src.wf = true) (hlt : s.src.length < 2 ^ 32) {t d : Word}
    {pairs : List (Byte × Word)} {rest : List Byte} {c : Cause} {i : Word}
    (h : s.src.bytes = be32Bytes t ++ be32Bytes d ++ pairBytes pairs ++ rest) (hd : d.toNat ≤ 256)
    (hok : pairsOk pairs) (hmore : pairs.length < d.toNat)
    (hfault : parsePair (afterPairs pairs s) = raiseFault c i (afterPairs pairs s)) :
    hfparseBody s = .raised (enterFault c i s) := by
  obtain ⟨n, hn⟩ : ∃ n, d.toNat - pairs.length = n + 1 := ⟨d.toNat - pairs.length - 1, by omega⟩
  rw [hfparseBody_pairs hw hlt h hd hok hmore.le, hn, ← afterPairs, parsePairs, hfault]
  rfl

/-- HeaderEmptyTable (45_header_framer.md R200): there is no pair to read, and the total is not 0. -/
theorem hfparseBody_emptyTable {s : State} (hw : s.src.wf = true) {t : Word} {rest : List Byte}
    (h : s.src.bytes = be32Bytes t ++ be32Bytes 0#32 ++ rest) (ht : t ≠ 0#32) :
    hfparseBody s = .raised (enterFault .headerEmptyTable t s) := by
  rw [hfparseBody_counts hw h, if_neg (by decide), BitVec.toNat_ofNat, Nat.zero_mod, parsePairs, Flow.bind_go,
    if_pos ⟨rfl, ht⟩]
  rfl

/-- Settles O43: the counts decide the first three faults; in the others the loop reads `pairs`
(`hfparseBody_pairs`, by induction over them), and the next pair is cut short, has count 0, or repeats a symbol. -/
theorem hfparseFaults : Obligations.HfparseFaults := by
  intro s hs hw hlt
  simp only [exec_hfparse_idle hs]
  refine ⟨fun h1 h8 => ?short, fun t d rest h hd => ?range, fun t rest h ht => ?emptyTable,
    fun t d pairs rest h hd hok hmore => ?atPair⟩
  case short => rw [hfparseBody_short h1 h8, Flow.outcome_raised]
  case range => rw [hfparseBody_counts hw h, if_pos hd, Flow.outcome_raised]
  case emptyTable => rw [hfparseBody_emptyTable hw h ht, Flow.outcome_raised]
  case atPair =>
    have hdrop := drop_srcPos_afterPairs h hok
    have hread (x f r) (hr : rest = x :: be32Bytes f ++ r) :=
      parsePair_reads (s := afterPairs pairs s) hw (hdrop.trans hr)
    refine ⟨fun hshort => ?truncated, fun x r hr => ?zero, fun x f r hr hf hx => ?duplicate⟩
    case truncated =>
      have hend : (afterPairs pairs s).src.length < (afterPairs pairs s).srcPos.toNat + 5 := by
        rw [← hdrop, List.length_drop, Memory.length_bytes] at hshort
        omega
      rw [hfparseBody_pairFault hw hlt h hd hok hmore (parsePair_truncated hend), Flow.outcome_raised]
      rfl
    case zero =>
      have hfault := hread x 0#32 r hr
      rw [if_pos rfl] at hfault
      rw [hfparseBody_pairFault hw hlt h hd hok hmore hfault, Flow.outcome_raised]
      rfl
    case duplicate =>
      have hfault := hread x f r hr
      rw [if_neg hf, if_pos (present_afterPairs hok s hx)] at hfault
      rw [hfparseBody_pairFault hw hlt h hd hok hmore hfault, Flow.outcome_raised]
      rfl

/-! ### The header that HFEMIT writes -/

/-- HFEMIT without a table (45_header_framer.md R191). -/
theorem hfemitBody_noTable {s : State} (hf : s.ftv = false) :
    hfemitBody s = raiseFault .sequenceError 0x40#32 s := by
  rw [hfemitBody, if_pos hf]

/-- The header of a table is its two counts and a pair for each symbol whose count is not 0 (30_encoding.md R90). -/
theorem headerBytes_tablePairs {s : State} (hc : s.distinct.toNat = presentCount s.freq) :
    headerBytes s.total (tablePairs s.freq) = be32Bytes s.total ++ be32Bytes (s.distinct.setWidth 32) ++
      allSymbols.flatMap fun x => if freqAt s.freq x = 0#32 then [] else x :: be32Bytes (freqAt s.freq x) := by
  have hcount : BitVec.ofNat 32 (presentCount s.freq) = s.distinct.setWidth 32 := by
    rw [← hc, BitVec.ofNat_toNat]
  rw [headerBytes, length_tablePairs, hcount, pairBytes_tablePairs]

/-- HFEMIT on a table that is not empty begins with TOTAL, into an empty SNK (45_header_framer.md R191). -/
theorem hfemitBody_nonempty {s : State} (hf : s.ftv = true) (hd : s.distinct ≠ 0#9) :
    hfemitBody s = (memWrite4 s.total { s with snk := [] }).bind fun u =>
      (memWrite4 (u.distinct.setWidth 32) u).bind (emitPairs (presentSymbols u.freq)) := by
  rw [hfemitBody, if_neg (by simp [hf])]
  exact if_neg hd

/-- The address at which a header of `n` pairs overflows a sink of capacity `cap`: that of the first append which does
not fit, of TOTAL, of DISTINCT, or of the symbol or the count of a pair (45_header_framer.md R191). -/
def overflowAt (cap n e : Nat) : Prop :=
  e ≤ cap ∧ (((e = 0 ∨ e = 4) ∧ cap < e + 4) ∨
    ∃ k < n, (e = 8 + 5 * k ∧ cap < e + 1) ∨ (e = 9 + 5 * k ∧ cap < e + 4))

/-- HFEMIT on a table whose header does not fit: SnkOverflow with SNK_LEN at the append that does not. -/
theorem hfemitBody_overflowAt {s : State} (hf : s.ftv = true) (hd : s.distinct ≠ 0#9)
    (hc : s.distinct.toNat = presentCount s.freq) (h : s.cfg.snkCap.toNat < 8 + 5 * s.distinct.toNat) :
    ∃ e, hfemitBody s = .raised (enterFault .snkOverflow (BitVec.ofNat 32 e) s) ∧
      overflowAt s.cfg.snkCap.toNat s.distinct.toNat e := by
  rw [hfemitBody_nonempty hf hd, memWrite4]
  by_cases h4 : 4 ≤ s.cfg.snkCap.toNat
  case neg =>
    refine ⟨0, ?_, by omega, Or.inl ⟨Or.inl rfl, by omega⟩⟩
    rw [memWrite_overflow (by simp; omega)]
    rfl
  rw [memWrite_fits (by simpa using h4), Flow.bind_go, memWrite4]
  by_cases h8 : 8 ≤ s.cfg.snkCap.toNat
  case neg =>
    refine ⟨4, ?_, h4, Or.inl ⟨Or.inr rfl, by omega⟩⟩
    rw [memWrite_overflow (by simp; omega)]
    rfl
  rw [memWrite_fits (by simpa using h8), Flow.bind_go]
  have hn : (presentSymbols s.freq).length = s.distinct.toNat := hc.symm
  obtain ⟨e, he, hle, hat⟩ := emitPairs_overflow (ss := presentSymbols s.freq)
    (s := { s with snk := (Memory.appendAll [] (be32Bytes s.total)).appendAll (be32Bytes (s.distinct.setWidth 32)) })
    (by simpa using h8) (by simpa [hn] using h)
  exact ⟨e, he, hle, Or.inr (by simpa [hn] using hat)⟩

/-- Settles O41: the four ways of HFEMIT, each by what its body does there. -/
theorem hfemitWritesTheHeader : Obligations.HfemitWritesTheHeader := by
  refine ⟨decodeWord_encode .hfemit, fun s hs => ?_⟩
  simp only [exec_hfemit_idle hs, distinctOf_eq]
  refine ⟨fun hf => ?noTable, fun hf hd => ?empty, fun hf hd hc hfit => ?fits, fun hf hd hc hover => ?overflows⟩
  case noTable => rw [hfemitBody_noTable hf, raiseFault_outcome]
  case empty => rw [hfemitBody_empty hf hd, Flow.outcome_go]
  case fits =>
    rw [hfemitBody_fits hf hd hc hfit, Flow.outcome_go, headerBytes_tablePairs hc, allSymbols]
  case overflows =>
    obtain ⟨e, he, hat⟩ := hfemitBody_overflowAt hf hd hc hover
    exact ⟨e, by rw [he, Flow.outcome_raised], hat⟩

/-! ### The headers that HFPARSE reads -/

/-- Settles O42: the loop reads the pairs into the table `addPairs`, which has the count of each symbol. -/
theorem hfparseReadsTheTable : Obligations.HfparseReadsTheTable := by
  intro s total pairs rest hs hw hlt h hok hzero
  refine ⟨addPairs (Vector.replicate 256 0#32) pairs, freqAt_addPairs hok.1, ?_⟩
  rw [exec_hfparse_idle hs, hfparseBody_reads hw hlt h hok hzero, Flow.outcome_go]

/-- HFEMIT that ends in IDLE on a table that is not empty has written the table's header. -/
theorem snk_of_hfemit_idle {s t : State} (hs : s.opstate = .idle) (hf : s.ftv = true) (hd : s.distinct ≠ 0#9)
    (hc : s.distinct.toNat = presentCount s.freq) (h : exec .hfemit s = .next t) (ht : t.opstate = .idle) :
    t.snk = Memory.ofBytes (headerBytes s.total (tablePairs s.freq)) := by
  rw [exec_hfemit_idle hs] at h
  by_cases hfit : 8 + 5 * s.distinct.toNat ≤ s.cfg.snkCap.toNat
  case pos =>
    rw [hfemitBody_fits hf hd hc hfit] at h
    cases h
    rfl
  case neg =>
    obtain ⟨i, hi⟩ := hfemitBody_overflow hf hd hc (by omega)
    rw [hi] at h
    cases h
    cases ht

/-- Settles O44: SRC begins with the header of the table of `s`, whose pairs are in order (`tablePairs_ok`), and reading
the pairs of a table restores it (`addPairs_tablePairs`). -/
theorem headerRoundTrip : Obligations.HeaderRoundTrip := by
  intro s t u rest hinv hs hf hd ht htidle hu hw hlt h
  have hc := hinv.distinct hf
  have hne : tablePairs s.freq = [] → s.total = 0#32 := fun e => by
    have hzero : s.distinct.toNat = 0 := by rw [hc, ← length_tablePairs, e, List.length_nil]
    exact absurd (BitVec.eq_of_toNat_eq hzero) hd
  rw [snk_of_hfemit_idle hs hf hd hc ht htidle, Memory.bytes_ofBytes] at h
  rw [exec_hfparse_idle hu, hfparseBody_reads hw hlt h (tablePairs_ok s.freq) hne, Flow.outcome_go]
  refine ⟨_, rfl, hu, rfl, addPairs_tablePairs s.freq, rfl, ?_⟩
  rw [length_tablePairs, ← hc, BitVec.ofNat_toNat, BitVec.setWidth_eq]

/-! ### The empty frame -/

/-- The state HFPARSE leaves on an empty SRC (45_header_framer.md R202). -/
def afterEmptyFrame (s : State) : State :=
  { s with
    freq := Vector.replicate 256 0#32, total := 0#32, distinct := 0#9, srcPos := 0#32
    ftv := true, trv := false, cdv := false, hpv := true, empty := true }

theorem status_afterEmptyFrame {s : State} (hs : s.opstate = .idle) : (afterEmptyFrame s).status = 0x26#32 := by
  simp [State.status, State.err, State.single, afterEmptyFrame, hs, bitAt]

/-- With no header on SRC, BUUNPACK leaves SRC_POS at 0 (44_bit_io.md R178). -/
theorem buunpackBody_afterEmptyFrame {s : State} (h : s.src.length = 0) :
    buunpackBody (afterEmptyFrame s) = .go { afterEmptyFrame s with snk := [] } := by
  rw [buunpackBody_empty rfl rfl, headerEnd, if_pos (show (afterEmptyFrame s).src.length = 0 from h)]
  rfl

/-- DECODE on an empty SRC is HFPARSE and BUUNPACK, with no tree between them (46_codec_sequences.md R212). -/
theorem decodeBody_of_src_nil {s : State} (h : s.src.length = 0) :
    decodeBody s = .go { afterEmptyFrame s with snk := [] } := by
  rw [decodeBody, hfparseBody_empty h, Flow.bind_go, if_neg (by simp), Flow.bind_go]
  exact buunpackBody_afterEmptyFrame h

/-- Settles O45: HFPARSE leaves `afterEmptyFrame s`, from which BUUNPACK only empties SNK. -/
theorem emptyFrameDecodes : Obligations.EmptyFrameDecodes := by
  intro s hs hsrc
  have hlen : s.src.length = 0 := by rw [hsrc, List.length_nil]
  refine ⟨afterEmptyFrame s, ?hfparse, rfl, status_afterEmptyFrame hs, ?buunpack, ?decode⟩
  case hfparse =>
    rw [exec_hfparse_idle hs, hfparseBody_empty hlen, Flow.outcome_go, afterEmptyFrame]
  case buunpack =>
    rw [exec_buunpack_idle (s := afterEmptyFrame s) hs, buunpackBody_afterEmptyFrame hlen, Flow.outcome_go]
  case decode => rw [exec, execDecode, command_idle hs, decodeBody_of_src_nil hlen, Flow.outcome_go]

end Sys2Proof.Machine

/-! PROOFS. The statements of 46_codec_sequences.md: the frame that ENCODE writes, the symbols that DECODE restores, the
round trip, the frame of one symbol, the equality with the sequences of unit commands, and that the output depends on
SRC alone. -/

namespace Sys2Proof.Machine

theorem exec_encode_idle {s : State} (hs : s.opstate = .idle) : exec .encode s = (encodeBody s).outcome :=
  command_idle hs

theorem exec_decode_idle {s : State} (hs : s.opstate = .idle) : exec .decode s = (decodeBody s).outcome :=
  command_idle hs

/-! ### The frame that ENCODE writes -/

/-- The codes derived from a built tree are the paths of its leaves (43_code_table.md R161). -/
theorem Built.isPath_codeOf {freq : Vector Word 256} {l r : Vector NodeId 255} {root : NodeId} {k : Nat} {c : Codes}
    (h : Built freq l r root k) (hc : deriveCodes l r root = some c) {x : Byte} (hx : present freq x = true) :
    isPath l r root (codeOf c.len c.bits x) x := by
  have hk := h.k_lt
  obtain ⟨c', hc', hcodes, -⟩ := h.codes
  obtain rfl : c = c' := Option.some.inj (hc.symm.trans hc')
  obtain ⟨p, honly, hle, hlen, hbits⟩ := hcodes x hx
  rw [codeOf_recorded (by omega) hlen hbits]
  exact (honly p).mpr rfl

/-- Settles O49: the codes are paths of the tree (`Built.isPath_codeOf`), and HFEMIT and BPPACK append the header and
the packed codes of SRC, or one of them overflows (`encodeBody_frame`). -/
theorem encodeWritesTheFrame : Obligations.EncodeWritesTheFrame := by
  intro s hinv hs
  refine ⟨fun h0 => ?empty, fun hne => ?frame⟩
  case empty =>
    have hsrc : s.src = [] := List.eq_nil_of_length_eq_zero h0
    rw [exec_encode_idle hs, encodeBody_of_src_nil hsrc, Flow.outcome_go, afterFtcount_of_src_nil hsrc]
  case frame =>
    obtain ⟨root, c, hbuilt, hlaw, hqueued, hc, hbody⟩ := encodeBody_tables hne hinv.srcLt
    obtain ⟨hfits, hoverflows⟩ := encodeBody_frame (root := root) (c := c) hne hinv.srcLt
    have hk : (merged (countBytes s.src.bytes)).k = distinctOf (countBytes s.src.bytes) - 1 := by
      have hcount := hbuilt.count
      rw [distinctOf_eq]
      omega
    rw [hk] at hlaw hqueued
    refine ⟨_, _, _, _, _, root, c.len, c.bits, toNat_freqAt_countBytes (by simpa using hinv.srcLt), hlaw, hqueued,
      fun x => hbuilt.isPath_codeOf hc, ?_⟩
    rw [exec_encode_idle hs, hbody]
    rcases Nat.lt_or_ge s.cfg.snkCap.toNat _ with hover | hfit
    · obtain ⟨info, hinfo⟩ := hoverflows hover
      exact Or.inr ⟨hover, info, by rw [hinfo, Flow.outcome_raised]⟩
    · exact Or.inl ⟨hfit, by rw [hfits hfit, Flow.outcome_go, encodeTables, hk, distinctOf_eq]⟩

/-! ### The symbols that DECODE restores -/

theorem src_length_ne_zero_of_header {s : State} {t : Word} {pairs : List (Byte × Word)} {rest : List Byte}
    (h : s.src.bytes = headerBytes t pairs ++ rest) : s.src.length ≠ 0 := by
  rw [← Memory.length_bytes, h, List.length_append, length_headerBytes]
  omega

/-- On a source that holds a header, BUUNPACK begins behind its pairs (44_bit_io.md R178). -/
theorem headerEnd_afterParse {s : State} {t : Word} {pairs : List (Byte × Word)} (hok : pairsOk pairs)
    (hne : s.src.length ≠ 0) :
    headerEnd (afterParse t pairs s) = BitVec.ofNat 32 (8 + 5 * pairs.length) := by
  rw [headerEnd, if_neg (show (afterParse t pairs s).src.length ≠ 0 from hne), distinct_afterParse hok]

/-- DECODE of a header with fewer than two pairs builds no tree (46_codec_sequences.md R212). -/
theorem decodeBody_noTree {s : State} (hw : s.src.wf = true) (hlt : s.src.length < 2 ^ 32) {t : Word}
    {pairs : List (Byte × Word)} {rest : List Byte} (h : s.src.bytes = headerBytes t pairs ++ rest)
    (hok : pairsOk pairs) (hz : pairs = [] → t = 0#32) (h2 : pairs.length < 2) :
    decodeBody s = buunpackBody (afterParse t pairs s) := by
  have hparse : hfparseBody s = .go (afterParse t pairs s) := hfparseBody_reads hw hlt h hok hz
  rw [decodeBody, hparse, Flow.bind_go, if_neg (by rw [distinct_afterParse hok]; omega), Flow.bind_go]

/-- The table of a header with one pair has its one symbol. -/
theorem presentSymbols_addPairs_single {v : Byte} {g : Word} (hok : pairsOk [(v, g)]) :
    presentSymbols (addPairs (Vector.replicate 256 0#32) [(v, g)]) = [v] := by
  obtain ⟨w, hw⟩ := List.length_eq_one_iff.mp (presentCount_addPairs hok)
  have hv : v ∈ presentSymbols (addPairs (Vector.replicate 256 0#32) [(v, g)]) := by
    rw [mem_presentSymbols, present_iff, freqAt_addPairs hok.1]
    exact pairCount_ne_zero hok (List.mem_singleton_self v)
  rw [hw, List.mem_singleton] at hv
  rw [hw, hv]

/-- DECODE of a header with one symbol: the symbol TOTAL times, whatever follows the header (46_codec_sequences.md
R212). -/
theorem decodeBody_run {s : State} (hw : s.src.wf = true) (hlt : s.src.length < 2 ^ 32) {t : Word} {v : Byte}
    {g : Word} {rest : List Byte} (h : s.src.bytes = headerBytes t [(v, g)] ++ rest) (hok : pairsOk [(v, g)])
    (hfit : t.toNat ≤ s.cfg.snkCap.toNat) :
    decodeBody s = .go { afterParse t [(v, g)] s with snk := Memory.ofBytes (List.replicate t.toNat v) } := by
  have hroom : ([] : Memory).length + t.toNat ≤ s.cfg.snkCap.toNat := by rwa [List.length_nil, Nat.zero_add]
  rw [decodeBody_noTree hw hlt h hok (fun e => by cases e) (by simp),
    buunpackBody_single (v := v) rfl rfl (presentSymbols_addPairs_single hok),
    headerEnd_afterParse hok (src_length_ne_zero_of_header h),
    appendRun_fits (afterParse t [(v, g)] s).total.toNat hroom]
  rfl

/-- A built tree has one root. -/
theorem Built.root_eq {freq : Vector Word 256} {l r l' r' : Vector NodeId 255} {root root' : NodeId} {k k' : Nat}
    (h : Built freq l r root k) (h' : Built freq l' r' root' k') : root = root' :=
  BitVec.eq_of_toNat_eq (h'.pop_eq h.pop).1

/-- The state DECODE leaves after it has read the paths `ds` in the tree with the root `root` (46_codec_sequences.md
R212). -/
def afterWalk (t : Word) (pairs : List (Byte × Word)) (rest : List Byte) (root : NodeId)
    (ds : List (Byte × List Bool)) (s : State) : State :=
  { afterBuild root (afterParse t pairs s) with
    snk := Memory.ofBytes (ds.map Prod.fst), walk := root, emit := t
    srcPos := BitVec.ofNat 32 (8 + 5 * pairs.length + ((ds.flatMap Prod.snd).length + 7) / 8)
    buN := BitVec.ofNat 4 ((8 - (ds.flatMap Prod.snd).length % 8) % 8)
    buCur := if (ds.flatMap Prod.snd).length = 0 then s.buCur
      else rest.getD (((ds.flatMap Prod.snd).length - 1) / 8) 0#8 }

/-- DECODE of a header with two symbols or more, behind which the bits begin with the paths of TOTAL symbols
(46_codec_sequences.md R212). -/
theorem decodeBody_walk {s : State} (hw : s.src.wf = true) (hlt : s.src.length < 2 ^ 32) {t : Word}
    {pairs : List (Byte × Word)} {rest : List Byte} (h : s.src.bytes = headerBytes t pairs ++ rest)
    (hok : pairsOk pairs) (h2 : 2 ≤ pairs.length) {l r : Vector NodeId 255} {root : NodeId} {k : Nat}
    (hbuilt : Built (addPairs (Vector.replicate 256 0#32) pairs) l r root k)
    (hfit : t.toNat ≤ s.cfg.snkCap.toNat) {ds : List (Byte × List Bool)}
    (hpaths : ∀ e ∈ ds, isPath l r root e.2 e.1) (hlen : ds.length = t.toNat)
    (hbits : ds.flatMap Prod.snd <+: bitString rest) : decodeBody s = .go (afterWalk t pairs rest root ds s) := by
  obtain ⟨root', -, hbuilt', hk, hbody⟩ := decodeBody_tree hw hlt h hok h2
  obtain rfl : root = root' := hbuilt.root_eq hbuilt'
  have hd : (afterBuild root (afterParse t pairs s)).distinct.toNat = pairs.length :=
    distinct_afterParse (t := t) (s := s) hok
  have hheader : (headerBytes t pairs).length = 8 + 5 * pairs.length := length_headerBytes t pairs
  have hdrop : s.src.bytes.drop (8 + 5 * pairs.length) = rest := by rw [h, ← hheader, List.drop_left]
  have hget (j : Nat) : s.src.bytes.getD (8 + 5 * pairs.length + j) 0#8 = rest.getD j 0#8 := by
    rw [h, ← hheader, List.getD_append_right _ _ _ _ (Nat.le_add_right _ _), Nat.add_sub_cancel_left]
  have hnint := nint_afterBuild hbuilt'
  have hmerges := hnint.count.trans hbuilt'.count.symm
  rw [hbuilt.l_eq, hbuilt.r_eq] at hpaths
  have hwalk := buunpackBody_paths (s := afterBuild root (afterParse t pairs s)) rfl rfl (by omega) hw hlt
    (src_length_ne_zero_of_header h) hnint (by omega) hpaths hlen hfit (by rw [hd]; exact hdrop.symm ▸ hbits)
  rw [hbody, hwalk, hd, afterWalk, ← hget]
  rfl

/-- Settles O50: the header is read into the table of its pairs; then nothing, the run of the one symbol, or the walk of
the tree that the merges make from that table. -/
theorem decodeRestoresTheSymbols : Obligations.DecodeRestoresTheSymbols := by
  intro s total pairs rest hs hw hlt h hok hfit
  rw [exec_decode_idle hs]
  refine ⟨addPairs (Vector.replicate 256 0#32) pairs, freqAt_addPairs hok.1, fun hp ht => ?none, fun v g hp => ?one,
    fun h2 => ?more⟩
  case none =>
    subst hp ht
    rw [decodeBody_noTree hw hlt h hok (fun _ => rfl) (by decide), buunpackBody_empty rfl rfl,
      headerEnd_afterParse hok (src_length_ne_zero_of_header h), Flow.outcome_go]
    rfl
  case one =>
    subst hp
    rw [decodeBody_run hw hlt h hok hfit, Flow.outcome_go]
    rfl
  case more =>
    have hcount := presentCount_addPairs hok
    obtain ⟨root, hbuilt⟩ := merged_built (freq := addPairs (Vector.replicate 256 0#32) pairs) (by omega)
    have hbuiltCount := hbuilt.count
    have hk : (merged (addPairs (Vector.replicate 256 0#32) pairs)).k = pairs.length - 1 := by omega
    have hroot : root = BitVec.ofNat 9 (254 + pairs.length) := by
      have := hbuilt.root_internal (by omega)
      bv_omega
    refine ⟨_, _, _, _, root, hk ▸ hbuilt.good.treeLaw, hroot, fun ds hpaths hlen hbits => ?_⟩
    rw [decodeBody_walk hw hlt h hok h2 hbuilt hfit hpaths hlen hbits, Flow.outcome_go, ← hk]
    rfl

/-! ### The round trip -/

/-- The frame of the bytes `bs` with the codes `c` (46_codec_sequences.md R210). -/
def frame (c : Codes) (bs : List Byte) : List Byte :=
  headerBytes (BitVec.ofNat 32 bs.length) (tablePairs (countBytes bs)) ++ pack (codeString c.len c.bits bs)

/-- The codes `c` are those of the tree that is built from the counts of `bs`. -/
def CodesOf (bs : List Byte) (c : Codes) : Prop :=
  ∃ l r root k, Built (countBytes bs) l r root k ∧ deriveCodes l r root = some c

/-- ENCODE of a source that is not empty: its frame when that fits SNK, else a fault (46_codec_sequences.md R210). -/
theorem exec_encode_frame {s : State} (hs : s.opstate = .idle) (hne : s.src.length ≠ 0) (hlt : s.src.length < 2 ^ 32) :
    ∃ c t, CodesOf s.src.bytes c ∧ exec .encode s = .next t ∧
      ((frame c s.src.bytes).length ≤ s.cfg.snkCap.toNat →
        t.opstate = .idle ∧ t.snk = Memory.ofBytes (frame c s.src.bytes)) ∧
      (s.cfg.snkCap.toNat < (frame c s.src.bytes).length → t.opstate = .faulted) := by
  obtain ⟨root, c, hbuilt, -, -, hc, hbody⟩ := encodeBody_tables hne hlt
  obtain ⟨hfits, hoverflows⟩ := encodeBody_frame (root := root) (c := c) hne hlt
  have hcodes : CodesOf s.src.bytes c := ⟨_, _, _, _, hbuilt, hc⟩
  have hframe : frame c s.src.bytes = headerBytes s.srcLen (tablePairs (countBytes s.src.bytes)) ++
      pack (codeString c.len c.bits s.src.bytes) := by rw [frame, Memory.length_bytes, State.srcLen]
  rw [← hframe] at hfits hoverflows
  rcases Nat.lt_or_ge s.cfg.snkCap.toNat (frame c s.src.bytes).length with hover | hfit
  · obtain ⟨i, hi⟩ := hoverflows hover
    exact ⟨c, _, hcodes, by rw [exec_encode_idle hs, hbody, hi, Flow.outcome_raised],
      fun hfit => absurd hfit (Nat.not_le.mpr hover), fun _ => rfl⟩
  · have hexec := exec_encode_idle hs
    rw [hbody, hfits hfit, Flow.outcome_go] at hexec
    exact ⟨c, _, hcodes, hexec, fun _ => ⟨hs, rfl⟩, fun hover => absurd hfit (Nat.not_le.mpr hover)⟩

/-- Counted bytes with one present symbol are a run of it. -/
theorem eq_replicate_of_presentSymbols {bs : List Byte} {v : Byte} (hlt : bs.length < 2 ^ 32)
    (h : presentSymbols (countBytes bs) = [v]) : bs = List.replicate bs.length v :=
  List.eq_replicate_of_mem fun _ hb =>
    List.mem_singleton.mp (h ▸ mem_presentSymbols.mpr ((present_countBytes hlt).mpr hb))

theorem tablePairs_of_presentSymbols {f : Vector Word 256} {v : Byte} (h : presentSymbols f = [v]) :
    tablePairs f = [(v, freqAt f v)] := by rw [tablePairs, h, List.map_singleton]

/-- DECODE of the frame of `bs` restores `bs` (46_codec_sequences.md R214): a run of one symbol by TOTAL, other bytes by
the walk of the same tree over their own codes. -/
theorem decodeBody_frame {s : State} {bs : List Byte} {c : Codes} (hcodes : CodesOf bs c)
    (hsrc : s.src = Memory.ofBytes (frame c bs)) (hlen : (frame c bs).length < 2 ^ 32) (hlt : bs.length < 2 ^ 32)
    (hfit : bs.length ≤ s.cfg.snkCap.toNat) :
    ∃ t, decodeBody s = .go t ∧ t.opstate = s.opstate ∧ t.snk = Memory.ofBytes bs := by
  obtain ⟨l, r, root, k, hbuilt, hc⟩ := hcodes
  have hw : s.src.wf = true := by rw [hsrc, Memory.wf_ofBytes]
  have hsrcLt : s.src.length < 2 ^ 32 := by rwa [hsrc, Memory.length_ofBytes]
  have htotal : (BitVec.ofNat 32 bs.length).toNat = bs.length := by rw [BitVec.toNat_ofNat, Nat.mod_eq_of_lt hlt]
  have hbytes : s.src.bytes = headerBytes (BitVec.ofNat 32 bs.length) (tablePairs (countBytes bs)) ++
      pack (codeString c.len c.bits bs) := by rw [hsrc, Memory.bytes_ofBytes, frame]
  have hok := tablePairs_ok (countBytes bs)
  by_cases h2 : 2 ≤ presentCount (countBytes bs)
  case pos =>
    have hpaths : ∀ e ∈ bs.map fun b => (b, codeOf c.len c.bits b), isPath l r root e.2 e.1 := by
      intro e he
      obtain ⟨b, hb, rfl⟩ := List.mem_map.mp he
      exact hbuilt.isPath_codeOf hc ((present_countBytes hlt).mpr hb)
    have hbits : (bs.map fun b => (b, codeOf c.len c.bits b)).flatMap Prod.snd <+:
        bitString (pack (codeString c.len c.bits bs)) := by
      rw [List.flatMap_map]
      exact prefix_bitString_pack _
    refine ⟨_, decodeBody_walk hw hsrcLt hbytes hok (by rwa [length_tablePairs])
      ((addPairs_tablePairs (countBytes bs)).symm ▸ hbuilt) (by rwa [htotal]) hpaths (by rw [List.length_map, htotal])
      hbits, rfl, ?_⟩
    rw [afterWalk, List.map_map]
    exact congrArg Memory.ofBytes (List.map_id bs)
  case neg =>
    have hcount := hbuilt.count
    obtain ⟨v, hv⟩ : ∃ v, presentSymbols (countBytes bs) = [v] :=
      List.length_eq_one_iff.mp (show presentCount (countBytes bs) = 1 by omega)
    rw [tablePairs_of_presentSymbols hv] at hbytes hok
    refine ⟨_, decodeBody_run hw hsrcLt hbytes hok (by rwa [htotal]), rfl, ?_⟩
    rw [htotal, ← eq_replicate_of_presentSymbols hlt hv]

/-- The state after SRCCLR and PUSH of the bytes `bs`. -/
def loaded (bs : List Byte) (s : State) : State := clearValidity { s with src := Memory.ofBytes bs, srcPos := 0#32 }

theorem runActions_load_command {s : State} (hs : s.opstate = .idle) {bs : List Byte}
    (hfit : bs.length ≤ s.cfg.srcCap.toNat) (i : Instr) :
    runActions (commandAction .srcclr :: (HostLine.push bs).actions 0 ++ [commandAction i]) s =
      exec i (loaded bs s) := by
  rw [runActions_append, runActions_load bs hs hfit]
  dsimp only
  rw [runActions_one, hostAction_command, loaded]

/-- Settles O52: the first load and ENCODE leave nothing or the frame of `bs`, and DECODE of what they leave restores
`bs` (`decodeBody_frame`). -/
theorem decodeOfEncodeRestoresTheInput : Obligations.DecodeOfEncodeRestoresTheInput := by
  intro s t bs _ hs hsrcFit hsnkFit hrun ht hframeFit
  rw [runActions_load_command hs hsrcFit] at hrun
  rw [runActions_load_command ht (by rwa [Memory.length_bytes]), exec_decode_idle (s := loaded t.snk.bytes t) ht]
  by_cases hbs : bs = []
  case pos =>
    subst hbs
    rw [exec_encode_idle (s := loaded [] s) hs, encodeBody_of_src_nil rfl, Flow.outcome_go] at hrun
    cases hrun
    rw [decodeBody_of_src_nil rfl, Flow.outcome_go]
    exact ⟨_, rfl, hs, rfl, rfl⟩
  case neg =>
    have hsrcCap := s.cfg.srcCap.isLt
    have hcfg : t.cfg = s.cfg := (commandFrame .encode (loaded bs s) t hrun).1
    have hlen : (loaded bs s).src.length = bs.length := Memory.length_ofBytes bs
    have hbytes : (loaded bs s).src.bytes = bs := Memory.bytes_ofBytes bs
    have hne : bs.length ≠ 0 := fun e => hbs (List.eq_nil_of_length_eq_zero e)
    obtain ⟨c, u, hcodes, hu, hfits, hoverflows⟩ := exec_encode_frame (s := loaded bs s) hs (by omega) (by omega)
    obtain rfl : u = t := Host.Outcome.next.inj (hu.symm.trans hrun)
    rw [hbytes] at hcodes hfits hoverflows
    have hfit : (frame c bs).length ≤ s.cfg.snkCap.toNat := by
      by_contra hover
      cases ht.symm.trans (hoverflows (Nat.not_le.mp hover))
    obtain ⟨-, hsnk⟩ := hfits hfit
    have hcap := s.cfg.snkCap.isLt
    obtain ⟨v, hv, hidle, hvsnk⟩ := decodeBody_frame (s := loaded u.snk.bytes u) hcodes
      (by rw [hsnk, Memory.bytes_ofBytes]; rfl) (by omega) (by omega)
      (by show bs.length ≤ u.cfg.snkCap.toNat; rwa [hcfg])
    refine ⟨v, by rw [hv, Flow.outcome_go], hidle.trans ht, ?_, ?_⟩
    · rw [hvsnk, Memory.bytes_ofBytes]
    · rw [hvsnk, Memory.wf_ofBytes]

/-! ### The frame of one symbol -/

/-- The codes of one symbol are empty (43_code_table.md R164). -/
theorem CodesOf.eq_zero {bs : List Byte} {c : Codes} {v : Byte} (h : CodesOf bs c)
    (hv : presentSymbols (countBytes bs) = [v]) : c = Codes.zero := by
  obtain ⟨l, r, root, k, hbuilt, hc⟩ := h
  have hcount := hbuilt.count
  rw [presentCount, hv, List.length_singleton] at hcount
  exact Option.some.inj (hc.symm.trans (deriveCodes_leaf (hbuilt.root_leaf (by omega)).2))

/-- The frame of a run of one symbol is its header (46_codec_sequences.md R216). -/
theorem frame_replicate {n : Nat} {v : Byte} {c : Codes} (h1 : 1 ≤ n) (hn : n < 2 ^ 32)
    (h : CodesOf (List.replicate n v) c) : frame c (List.replicate n v) =
      be32Bytes (BitVec.ofNat 32 n) ++ [0x00#8, 0x00#8, 0x00#8, 0x01#8, v] ++ be32Bytes (BitVec.ofNat 32 n) := by
  have hv := presentSymbols_countBytes_replicate h1 hn v
  have hbits : codeString Codes.zero.len Codes.zero.bits (List.replicate n v) = [] :=
    List.flatMap_eq_nil_iff.mpr fun x _ => codeOf_zero x
  rw [h.eq_zero hv, frame, hbits, tablePairs_of_presentSymbols hv, freqAt_countBytes, List.count_replicate_self,
    List.length_replicate]
  have hpack : pack [] = [] := by decide
  have hone : be32Bytes (BitVec.ofNat 32 1) = [0x00#8, 0x00#8, 0x00#8, 0x01#8] := by decide
  simp [headerBytes, hone, pairBytes, hpack]

/-- Settles O54: the frame is the header of one pair (`frame_replicate`), and DECODE of a frame restores its bytes. -/
theorem singleSymbolFrame : Obligations.SingleSymbolFrame := by
  intro s v n hs hsrc h1 hn hroom hfit
  have hbytes : s.src.bytes = List.replicate n v := by rw [hsrc, Memory.bytes_ofBytes]
  have hlen : s.src.length = n := by rw [hsrc, Memory.length_ofBytes, List.length_replicate]
  obtain ⟨c, t, hcodes, ht, hfits, -⟩ := exec_encode_frame hs (by omega) (by omega)
  rw [hbytes] at hcodes hfits
  have hframe := frame_replicate h1 hn hcodes
  have hframeLen : (frame c (List.replicate n v)).length = 13 := by rw [hframe]; rfl
  obtain ⟨hidle, hsnk⟩ := hfits (by omega)
  have hcfg : t.cfg = s.cfg := (commandFrame .encode s t ht).1
  obtain ⟨u, hu, huIdle, huSnk⟩ := decodeBody_frame (s := { t with src := t.snk }) hcodes hsnk (by omega)
    (by rwa [List.length_replicate]) (by rw [List.length_replicate]; show n ≤ t.cfg.snkCap.toNat; rwa [hcfg])
  refine ⟨t, ht, hidle, by rw [hsnk, Memory.bytes_ofBytes, hframe], u, ?_, huIdle.trans hidle,
    by rw [huSnk, Memory.bytes_ofBytes]⟩
  rw [exec_decode_idle (s := { t with src := t.snk }) hidle, hu, Flow.outcome_go]

/-! ### The sequences of unit commands -/

/-- A sequence of one command is its body. -/
theorem runActions_single {body : State → Flow} {i : Instr} (he : ∀ s, exec i s = command body s) {s : State}
    (hs : s.opstate = .idle) : runActions ([i].map commandAction) s = (body s).outcome := by
  rw [List.map_singleton, runActions_one, hostAction_command, he, command_idle hs]

/-- Behind FTCOUNT, on a source that is not empty, ENCODE does what the four other commands do
(46_codec_sequences.md R211). -/
theorem runActions_encodeTail {s : State} (hs : s.opstate = .idle) :
    runActions ([Instr.tbbuild, .cgderive, .hfemit, .bppack].map commandAction) s =
      ((tbbuildBody s).bind fun s => (cgderiveBody s).bind fun s => (hfemitBody s).bind bppackBody).outcome := by
  refine runActions_body (tbbuildBody_within s) hs rfl _ (by decide) _ fun t _ ht => ?_
  refine runActions_body (cgderiveBody_within t) ht rfl _ (by decide) _ fun u _ hu => ?_
  refine runActions_body (hfemitBody_within u) hu rfl _ (by decide) _ fun v _ hv => ?_
  exact runActions_single (fun _ => rfl) hv

/-- HFPARSE that completes answers the state it goes on with. -/
theorem eq_of_hfparse_go {s t u : State} (hs : s.opstate = .idle) (hu : exec .hfparse s = .next u)
    (ht : hfparseBody s = .go t) : u = t := by
  rw [exec_hfparse_idle hs, ht] at hu
  exact (Host.Outcome.next.inj hu).symm

/-- Settles O51: each sequence is taken apart command by command (`runActions_body`); a command that faults ends the
body, and FAULTED refuses the rest of the sequence. -/
theorem codecEqualsTheCommandSequences : Obligations.CodecEqualsTheCommandSequences := by
  intro s hs
  have hencode : runActions [commandAction .encode] s = (encodeBody s).outcome := runActions_single (fun _ => rfl) hs
  have hdecode : runActions [commandAction .decode] s = (decodeBody s).outcome := runActions_single (fun _ => rfl) hs
  rw [hencode, hdecode]
  refine ⟨fun hne => ?encode, fun h0 => ?encodeEmpty, fun u hu => ⟨fun hd => ?decode, fun hd => ?decodeNoTree⟩⟩
  case encode =>
    refine (runActions_body (ftcountBody_within s) hs rfl _ (by decide) _ fun t ht hidle => ?_).symm
    cases ht
    rw [if_neg (by exact hne)]
    exact runActions_encodeTail hidle
  case encodeEmpty =>
    refine (runActions_body (ftcountBody_within s) hs rfl _ (by decide) _ fun t ht hidle => ?_).symm
    obtain rfl : afterFtcount s = t := Flow.go.inj ht
    have hsrc : s.src = [] := List.eq_nil_of_length_eq_zero h0
    have hdistinct : (afterFtcount s).distinct = 0#9 := by rw [afterFtcount_of_src_nil hsrc]
    rw [if_pos (by exact h0), runActions_single (body := hfemitBody) (fun _ => rfl) hidle,
      hfemitBody_empty rfl hdistinct]
  case decode =>
    refine (runActions_body (hfparseBody_within s) hs rfl _ (by decide) _ fun t ht hidle => ?_).symm
    obtain rfl := eq_of_hfparse_go hs hu ht
    have h2 := hd.resolve_right (by simp [hidle])
    rw [if_pos h2]
    exact runActions_body (tbbuildBody_within u) hidle rfl _ (by decide) _ fun v _ hv =>
      runActions_single (fun _ => rfl) hv
  case decodeNoTree =>
    refine (runActions_body (hfparseBody_within s) hs rfl _ (by decide) _ fun t ht hidle => ?_).symm
    obtain rfl := eq_of_hfparse_go hs hu ht
    have h2 := hd.resolve_right (by simp [hidle])
    rw [if_neg (Nat.not_le.mpr h2), Flow.bind_go]
    exact runActions_single (fun _ => rfl) hidle

/-! ### The output depends on SRC alone -/

/-- Two states show the same output: SNK and STATUS. -/
def SameOutput (s t : State) : Prop := s.snk = t.snk ∧ s.status = t.status

/-- Two parts of commands end alike: both go on, in states that `P` relates; both raise a fault; or both stop. -/
inductive Flow.Alike (P : State → State → Prop) : Flow → Flow → Prop where
  | go {s t : State} (h : P s t) : Alike P (.go s) (.go t)
  | raised {s t : State} (h : SameOutput s t) : Alike P (.raised s) (.raised t)
  | stuck {q r : Fault} : Alike P (.stuck q) (.stuck r)

namespace Flow

theorem Alike.bind {P Q : State → State → Prop} {f g : Flow} {k h : State → Flow} (hf : f.Alike P g)
    (hk : ∀ s t, P s t → (k s).Alike Q (h t)) : (f.bind k).Alike Q (g.bind h) := by
  cases hf with
  | go hst => exact hk _ _ hst
  | raised hst => exact .raised hst
  | stuck => exact .stuck

theorem Alike.mono {P Q : State → State → Prop} {f g : Flow} (hf : f.Alike P g) (h : ∀ s t, P s t → Q s t) :
    f.Alike Q g := by
  cases hf with
  | go hst => exact .go (h _ _ hst)
  | raised hst => exact .raised hst
  | stuck => exact .stuck

theorem Alike.ite {P : State → State → Prop} {c d : Prop} [Decidable c] [Decidable d] {f f' g g' : Flow} (hcd : c ↔ d)
    (hpos : c → f.Alike P g) (hneg : ¬ c → f'.Alike P g') :
    (if c then f else f').Alike P (if d then g else g') := by
  by_cases hc : c
  · rw [if_pos hc, if_pos (hcd.mp hc)]
    exact hpos hc
  · rw [if_neg hc, if_neg (mt hcd.mpr hc)]
    exact hneg hc

/-- The states of two fault entries show the same output, whatever the faults are (60_exceptions.md R226). -/
theorem alike_raise {P : State → State → Prop} {c d : Cause} {i j : Word} {s t : State} :
    (raiseFault c i s).Alike P (raiseFault d j t) := .raised ⟨rfl, rfl⟩

/-- Commands that end alike answer states with the same output. -/
theorem Alike.outcome {f g : Flow} (h : f.Alike SameOutput g) {s t : State} (hs : f.outcome = .next s)
    (ht : g.outcome = .next t) : SameOutput s t := by
  cases h with
  | go h => cases hs; cases ht; exact h
  | raised h => cases hs; cases ht; exact h
  | stuck => cases hs

end Flow

open Sys2Proof.Machine.Flow

/-- What the commands of a sequence hand on to the next: SRC, the flags and the tables, of the tree and of the codes
only what TRV and CDV call valid. -/
structure View where
  cap : Word
  src : Memory
  opstate : OpState
  freq : Vector Word 256
  total : Word
  distinct : BitVec 9
  ftv : Bool
  trv : Bool
  cdv : Bool
  hpv : Bool
  empty : Bool
  tree : Option (Vector NodeId 255 × Vector NodeId 255 × NodeId × BitVec 9)
  codes : Option (Vector (BitVec 8) 256 × Vector CodeWord 256)

def State.view (s : State) : View where
  cap := s.cfg.snkCap
  src := s.src
  opstate := s.opstate
  freq := s.freq
  total := s.total
  distinct := s.distinct
  ftv := s.ftv
  trv := s.trv
  cdv := s.cdv
  hpv := s.hpv
  empty := s.empty
  tree := if s.trv then some (s.nodeL, s.nodeR, s.root, s.nint) else none
  codes := if s.cdv then some (s.codeLen, s.codeBits) else none

/-- Two states agree on what a sequence hands on. -/
def Agree (s t : State) : Prop := s.view = t.view

/-- A command that changes two states alike keeps their agreement. -/
theorem Agree.update {s t u v : State} (h : Agree s t) (g : View → View) (hu : u.view = g s.view)
    (hv : v.view = g t.view) : Agree u v := hu.trans ((congrArg g h).trans hv.symm)

namespace Agree

variable {s t : State} (h : Agree s t)
include h

theorem cap : s.cfg.snkCap = t.cfg.snkCap := congrArg View.cap h
theorem src : s.src = t.src := congrArg View.src h
theorem opstate : s.opstate = t.opstate := congrArg View.opstate h
theorem freq : s.freq = t.freq := congrArg View.freq h
theorem total : s.total = t.total := congrArg View.total h
theorem distinct : s.distinct = t.distinct := congrArg View.distinct h
theorem ftv : s.ftv = t.ftv := congrArg View.ftv h
theorem trv : s.trv = t.trv := congrArg View.trv h
theorem cdv : s.cdv = t.cdv := congrArg View.cdv h
theorem hpv : s.hpv = t.hpv := congrArg View.hpv h
theorem empty : s.empty = t.empty := congrArg View.empty h

theorem tree (ht : s.trv = true) :
    s.nodeL = t.nodeL ∧ s.nodeR = t.nodeR ∧ s.root = t.root ∧ s.nint = t.nint := by
  simpa [State.view, ht, ← h.trv] using congrArg View.tree h

theorem codes (hc : s.cdv = true) : s.codeLen = t.codeLen ∧ s.codeBits = t.codeBits := by
  simpa [State.view, hc, ← h.cdv] using congrArg View.codes h

theorem status : s.status = t.status := by
  simp only [State.status, State.err, State.single, h.opstate, h.empty, h.ftv, h.trv, h.cdv, h.hpv, h.distinct]

end Agree

/-- Two states agree, and hold the same bytes in SNK. -/
def AgreeSink (s t : State) : Prop := Agree s t ∧ s.snk = t.snk

theorem AgreeSink.sameOutput {s t : State} (h : AgreeSink s t) : SameOutput s t := ⟨h.2, h.1.status⟩

theorem memWrite_alike {P : State → State → Prop} {bs : List Byte} {s t : State} (hcap : s.cfg.snkCap = t.cfg.snkCap)
    (hsnk : s.snk = t.snk) (h : P { s with snk := s.snk.appendAll bs } { t with snk := t.snk.appendAll bs }) :
    (memWrite bs s).Alike P (memWrite bs t) :=
  .ite (by rw [hcap, hsnk]) (fun _ => alike_raise) fun _ => .go h

theorem memWrite_alikeSink (bs : List Byte) {s t : State} (h : AgreeSink s t) :
    (memWrite bs s).Alike AgreeSink (memWrite bs t) :=
  memWrite_alike h.1.cap h.2 ⟨h.1, congrArg (Memory.appendAll · bs) h.2⟩

theorem memWrite4_alikeSink {v w : Word} (hvw : v = w) {s t : State} (h : AgreeSink s t) :
    (memWrite4 v s).Alike AgreeSink (memWrite4 w t) := hvw ▸ memWrite_alikeSink (be32Bytes v) h

/-! ### The tables of ENCODE -/

theorem ftcountBody_alike {s t : State} (hsrc : s.src = t.src) (hcap : s.cfg.snkCap = t.cfg.snkCap)
    (hop : s.opstate = t.opstate) : (ftcountBody s).Alike Agree (ftcountBody t) := by
  refine .go ?_
  simp [Agree, State.view, State.srcLen, hsrc, hcap, hop]

theorem tbbuildBody_alike {s t : State} (h : Agree s t) : (tbbuildBody s).Alike Agree (tbbuildBody t) := by
  have hmerged : merged t.freq = merged s.freq := by rw [h.freq]
  refine .ite (by rw [h.ftv]) (fun _ => alike_raise) fun _ => ?_
  refine .ite (by rw [h.distinct]) (fun _ => alike_raise) fun _ => ?_
  rw [hmerged]
  cases (merged s.freq).pop with
  | none => exact .stuck
  | some p =>
    exact .go (h.update (fun v => { v with
      trv := true, cdv := false, tree := some (p.2.l, p.2.r, BitVec.ofNat 9 p.1, BitVec.ofNat 9 p.2.k)
      codes := none }) rfl rfl)

theorem cgderiveBody_alike {s t : State} (h : Agree s t) : (cgderiveBody s).Alike Agree (cgderiveBody t) := by
  refine .ite (by rw [h.trv]) (fun _ => alike_raise) fun ht => ?_
  obtain ⟨hl, hr, hroot, -⟩ := h.tree (by simpa using ht)
  have hcodes : deriveCodes t.nodeL t.nodeR t.root = deriveCodes s.nodeL s.nodeR s.root := by rw [hl, hr, hroot]
  rw [hcodes]
  cases deriveCodes s.nodeL s.nodeR s.root with
  | none => exact .stuck
  | some c => exact .go (h.update (fun v => { v with cdv := true, codes := some (c.len, c.bits) }) rfl rfl)

/-! ### The frame -/

theorem emitPairs_alike (bs : List Byte) {s t : State} (h : AgreeSink s t) :
    (emitPairs bs s).Alike AgreeSink (emitPairs bs t) := by
  induction bs generalizing s t with
  | nil => exact .go h
  | cons b bs ih =>
    exact (memWrite_alikeSink [b] h).bind fun _ _ huv =>
      (memWrite4_alikeSink (congrArg (freqAt · b) huv.1.freq) huv).bind fun _ _ => ih

theorem hfemitBody_alike {s t : State} (h : Agree s t) : (hfemitBody s).Alike AgreeSink (hfemitBody t) := by
  have hempty : AgreeSink { s with snk := [] } { t with snk := [] } := ⟨h, rfl⟩
  refine .ite (by rw [h.ftv]) (fun _ => alike_raise) fun _ => ?_
  refine .ite (by rw [hempty.1.distinct]) (fun _ => .go hempty) fun _ => ?_
  refine (memWrite4_alikeSink h.total hempty).bind fun u v huv => ?_
  rw [huv.1.freq]
  exact (memWrite4_alikeSink (congrArg (BitVec.setWidth 32) huv.1.distinct) huv).bind fun _ _ => emitPairs_alike _

/-- Two states agree, hold the same bytes in SNK and the same bits in the packer, and have codes. -/
structure AgreePack (s t : State) : Prop where
  sink : AgreeSink s t
  cdv : s.cdv = true
  acc : s.bpAcc = t.bpAcc
  n : s.bpN = t.bpN

theorem emitAcc_alike {s t : State} (h : AgreePack s t) : (emitAcc s).Alike AgreePack (emitAcc t) := by
  have hwrite : (snkAppend s.bpAcc s).Alike (fun u v => AgreeSink u v ∧ u.cdv = true) (snkAppend s.bpAcc t) :=
    memWrite_alike h.sink.1.cap h.sink.2 ⟨⟨h.sink.1, congrArg (Memory.appendAll · [s.bpAcc]) h.sink.2⟩, h.cdv⟩
  rw [emitAcc, emitAcc, ← h.acc]
  exact hwrite.bind fun _ _ huv => .go ⟨huv.1, huv.2, rfl, rfl⟩

theorem pushBit_alike (b : Bool) {s t : State} (h : AgreePack s t) :
    (pushBit b s).Alike AgreePack (pushBit b t) := by
  have hacc : setBit s.bpAcc (7 - s.bpN.toNat) b = setBit t.bpAcc (7 - t.bpN.toNat) b := by rw [h.acc, h.n]
  refine .ite (by rw [h.n]) (fun _ => emitAcc_alike ⟨h.sink, h.cdv, hacc, h.n⟩) fun _ => ?_
  exact .go ⟨h.sink, h.cdv, hacc, congrArg (· + 1#3) h.n⟩

theorem pushBits_alike (q : List Bool) {s t : State} (h : AgreePack s t) :
    (pushBits q s).Alike AgreePack (pushBits q t) := by
  induction q generalizing s t with
  | nil => exact .go h
  | cons b q ih => exact (pushBit_alike b h).bind fun _ _ => ih

theorem flush_alike {s t : State} (h : AgreePack s t) : (flush s).Alike AgreePack (flush t) :=
  .ite (by rw [h.n]) (fun _ => .go h) fun _ => emitAcc_alike h

theorem packFrom_alike (i : Nat) (bs : List Byte) {s t : State} (h : AgreePack s t) :
    (packFrom i bs s).Alike AgreePack (packFrom i bs t) := by
  induction bs generalizing i s t with
  | nil => exact .go h
  | cons b bs ih =>
    obtain ⟨hlen, hbits⟩ := h.sink.1.codes h.cdv
    refine .ite (by rw [h.sink.1.freq]) (fun _ => ?_) fun _ => alike_raise
    rw [hlen, hbits]
    exact (pushBits_alike _ h).bind fun _ _ => ih (i + 1)

theorem bppackBody_alike {s t : State} (h : AgreeSink s t) : (bppackBody s).Alike SameOutput (bppackBody t) := by
  refine .ite (by rw [h.1.cdv]) (fun _ => alike_raise) fun hc => ?_
  have hstart : AgreePack { s with bpAcc := 0#8, bpN := 0#3 } { t with bpAcc := 0#8, bpN := 0#3 } :=
    ⟨h, by simpa using hc, rfl, rfl⟩
  have hbytes : t.src.bytes = s.src.bytes := by rw [h.1.src]
  rw [hbytes]
  exact ((packFrom_alike 0 s.src.bytes hstart).bind fun _ _ => flush_alike).mono fun _ _ huv => huv.sink.sameOutput

theorem encodeBody_alike {s t : State} (hsrc : s.src = t.src) (hcap : s.cfg.snkCap = t.cfg.snkCap)
    (hop : s.opstate = t.opstate) : (encodeBody s).Alike SameOutput (encodeBody t) := by
  refine (ftcountBody_alike hsrc hcap hop).bind fun u v huv => ?_
  refine .ite (by rw [huv.src]) (fun _ => .go ⟨rfl, huv.status⟩) fun _ => ?_
  exact (tbbuildBody_alike huv).bind fun _ _ h => (cgderiveBody_alike h).bind fun _ _ h =>
    (hfemitBody_alike h).bind fun _ _ => bppackBody_alike

/-! ### The header -/

/-- Two states agree and stand at the same byte of SRC. -/
def AgreePos (s t : State) : Prop := Agree s t ∧ s.srcPos = t.srcPos

theorem memRead1_congr {s t : State} (h : s.src = t.src) : memRead1 s = memRead1 t := by
  funext a
  rw [memRead1, memRead1, h]

theorem memRead4_congr {s t : State} (h : s.src = t.src) : memRead4 s = memRead4 t := by
  funext a
  rw [memRead4, memRead4, h]

theorem parsePair_alike {s t : State} (h : AgreePos s t) : (parsePair s).Alike AgreePos (parsePair t) := by
  have hbyte : memRead1 t t.srcPos.toNat = memRead1 s s.srcPos.toNat := by rw [memRead1_congr h.1.src, h.2]
  have hcount : memRead4 t (t.srcPos.toNat + 1) = memRead4 s (s.srcPos.toNat + 1) := by
    rw [memRead4_congr h.1.src, h.2]
  refine .ite (by rw [h.1.src, h.2]) (fun _ => alike_raise) fun _ => ?_
  rw [hbyte, hcount]
  cases memRead1 s s.srcPos.toNat with
  | none => exact .stuck
  | some b =>
    cases memRead4 s (s.srcPos.toNat + 1) with
    | none => exact .stuck
    | some f =>
      refine .ite Iff.rfl (fun _ => alike_raise) fun _ => .ite (by rw [h.1.freq]) (fun _ => alike_raise) fun _ => ?_
      exact .go ⟨h.1.update (fun v => { v with freq := freqSet v.freq b f }) rfl rfl, congrArg (· + 5#32) h.2⟩

theorem parsePairs_alike (d : Nat) {s t : State} (h : AgreePos s t) :
    (parsePairs d s).Alike AgreePos (parsePairs d t) := by
  induction d generalizing s t with
  | zero => exact .go h
  | succ d ih => exact (parsePair_alike h).bind fun _ _ => ih

theorem hfparseBody_alike {s t : State} (hsrc : s.src = t.src) (hcap : s.cfg.snkCap = t.cfg.snkCap)
    (hop : s.opstate = t.opstate) : (hfparseBody s).Alike Agree (hfparseBody t) := by
  have hstart : Agree (parseStart s) (parseStart t) := by simp [Agree, State.view, parseStart, hsrc, hcap, hop]
  have hcounts : AgreePos { parseStart s with srcPos := 8#32 } { parseStart t with srcPos := 8#32 } := ⟨hstart, rfl⟩
  refine .ite (by rw [hstart.src]) (fun _ => .go (hstart.update (fun v => { v with
    empty := true, ftv := true, hpv := true }) rfl rfl)) fun _ => ?_
  refine .ite (by rw [hstart.src]) (fun _ => alike_raise) fun _ => ?_
  rw [memRead4_congr hstart.src]
  cases memRead4 (parseStart t) 0 with
  | none => exact .stuck
  | some total =>
    cases memRead4 (parseStart t) 4 with
    | none => exact .stuck
    | some d =>
      refine .ite Iff.rfl (fun _ => alike_raise) fun _ => ?_
      refine (parsePairs_alike d.toNat hcounts).bind fun u v huv => ?_
      refine .ite Iff.rfl (fun _ => alike_raise) fun _ => ?_
      exact .go (huv.1.update (fun v => { v with
        total := total, distinct := d.setWidth 9, ftv := true, hpv := true }) rfl rfl)

/-! ### The walk -/

theorem appendRun_alike (n : Nat) (b : Byte) {s t : State} (h : AgreeSink s t) :
    (appendRun n b s).Alike AgreeSink (appendRun n b t) := by
  induction n generalizing s t with
  | zero => exact .go h
  | succ n ih => exact (memWrite_alikeSink [b] h).bind fun _ _ => ih

/-- Two states agree, hold the same bytes in SNK and have a tree, and their walks are at the same node and the same bit.
BU_CUR counts only while bits of it are left. -/
structure AgreeWalk (s t : State) : Prop where
  sink : AgreeSink s t
  trv : s.trv = true
  srcPos : s.srcPos = t.srcPos
  buN : s.buN = t.buN
  buCur : s.buN ≠ 0#4 → s.buCur = t.buCur
  node : s.walk = t.walk
  emit : s.emit = t.emit

theorem fetchByte_alike {s t : State} (h : AgreeWalk s t) :
    (fetchByte s).Alike (fun u v => AgreeWalk u v ∧ u.buCur = v.buCur) (fetchByte t) := by
  have hbyte : memRead1 t t.srcPos.toNat = memRead1 s s.srcPos.toNat := by
    rw [memRead1_congr h.sink.1.src, h.srcPos]
  refine .ite (by rw [h.buN]) (fun _ => ?_) fun hn => .go ⟨h, h.buCur hn⟩
  refine .ite (by rw [h.srcPos, State.srcLen, State.srcLen, h.sink.1.src]) (fun _ => alike_raise) fun _ => ?_
  rw [hbyte]
  cases memRead1 s s.srcPos.toNat with
  | none => exact .stuck
  | some b => exact .go ⟨⟨h.sink, h.trv, congrArg (· + 1#32) h.srcPos, rfl, fun _ => rfl, h.node, h.emit⟩, rfl⟩

theorem walkBit_alike (b : Bool) {s t : State} (h : AgreeWalk s t) :
    (walkBit b s).Alike AgreeWalk (walkBit b t) := by
  obtain ⟨hl, hr, hroot, hnint⟩ := h.sink.1.tree h.trv
  have hchild : (if b then childAt t.nodeR t.walk else childAt t.nodeL t.walk) =
      if b then childAt s.nodeR s.walk else childAt s.nodeL s.walk := by rw [hl, hr, h.node]
  refine .ite (by rw [h.node, hnint]) (fun _ => alike_raise) fun _ => ?_
  dsimp only
  rw [hchild]
  generalize (if b then childAt s.nodeR s.walk else childAt s.nodeL s.walk) = n
  refine .ite Iff.rfl (fun _ => ?_) fun _ => .go ⟨h.sink, h.trv, h.srcPos, h.buN, h.buCur, rfl, h.emit⟩
  have hwrite : (snkAppend (n.setWidth 8) { s with walk := n }).Alike (fun u v => AgreeWalk u v ∧ u.root = v.root)
      (snkAppend (n.setWidth 8) { t with walk := n }) :=
    memWrite_alike h.sink.1.cap h.sink.2 ⟨⟨⟨h.sink.1, congrArg (Memory.appendAll · [n.setWidth 8]) h.sink.2⟩, h.trv,
      h.srcPos, h.buN, h.buCur, rfl, h.emit⟩, hroot⟩
  exact hwrite.bind fun u v huv => .go ⟨huv.1.sink, huv.1.trv, huv.1.srcPos, huv.1.buN, huv.1.buCur, huv.2,
    congrArg (· + 1#32) huv.1.emit⟩

theorem nextBit_walkBit_alike {s t : State} (h : AgreeWalk s t) :
    (nextBit s walkBit).Alike AgreeWalk (nextBit t walkBit) := by
  refine (fetchByte_alike h).bind fun u v huv => ?_
  obtain ⟨hwalk, hcur⟩ := huv
  dsimp only
  have hbit : v.buCur.getLsbD (v.buN - 1#4).toNat = u.buCur.getLsbD (u.buN - 1#4).toNat := by rw [hcur, hwalk.buN]
  rw [hbit]
  exact walkBit_alike _ ⟨hwalk.sink, hwalk.trv, hwalk.srcPos, congrArg (· - 1#4) hwalk.buN, fun _ => hcur, hwalk.node,
    hwalk.emit⟩

theorem unpackLoop_alike (f : Nat) {s t : State} (h : AgreeWalk s t) :
    (unpackLoop f s).Alike AgreeWalk (unpackLoop f t) := by
  induction f generalizing s t with
  | zero => exact .stuck
  | succ f ih =>
    refine .ite (by rw [h.emit, h.sink.1.total]) (fun _ => ?_) fun _ => .go h
    exact (nextBit_walkBit_alike h).bind fun _ _ => ih

theorem buunpackBody_alike {s t : State} (h : Agree s t) : (buunpackBody s).Alike SameOutput (buunpackBody t) := by
  have hend : headerEnd s = headerEnd t := by rw [headerEnd, headerEnd, h.src, h.distinct]
  have hstart : AgreeSink { s with snk := [], srcPos := headerEnd s } { t with snk := [], srcPos := headerEnd t } :=
    ⟨h, rfl⟩
  refine .ite (by rw [h.hpv]) (fun _ => alike_raise) fun _ => ?_
  refine .ite (by rw [h.distinct, h.trv]) (fun _ => alike_raise) fun htree => ?_
  refine .ite (by rw [hstart.1.distinct]) (fun _ => .go hstart.sameOutput) fun h0 => ?_
  refine .ite (by rw [hstart.1.distinct]) (fun _ => ?run) fun h1 => ?walk
  case run =>
    have hsymbols : presentSymbols t.freq = presentSymbols s.freq := by rw [h.freq]
    have htotal : t.total.toNat = s.total.toNat := by rw [h.total]
    dsimp only
    rw [hsymbols, htotal]
    cases (presentSymbols s.freq).head? with
    | none => exact .stuck
    | some b => exact (appendRun_alike _ b hstart).mono fun _ _ => AgreeSink.sameOutput
  case walk =>
    have htrv : s.trv = true := by
      by_contra hno
      have h2 : 2 ≤ s.distinct.toNat := by
        dsimp only at h0 h1
        bv_omega
      exact htree ⟨h2, by simpa using hno⟩
    obtain ⟨-, -, hroot, -⟩ := h.tree htrv
    have hlength : t.src.length = s.src.length := by rw [h.src]
    have hwalk : AgreeWalk
        { s with snk := [], srcPos := headerEnd s, buN := 0#4, walk := s.root, emit := 0#32 }
        { t with snk := [], srcPos := headerEnd t, buN := 0#4, walk := t.root, emit := 0#32 } :=
      ⟨hstart, htrv, hend, rfl, fun hne => absurd rfl hne, hroot, rfl⟩
    dsimp only
    rw [hlength]
    exact (unpackLoop_alike _ hwalk).mono fun _ _ huv => huv.sink.sameOutput

theorem decodeBody_alike {s t : State} (hsrc : s.src = t.src) (hcap : s.cfg.snkCap = t.cfg.snkCap)
    (hop : s.opstate = t.opstate) : (decodeBody s).Alike SameOutput (decodeBody t) := by
  refine (hfparseBody_alike hsrc hcap hop).bind fun u v huv => ?_
  refine Alike.bind ?_ fun _ _ => buunpackBody_alike
  exact .ite (by rw [huv.distinct]) (fun _ => tbbuildBody_alike huv) fun _ => .go huv

/-- Settles O53: begun with one SRC and one SNK_CAP, the parts of the two runs hand on the same tables and append the
same bytes, so that the bodies end alike. -/
theorem codecIsPure : Obligations.CodecIsPure := by
  rintro i s s' t t' hi hs hs' hsrc hcap h h'
  have hop : s.opstate = s'.opstate := hs.trans hs'.symm
  rcases hi with rfl | rfl
  · rw [exec_encode_idle hs] at h
    rw [exec_encode_idle hs'] at h'
    exact (encodeBody_alike hsrc hcap hop).outcome h h'
  · rw [exec_decode_idle hs] at h
    rw [exec_decode_idle hs'] at h'
    exact (decodeBody_alike hsrc hcap hop).outcome h h'

end Sys2Proof.Machine

/-! PROOFS. The statements of 60_exceptions.md: fault entry and its precision, what FAULTED refuses and the two ways out
of it, the conditions of SequenceError, and the faults of ENCODE and DECODE. -/

namespace Sys2Proof.Machine

/-! ### Fault entry -/

theorem enterFault_status (c : Cause) (info : Word) (s : State) : (enterFault c info s).status = 0x00000001#32 := by
  simp [State.status, State.err, State.single, bitAt]

/-- Settles O16: `raise` is fault entry, which is reset but for the six fields that R226 names. -/
theorem faultEntryState : Obligations.FaultEntryState := fun c info s =>
  ⟨enterFault c info s, rfl, fun _ => rfl, rfl, rfl, rfl, rfl, rfl, rfl, enterFault_status c info s,
    softReset_atReset s⟩

/-- A command that ends in FAULTED from IDLE ends in the fault entry of its first state (60_exceptions.md R226). -/
theorem eq_enterFault_of_exec {i : Instr} {s t : State} (hs : s.opstate = .idle) (h : exec i s = .next t)
    (ht : t.opstate = .faulted) : ∃ c info, t = enterFault c info s := by
  rcases exec_cases h with ⟨-, rfl⟩ | ⟨-, -, rfl⟩ | ⟨-, hf, -⟩ | ⟨-, -, -, hsame | hfault⟩
  case inl => cases ht
  case inr.inl => cases hs.symm.trans ht
  case inr.inr.inl => cases hs.symm.trans hf
  case inr.inr.inr.inl => cases hs.symm.trans (hsame.opstate.symm.trans ht)
  case inr.inr.inr.inr => exact hfault

/-- Of the register writes only that of SRC_PUSH can fault (10_state.md R56). -/
theorem eq_enterFault_of_writeReg {r : Reg} {d : Word} {s : State} (hs : s.opstate = .idle)
    (ht : (writeReg r d s).opstate = .faulted) : ∃ c info, writeReg r d s = enterFault c info s := by
  rcases writeReg_cases r d s with e | e | e | ⟨-, -, e⟩ | ⟨-, -, e⟩
  case inr.inr.inr.inl => exact ⟨_, _, e⟩
  all_goals
    rw [e] at ht
    cases hs.symm.trans ht

/-- Settles O17, along all that a host action in IDLE can answer. -/
theorem faultsArePrecise : Obligations.FaultsArePrecise := by
  intro s t a hs h ht
  rcases hostAction_idle h hs with ⟨d, i, -, -, hexec⟩ | ⟨d, -, rfl⟩ | ⟨k, d, -, -, rfl⟩ | ⟨-, rfl⟩ | ⟨k, -, rfl⟩
  case inl => exact eq_enterFault_of_exec hs hexec ht
  case inr.inl => exact ⟨.illegalCommand, d, rfl⟩
  case inr.inr.inl => exact eq_enterFault_of_writeReg hs ht
  case inr.inr.inr.inl => cases ht
  case inr.inr.inr.inr => cases hs.symm.trans ht

/-! ### FAULTED -/

/-- Every command but SRST is refused in FAULTED (60_exceptions.md R227). -/
theorem exec_faulted {i : Instr} {s : State} (hi : i ≠ .srst) (hs : s.opstate = .faulted) : exec i s = .next s := by
  cases i with
  | srst => exact absurd rfl hi
  | _ => exact command_faulted hs

/-- Every word but that of SRST is refused in FAULTED (60_exceptions.md R227). -/
theorem hostAction_write_cmd_faulted {d : Word} {s : State} (hd : d ≠ 0x00000001#32) (hs : s.opstate = .faulted) :
    hostAction (.write Reg.cmd.index d) s = .next s := by
  rw [hostAction_write_cmd, writeCommand_faulted hs, if_neg hd]

/-- Settles O18: the gate of the commands, the write of CMD and that of SRC_PUSH refuse; the other two writes do not
look at OPSTATE. -/
theorem faultedRefusesCommands : Obligations.FaultedRefusesCommands := fun s hs =>
  ⟨fun _ hi => exec_faulted hi hs,
    fun _ hd => hostAction_write_cmd_faulted hd hs,
    fun d => by rw [hostAction_srcPush, srcPush_faulted d hs],
    fun d => by rw [hostAction_write (by decide), writeReg_sel],
    fun d => hostAction_write (r := .snkAddr) (by decide) d s⟩

/-- The two actions that lead out of FAULTED (60_exceptions.md R228). -/
def LeavesFaulted (a : HostAction) : Prop := a = .hardReset ∨ a = .write Reg.cmd.index 0x00000001#32

/-- `t` is FAULTED with the CAUSE, EINFO and SRC of `s` (60_exceptions.md R229). -/
def StaysFaulted (s t : State) : Prop :=
  t.opstate = .faulted ∧ t.cause = s.cause ∧ t.einfo = s.einfo ∧ t.src = s.src

theorem writeReg_staysFaulted (r : Reg) (d : Word) {s : State} (hs : s.opstate = .faulted) :
    StaysFaulted s (writeReg r d s) := by
  rcases writeReg_cases r d s with e | e | e | ⟨hidle, -⟩ | ⟨hidle, -⟩
  case inr.inr.inr.inl => cases hs.symm.trans hidle
  case inr.inr.inr.inr => cases hs.symm.trans hidle
  all_goals
    rw [e]
    exact ⟨hs, rfl, rfl, rfl⟩

/-- A host action in FAULTED is one of the two exits, and resets, or the fault state stays as it is but for SEL,
SNK_ADDR and the port (60_exceptions.md R228, R229). -/
theorem hostAction_faulted_exits {a : HostAction} {s t : State} (hs : s.opstate = .faulted)
    (h : hostAction a s = .next t) : LeavesFaulted a ∧ t = softReset s ∨ ¬ LeavesFaulted a ∧ StaysFaulted s t := by
  rcases hostAction_faulted h hs with ⟨rfl, rfl⟩ | ⟨d, rfl, hd, rfl⟩ | ⟨k, d, hk, rfl, rfl⟩ | ⟨rfl, rfl⟩ | ⟨k, rfl, rfl⟩
  case inl => exact .inl ⟨.inr rfl, rfl⟩
  case inr.inl => exact .inr ⟨by simpa [LeavesFaulted] using hd, hs, rfl, rfl, rfl⟩
  case inr.inr.inl =>
    have hne : k ≠ Reg.cmd.index := fun e => hk (by rw [e, ofIndex_index])
    exact .inr ⟨by simp [LeavesFaulted, hne], writeReg_staysFaulted _ d hs⟩
  case inr.inr.inr.inl => exact .inl ⟨.inl rfl, rfl⟩
  case inr.inr.inr.inr => exact .inr ⟨by simp [LeavesFaulted], hs, rfl, rfl, rfl⟩

/-- Settles O19: an exit answers the reset state, which is IDLE, and any other action one that is FAULTED. -/
theorem returnFromFault : Obligations.ReturnFromFault := by
  intro s t a hs h
  rcases hostAction_faulted_exits hs h with ⟨hexit, rfl⟩ | ⟨hstay, hfaulted, hkept⟩
  case inl => exact ⟨iff_of_true rfl hexit, fun _ => softReset_atReset s, fun e => nomatch e⟩
  case inr =>
    have hidle : t.opstate ≠ .idle := fun e => by cases hfaulted.symm.trans e
    exact ⟨iff_of_false hidle hstay, fun e => absurd e hidle, fun _ => hkept⟩

/-! ### The flags that a completed part leaves -/

theorem Flow.exists_of_bind_eq_go {f : Flow} {k : State → Flow} {t : State} (h : f.bind k = .go t) :
    ∃ u, f = .go u ∧ k u = .go t := by
  cases f with
  | go u => exact ⟨u, rfl, h⟩
  | raised u => cases h
  | stuck r => cases h

/-- The causes of two parts in sequence, where the second is looked at only behind a first that completed. -/
theorem Flow.Within.bind_of_go {f : Flow} {k : State → Flow} {cs : List Cause} {s : State} (hf : f.Within cs s)
    (hk : ∀ t, f = .go t → (k t).Within cs t) : (f.bind k).Within cs s := by
  match f, hf with
  | .go t, ht => exact (hk t rfl).start ht
  | .raised _, h => exact h
  | .stuck _, _ => trivial

/-- A raised fault has one cause, so two lists of causes hold of a part together. -/
theorem Flow.Within.inter {f : Flow} {cs ds es : List Cause} {s : State} (hc : f.Within cs s) (hd : f.Within ds s)
    (h : ∀ c ∈ cs, c ∈ ds → c ∈ es) : f.Within es s := by
  match f, hc, hd with
  | .go _, ht, _ => exact ht
  | .raised _, ⟨c, hcs, i, rfl⟩, ⟨d, hds, j, e⟩ =>
    obtain rfl : c = d := Option.some.inj (congrArg State.cause e)
    exact ⟨c, h c hcs hds, i, rfl⟩
  | .stuck _, _, _ => trivial

theorem flags_of_tbbuildBody_go {s t : State} (h : tbbuildBody s = .go t) :
    t.ftv = true ∧ t.trv = true ∧ t.hpv = s.hpv := by
  unfold tbbuildBody at h
  split at h
  case isTrue => cases h
  case isFalse hf =>
    split at h
    case isTrue => cases h
    case isFalse =>
      split at h
      case h_1 => cases h
      case h_2 =>
        cases h
        exact ⟨by simpa using hf, rfl, rfl⟩

theorem flags_of_cgderiveBody_go {s t : State} (h : cgderiveBody s = .go t) : t.ftv = s.ftv ∧ t.cdv = true := by
  unfold cgderiveBody at h
  split at h
  case isTrue => cases h
  case isFalse =>
    split at h
    case h_1 => cases h
    case h_2 =>
      cases h
      exact ⟨rfl, rfl⟩

theorem cdv_of_memWrite_go {bs : List Byte} {s t : State} (h : memWrite bs s = .go t) : t.cdv = s.cdv := by
  unfold memWrite at h
  split at h
  case isTrue => cases h
  case isFalse =>
    cases h
    rfl

theorem cdv_of_emitPairs_go {bs : List Byte} {s t : State} (h : emitPairs bs s = .go t) : t.cdv = s.cdv := by
  induction bs generalizing s with
  | nil =>
    cases h
    rfl
  | cons b bs ih =>
    obtain ⟨u, hu, h⟩ := Flow.exists_of_bind_eq_go h
    obtain ⟨v, hv, h⟩ := Flow.exists_of_bind_eq_go h
    rw [ih h, cdv_of_memWrite_go hv, cdv_of_memWrite_go hu]

theorem cdv_of_hfemitBody_go {s t : State} (hf : s.ftv = true) (h : hfemitBody s = .go t) : t.cdv = s.cdv := by
  by_cases hd : s.distinct = 0#9
  case pos =>
    rw [hfemitBody_empty hf hd] at h
    cases h
    rfl
  case neg =>
    rw [hfemitBody_nonempty hf hd] at h
    obtain ⟨u, hu, h⟩ := Flow.exists_of_bind_eq_go h
    obtain ⟨v, hv, h⟩ := Flow.exists_of_bind_eq_go h
    rw [cdv_of_emitPairs_go h, cdv_of_memWrite_go hv, cdv_of_memWrite_go hu]

theorem flags_of_hfparseBody_go {s t : State} (h : hfparseBody s = .go t) : t.ftv = true ∧ t.hpv = true := by
  unfold hfparseBody at h
  dsimp only at h
  split at h
  case isTrue =>
    cases h
    exact ⟨rfl, rfl⟩
  case isFalse =>
    split at h
    case isTrue => cases h
    case isFalse =>
      split at h
      case h_2 => cases h
      case h_1 =>
        split at h
        case isTrue => cases h
        case isFalse =>
          obtain ⟨u, -, h⟩ := Flow.exists_of_bind_eq_go h
          split at h
          case isTrue => cases h
          case isFalse =>
            cases h
            exact ⟨rfl, rfl⟩

/-! ### The causes of a command that has its table -/

theorem tbbuildBody_within_of_symbols {s : State} (hf : s.ftv = true) (hd : s.distinct ≠ 0#9) :
    (tbbuildBody s).Within [] s := by
  rw [tbbuildBody, if_neg (by simp [hf]), if_neg hd]
  split
  case h_1 => exact Flow.within_stuck
  case h_2 => exact Flow.within_go ⟨rfl, rfl, rfl, rfl, rfl, rfl, rfl, rfl, rfl⟩

theorem tbbuildBody_within_of_table {s : State} (hf : s.ftv = true) :
    (tbbuildBody s).Within [.undefinedEmptyBuild] s := by
  by_cases hd : s.distinct = 0#9
  case pos =>
    rw [tbbuildBody_empty hf hd]
    exact Flow.within_raise (.refl s) (by simp)
  case neg => exact (tbbuildBody_within_of_symbols hf hd).mono (by simp)

theorem cgderiveBody_within_of_tree {s : State} (ht : s.trv = true) : (cgderiveBody s).Within [] s := by
  rw [cgderiveBody, if_neg (by simp [ht])]
  split
  case h_1 => exact Flow.within_stuck
  case h_2 => exact Flow.within_go ⟨rfl, rfl, rfl, rfl, rfl, rfl, rfl, rfl, rfl⟩

theorem hfemitBody_within_of_table {s : State} (hf : s.ftv = true) : (hfemitBody s).Within [.snkOverflow] s := by
  have hstart : SameHost s { s with snk := [] } := ⟨rfl, rfl, rfl, rfl, rfl, rfl, rfl, rfl, rfl⟩
  by_cases hd : s.distinct = 0#9
  case pos =>
    rw [hfemitBody_empty hf hd]
    exact Flow.within_go hstart
  case neg =>
    rw [hfemitBody_nonempty hf hd]
    refine Flow.Within.start hstart ?_
    exact (memWrite_within _ _).bind fun u => (memWrite_within _ u).bind fun v => emitPairs_within _ v

theorem bppackBody_within_of_codes {s : State} (hc : s.cdv = true) :
    (bppackBody s).Within [.noCode, .snkOverflow] s := by
  have hstart : SameHost s { s with bpAcc := 0#8, bpN := 0#3 } := ⟨rfl, rfl, rfl, rfl, rfl, rfl, rfl, rfl, rfl⟩
  rw [bppackBody, if_neg (by simp [hc])]
  exact ((packFrom_within _ _ _).bind fun t => (flush_within t).mono (by simp)).start hstart

theorem buunpackBody_within_of_table {s : State} (hp : s.hpv = true) (ht : 2 ≤ s.distinct.toNat → s.trv = true) :
    (buunpackBody s).Within [.bitstreamUnderrun, .badTraversal, .snkOverflow] s := by
  rw [buunpackBody, if_neg (by simp [hp]), if_neg (by simpa using ht)]
  dsimp only
  split
  case isTrue => exact Flow.within_go ⟨rfl, rfl, rfl, rfl, rfl, rfl, rfl, rfl, rfl⟩
  case isFalse =>
    split
    case isTrue =>
      split
      case h_1 => exact Flow.within_stuck
      case h_2 =>
        refine ((appendRun_within _ _ _).mono (by simp)).start ?_
        exact ⟨rfl, rfl, rfl, rfl, rfl, rfl, rfl, rfl, rfl⟩
    case isFalse =>
      refine (unpackLoop_within _ _).start ?_
      exact ⟨rfl, rfl, rfl, rfl, rfl, rfl, rfl, rfl, rfl⟩

/-- ENCODE makes the tables its parts need, so none of them lacks one (46_codec_sequences.md R210). -/
theorem encodeBody_within_of_parts (s : State) :
    (encodeBody s).Within [.undefinedEmptyBuild, .noCode, .snkOverflow] s := by
  refine ((ftcountBody_within s).mono (by simp)).bind_of_go fun t ht => ?_
  have hftv : t.ftv = true := by
    cases ht
    rfl
  split
  case isTrue => exact Flow.within_go ⟨rfl, rfl, rfl, rfl, rfl, rfl, rfl, rfl, rfl⟩
  case isFalse =>
    refine ((tbbuildBody_within_of_table hftv).mono (by simp)).bind_of_go fun u hu => ?_
    obtain ⟨huftv, hutrv, -⟩ := flags_of_tbbuildBody_go hu
    refine ((cgderiveBody_within_of_tree hutrv).mono (by simp)).bind_of_go fun v hv => ?_
    obtain ⟨hvftv, hvcdv⟩ := flags_of_cgderiveBody_go hv
    have hvftv : v.ftv = true := hvftv.trans huftv
    refine ((hfemitBody_within_of_table hvftv).mono (by simp)).bind_of_go fun w hw => ?_
    exact (bppackBody_within_of_codes ((cdv_of_hfemitBody_go hvftv hw).trans hvcdv)).mono (by simp)

/-- DECODE parses the header and builds the tree where BUUNPACK needs one (46_codec_sequences.md R212). -/
theorem decodeBody_within_of_parts (s : State) :
    (decodeBody s).Within [.headerDistinctRange, .headerTruncated, .headerZeroFrequency, .headerDuplicateSymbol,
      .headerEmptyTable, .bitstreamUnderrun, .badTraversal, .snkOverflow] s := by
  refine ((hfparseBody_within s).mono (by simp)).bind_of_go fun t ht => ?_
  obtain ⟨hftv, hhpv⟩ := flags_of_hfparseBody_go ht
  by_cases hd : 2 ≤ t.distinct.toNat
  case pos =>
    have hne : t.distinct ≠ 0#9 := fun e => by simp [e] at hd
    rw [if_pos hd]
    refine ((tbbuildBody_within_of_symbols hftv hne).mono (by simp)).bind_of_go fun u hu => ?_
    obtain ⟨-, hutrv, huhpv⟩ := flags_of_tbbuildBody_go hu
    exact (buunpackBody_within_of_table (huhpv.trans hhpv) fun _ => hutrv).mono (by simp)
  case neg =>
    rw [if_neg hd]
    exact (buunpackBody_within_of_table hhpv fun h => absurd h hd).mono (by simp)

/-! ### SequenceError -/

theorem bppackBody_noCodes {s : State} (hc : s.cdv = false) : bppackBody s = raiseFault .sequenceError 0x50#32 s := by
  rw [bppackBody, if_pos hc]

theorem buunpackBody_noTable {s : State} (h : s.hpv = false ∨ 2 ≤ s.distinct.toNat ∧ s.trv = false) :
    buunpackBody s = raiseFault .sequenceError 0x51#32 s := by
  by_cases hp : s.hpv = false
  · rw [buunpackBody, if_pos hp]
  · rw [buunpackBody, if_neg hp, if_pos (h.resolve_left hp)]

/-- A command whose flag is missing takes SequenceError with its opcode (60_exceptions.md R223). -/
theorem exec_lacksTable {i : Instr} {s : State} (hs : s.opstate = .idle) (h : lacksTable i s) :
    exec i s = .next (enterFault .sequenceError ((opcode i).setWidth 32) s) := by
  cases i with
  | tbbuild =>
    rw [exec_tbbuild_idle hs, tbbuildBody_noTable h, raiseFault_outcome]
    rfl
  | cgderive => exact exec_cgderive_noTree hs h
  | hfemit =>
    rw [exec_hfemit_idle hs, hfemitBody_noTable h, raiseFault_outcome]
    rfl
  | bppack =>
    rw [exec_bppack_idle hs, bppackBody_noCodes h, raiseFault_outcome]
    rfl
  | buunpack =>
    rw [exec_buunpack_idle hs, buunpackBody_noTable h, raiseFault_outcome]
    rfl
  | _ => exact absurd h id

/-- A command that has what it needs does not end in SequenceError. -/
theorem exec_cause_ne_sequenceError {i : Instr} {s t : State} (hs : s.opstate = .idle) (h : exec i s = .next t)
    (ht : t.opstate = .faulted) (htable : ¬ lacksTable i s) : t.cause ≠ some .sequenceError := by
  cases i with
  | srst => cases h; cases ht
  | srcclr =>
    rw [exec_srcclr_idle hs] at h
    cases h
    cases hs.symm.trans ht
  | nop => exact command_cause_ne (body := nopBody) (cs := []) (.refl s) (by simp) hs h ht
  | snkclr =>
    rw [exec_snkclr_idle hs] at h
    cases h
    cases hs.symm.trans ht
  | ftcount => exact command_cause_ne (ftcountBody_within s) (by simp) hs h ht
  | tbbuild =>
    exact command_cause_ne (tbbuildBody_within_of_table (Bool.eq_true_of_not_eq_false htable)) (by simp) hs h ht
  | cgderive =>
    exact command_cause_ne (cgderiveBody_within_of_tree (Bool.eq_true_of_not_eq_false htable)) (by simp) hs h ht
  | hfemit =>
    exact command_cause_ne (hfemitBody_within_of_table (Bool.eq_true_of_not_eq_false htable)) (by simp) hs h ht
  | hfparse => exact command_cause_ne (hfparseBody_within s) (by simp) hs h ht
  | bppack =>
    exact command_cause_ne (bppackBody_within_of_codes (Bool.eq_true_of_not_eq_false htable)) (by simp) hs h ht
  | buunpack =>
    obtain ⟨hp, htree⟩ : s.hpv = true ∧ (2 ≤ s.distinct.toNat → s.trv = true) := by simpa [lacksTable] using htable
    exact command_cause_ne (buunpackBody_within_of_table hp htree) (by simp) hs h ht
  | encode => exact command_cause_ne (encodeBody_within_of_parts s) (by simp) hs h ht
  | decode => exact command_cause_ne (decodeBody_within_of_parts s) (by simp) hs h ht

/-- Settles O20: a command without its flag raises SequenceError at once, and a body that has it has other
causes only. -/
theorem sequenceErrorList : Obligations.SequenceErrorList := fun _ _ hs =>
  ⟨exec_lacksTable hs, fun _ h ht hcause => by_contra fun htable => exec_cause_ne_sequenceError hs h ht htable hcause⟩

/-! ### The faults of ENCODE and DECODE -/

/-- A command whose body does not stop the model ends in IDLE or in the fault entry of one of the body's causes. -/
theorem command_ends {body : State → Flow} {P : State → Prop} {cs : List Cause} {s : State} (hs : s.opstate = .idle)
    (hw : (body s).Within cs s) (ha : (body s).Answers P) :
    ∃ t, command body s = .next t ∧ (t.opstate = .idle ∨ ∃ c info, t = enterFault c info s ∧ c ∈ cs) := by
  rw [command_idle hs]
  match body s, hw, ha with
  | .go t, hsame, _ => exact ⟨t, rfl, .inl (hsame.opstate.trans hs)⟩
  | .raised t, ⟨c, hc, info, e⟩, _ => exact ⟨t, rfl, .inr ⟨c, info, e, hc⟩⟩

/-- The causes of DECODE from a state of the invariant (60_exceptions.md R224): no table is missing, and the walk stays
on the tree. -/
theorem Ready.decodeBody_within_codec {s : State} (h : Ready s) :
    (decodeBody s).Within [.headerDistinctRange, .headerTruncated, .headerZeroFrequency, .headerDuplicateSymbol,
      .headerEmptyTable, .bitstreamUnderrun, .snkOverflow] s :=
  (decodeBody_within_of_parts s).inter h.decodeBody_within (by decide)

/-- Settles O21: ENCODE writes its frame or overflows SNK (`encodeWritesTheFrame`), and the body of DECODE answers with
the causes of its parts. -/
theorem codecFaults : Obligations.CodecFaults := by
  intro s hinv hs
  have hready : Ready s := ⟨hinv, hs⟩
  refine ⟨?encode, command_ends hs hready.decodeBody_within_codec (decodeBody_answers hready)⟩
  obtain ⟨hempty, hframe⟩ := encodeWritesTheFrame s hinv hs
  by_cases h0 : s.src.length = 0
  case pos => exact ⟨_, hempty h0, .inl hs⟩
  case neg =>
    obtain ⟨_, _, _, _, _, _, _, _, -, -, -, -, ⟨-, hfits⟩ | ⟨-, info, hover⟩⟩ := hframe h0
    · exact ⟨_, hfits, .inl hs⟩
    · exact ⟨_, hover, .inr ⟨info, rfl⟩⟩

end Sys2Proof.Machine

/-! PROOFS. The statements of 70_reset_and_hazards.md: every step answers, and which actions change SRC and SNK. -/

namespace Sys2Proof.Machine

/-! ### Every step answers -/

/-- Settles O57: in a state of the invariant the loops, the walks and the queue of every command stay in their bounds
(`hostAction_sound`), so the oldest action answers, and a block without one waits (`step_sound`). -/
theorem stepAlwaysAnswers : Obligations.StepAlwaysAnswers := fun _ h =>
  let ⟨t, ht, _⟩ := step_sound h
  ⟨t, ht⟩

/-! ### What a completed part does to the sink -/

theorem snk_of_tbbuildBody_go {s t : State} (h : tbbuildBody s = .go t) : t.snk = s.snk := by
  unfold tbbuildBody at h
  split at h
  case isTrue => cases h
  case isFalse =>
    split at h
    case isTrue => cases h
    case isFalse =>
      split at h
      case h_1 => cases h
      case h_2 =>
        cases h
        rfl

theorem snk_of_cgderiveBody_go {s t : State} (h : cgderiveBody s = .go t) : t.snk = s.snk := by
  unfold cgderiveBody at h
  split at h
  case isTrue => cases h
  case isFalse =>
    split at h
    case h_1 => cases h
    case h_2 =>
      cases h
      rfl

theorem snk_of_parsePair_go {s t : State} (h : parsePair s = .go t) : t.snk = s.snk := by
  unfold parsePair at h
  split at h
  case isTrue => cases h
  case isFalse =>
    split at h
    case h_2 => cases h
    case h_1 =>
      split at h
      case isTrue => cases h
      case isFalse =>
        split at h
        case isTrue => cases h
        case isFalse =>
          cases h
          rfl

theorem snk_of_parsePairs_go {d : Nat} {s t : State} (h : parsePairs d s = .go t) : t.snk = s.snk := by
  induction d generalizing s with
  | zero =>
    cases h
    rfl
  | succ d ih =>
    obtain ⟨u, hu, h⟩ := Flow.exists_of_bind_eq_go h
    exact (ih h).trans (snk_of_parsePair_go hu)

theorem snk_of_hfparseBody_go {s t : State} (h : hfparseBody s = .go t) : t.snk = s.snk := by
  unfold hfparseBody at h
  dsimp only at h
  split at h
  case isTrue =>
    cases h
    rfl
  case isFalse =>
    split at h
    case isTrue => cases h
    case isFalse =>
      split at h
      case h_2 => cases h
      case h_1 =>
        split at h
        case isTrue => cases h
        case isFalse =>
          obtain ⟨u, hu, h⟩ := Flow.exists_of_bind_eq_go h
          split at h
          case isTrue => cases h
          case isFalse =>
            cases h
            exact (snk_of_parsePairs_go hu).trans rfl

/-! ### BPPACK only appends -/

/-- The SNK of `t` is that of `s` with bytes behind it. -/
def SnkGrows (s t : State) : Prop := ∃ bs, t.snk = s.snk.appendAll bs

theorem SnkGrows.of_eq {s t : State} (h : t.snk = s.snk) : SnkGrows s t := ⟨[], h⟩

theorem SnkGrows.trans {s t u : State} (h : SnkGrows s t) (h' : SnkGrows t u) : SnkGrows s u := by
  obtain ⟨bs, hbs⟩ := h
  obtain ⟨cs, hcs⟩ := h'
  exact ⟨bs ++ cs, by rw [hcs, hbs, Memory.appendAll_append]⟩

theorem snkGrows_of_pushBits_go {q : List Bool} {s t : State} (h : pushBits q s = .go t) : SnkGrows s t := by
  obtain ⟨bs, _, _, rfl⟩ := pushBits_go h
  exact ⟨bs, rfl⟩

theorem snkGrows_of_memWrite_go {bs : List Byte} {s t : State} (h : memWrite bs s = .go t) : SnkGrows s t := by
  unfold memWrite at h
  split at h
  case isTrue => cases h
  case isFalse =>
    cases h
    exact ⟨bs, rfl⟩

theorem snkGrows_of_flush_go {s t : State} (h : flush s = .go t) : SnkGrows s t := by
  unfold flush at h
  split at h
  case isTrue =>
    cases h
    exact .of_eq rfl
  case isFalse =>
    obtain ⟨u, hu, h⟩ := Flow.exists_of_bind_eq_go h
    cases h
    exact (snkGrows_of_memWrite_go hu).trans (.of_eq rfl)

theorem snkGrows_of_packFrom_go {i : Nat} {bs : List Byte} {s t : State} (h : packFrom i bs s = .go t) :
    SnkGrows s t := by
  induction bs generalizing i s with
  | nil =>
    cases h
    exact .of_eq rfl
  | cons b bs ih =>
    unfold packFrom at h
    split at h
    case isFalse => cases h
    case isTrue =>
      obtain ⟨u, hu, h⟩ := Flow.exists_of_bind_eq_go h
      exact (snkGrows_of_pushBits_go hu).trans (ih h)

theorem snkGrows_of_bppackBody_go {s t : State} (h : bppackBody s = .go t) : SnkGrows s t := by
  unfold bppackBody at h
  split at h
  case isTrue => cases h
  case isFalse =>
    obtain ⟨u, hu, h⟩ := Flow.exists_of_bind_eq_go h
    exact (SnkGrows.of_eq rfl).trans ((snkGrows_of_packFrom_go hu).trans (snkGrows_of_flush_go h))

/-- A BPPACK that ends in IDLE only appends to SNK: a fault ends in FAULTED. -/
theorem snkGrows_of_exec_bppack {s t : State} (h : exec .bppack s = .next t) (ht : t.opstate = .idle) :
    SnkGrows s t := by
  rcases command_cases bppackBody_within h with ⟨-, rfl⟩ | ⟨-, ⟨hgo, -⟩ | ⟨c, -, info, rfl⟩⟩
  case inl => exact .of_eq rfl
  case inr.inl => exact snkGrows_of_bppackBody_go hgo
  case inr.inr => cases ht

/-! ### The buffers under a command -/

/-- FTV, TRV, CDV, HPV and EMPTY are 0 (70_reset_and_hazards.md R256). -/
def FlagsDown (t : State) : Prop :=
  t.ftv = false ∧ t.trv = false ∧ t.cdv = false ∧ t.hpv = false ∧ t.empty = false

/-- A command changes SRC only by SRST and SRCCLR, which clear the flags. -/
theorem exec_src_or_flagsDown {i : Instr} {s t : State} (h : exec i s = .next t) : t.src = s.src ∨ FlagsDown t := by
  rcases exec_cases h with ⟨-, rfl⟩ | ⟨-, -, rfl⟩ | ⟨-, -, rfl⟩ | ⟨-, -, -, hsame | ⟨c, info, rfl⟩⟩
  case inl => exact .inr ⟨rfl, rfl, rfl, rfl, rfl⟩
  case inr.inl => exact .inr ⟨rfl, rfl, rfl, rfl, rfl⟩
  case inr.inr.inl => exact .inl rfl
  case inr.inr.inr.inl => exact .inl hsame.src
  case inr.inr.inr.inr => exact .inl rfl

/-- A command whose body keeps SNK keeps it or, by a fault, empties it. -/
theorem command_snk {body : State → Flow} {cs : List Cause} (hb : ∀ s, (body s).Within cs s)
    (hsnk : ∀ {s t}, body s = .go t → t.snk = s.snk) {s t : State} (h : command body s = .next t) :
    t.snk = s.snk ∨ t.snk = [] := by
  rcases command_cases hb h with ⟨-, rfl⟩ | ⟨-, ⟨hgo, -⟩ | ⟨c, -, info, rfl⟩⟩
  case inl => exact .inl rfl
  case inr.inl => exact .inl (hsnk hgo)
  case inr.inr => exact .inr rfl

/-- The commands that write SNK (70_reset_and_hazards.md R257). -/
def writesSnk : List Instr := [.hfemit, .bppack, .buunpack, .encode, .decode]

/-- A command that does not write SNK keeps it or empties it. -/
theorem exec_snk {i : Instr} {s t : State} (hi : i ∉ writesSnk) (h : exec i s = .next t) :
    t.snk = s.snk ∨ t.snk = [] := by
  cases i with
  | nop =>
    rw [exec_nop] at h
    cases h
    exact .inl rfl
  | srst =>
    cases h
    exact .inr rfl
  | srcclr =>
    cases hs : s.opstate with
    | idle =>
      rw [exec_srcclr_idle hs] at h
      cases h
      exact .inl rfl
    | faulted =>
      rw [exec_faulted (by decide) hs] at h
      cases h
      exact .inl rfl
  | snkclr =>
    cases hs : s.opstate with
    | idle =>
      rw [exec_snkclr_idle hs] at h
      cases h
      exact .inr rfl
    | faulted =>
      rw [exec_faulted (by decide) hs] at h
      cases h
      exact .inl rfl
  | ftcount =>
    refine command_snk ftcountBody_within (fun hgo => ?_) h
    cases hgo
    rfl
  | tbbuild => exact command_snk tbbuildBody_within snk_of_tbbuildBody_go h
  | cgderive => exact command_snk cgderiveBody_within snk_of_cgderiveBody_go h
  | hfparse => exact command_snk hfparseBody_within snk_of_hfparseBody_go h
  | hfemit | bppack | buunpack | encode | decode => exact absurd (by decide) hi

/-! ### The buffers under a host action -/

/-- What an action that runs no command does to the buffers: SRC stays or the flags are cleared, and SNK stays or is
emptied. -/
def BuffersSettled (s t : State) : Prop := (t.src = s.src ∨ FlagsDown t) ∧ (t.snk = s.snk ∨ t.snk = [])

theorem BuffersSettled.softReset (s : State) : BuffersSettled s (softReset s) :=
  ⟨.inr ⟨rfl, rfl, rfl, rfl, rfl⟩, .inr rfl⟩

theorem BuffersSettled.enterFault (c : Cause) (info : Word) (s : State) : BuffersSettled s (enterFault c info s) :=
  ⟨.inl rfl, .inr rfl⟩

/-- SRC_PUSH appends to SRC and clears the flags; a full SRC is a fault (10_state.md R56). -/
theorem BuffersSettled.writeReg (r : Reg) (d : Word) (s : State) : BuffersSettled s (writeReg r d s) := by
  rcases writeReg_cases r d s with e | e | e | ⟨-, -, e⟩ | ⟨-, -, e⟩
  case inr.inr.inr.inl =>
    rw [e]
    exact .enterFault _ _ _
  case inr.inr.inr.inr =>
    rw [e]
    exact ⟨.inr ⟨rfl, rfl, rfl, rfl, rfl⟩, .inl rfl⟩
  all_goals
    rw [e]
    exact ⟨.inl rfl, .inl rfl⟩

/-- A host action, in IDLE and in FAULTED, runs a command or does no more to the buffers than `BuffersSettled` says. -/
theorem hostAction_command_or_settled {a : HostAction} {s t : State} (h : hostAction a s = .next t) :
    (∃ i, a = commandAction i ∧ exec i s = .next t) ∨ BuffersSettled s t := by
  cases hs : s.opstate with
  | idle =>
    rcases hostAction_idle h hs with ⟨d, i, rfl, hd, hexec⟩ | ⟨d, -, rfl⟩ | ⟨k, d, -, -, rfl⟩ | ⟨-, rfl⟩ | ⟨k, -, rfl⟩
    case inl => exact .inl ⟨i, by rw [eq_encode_of_decodeWord hd, commandAction], hexec⟩
    case inr.inl => exact .inr (.enterFault _ _ s)
    case inr.inr.inl => exact .inr (.writeReg _ d s)
    case inr.inr.inr.inl => exact .inr (.softReset s)
    case inr.inr.inr.inr => exact .inr ⟨.inl rfl, .inl rfl⟩
  | faulted =>
    rcases hostAction_faulted h hs with ⟨-, rfl⟩ | ⟨d, -, -, rfl⟩ | ⟨k, d, -, -, rfl⟩ | ⟨-, rfl⟩ | ⟨k, -, rfl⟩
    case inl => exact .inr (.softReset s)
    case inr.inl => exact .inr ⟨.inl rfl, .inl rfl⟩
    case inr.inr.inl => exact .inr (.writeReg _ d s)
    case inr.inr.inr.inl => exact .inr (.softReset s)
    case inr.inr.inr.inr => exact .inr ⟨.inl rfl, .inl rfl⟩

/-- Settles O59: an action is a command, whose cases are those of `exec_src_or_flagsDown` and `exec_snk`, or settles the
buffers at once; BPPACK appends by `snkGrows_of_exec_bppack`. -/
theorem bufferChanges : Obligations.BufferChanges := by
  intro a s t h
  refine ⟨fun hne => ?src, ?snk, fun ha ht => ?bppack⟩
  case src =>
    have hsrc : t.src = s.src ∨ FlagsDown t := by
      rcases hostAction_command_or_settled h with ⟨i, -, hexec⟩ | ⟨hsettled, -⟩
      · exact exec_src_or_flagsDown hexec
      · exact hsettled
    exact hsrc.resolve_left hne
  case snk =>
    rcases hostAction_command_or_settled h with ⟨i, ha, hexec⟩ | ⟨-, hsettled⟩
    case inl =>
      by_cases hi : i ∈ writesSnk
      · exact .inr (.inr ⟨i, hi, ha⟩)
      · exact (exec_snk hi hexec).imp_right .inl
    case inr => exact hsettled.imp_right .inl
  case bppack =>
    rw [ha, hostAction_command] at h
    exact snkGrows_of_exec_bppack h ht

end Sys2Proof.Machine
